-- ==== Sys2Proof/Word.lean ====
section
/-! DEFINITION. The widths the spec names (00_scope.md R10 and R11): every value is an unsigned number
of a stated width, bit 0 the least significant. -/

namespace Sys2Proof

/-- One buffer byte, one address of a participant. -/
abbrev Byte := BitVec 8

/-- A 16-bit value: sequence numbers, lengths and checksums. -/
abbrev Half := BitVec 16

/-- A 32-bit value: command words, times, counters, every bus register. -/
abbrev Word := BitVec 32

end Sys2Proof
end

