-- ==== Sys2Proof/Syntax.lean ====
section
/-! DEFINITION. The commands: one constructor per row of spec/opcode_table.json (30_encoding.md R91 to R97).
An instruction holds the operands of its row; the ignored bits of the word are in CMD alone (R95). -/

namespace Sys2Proof

/-- The role of an engine instance (10_state.md R23). -/
inductive Role where
  | master
  | slave
deriving DecidableEq, Repr

/-- The commands a word written to CMD can encode. -/
inductive Instr where
  /-- INIT (0x1): role, local address, peer address (30_encoding.md R92). -/
  | init (role : Role) (localAddr peerAddr : Byte)
  /-- SEND (0x2): destination, payload length (30_encoding.md R93). -/
  | send (dest : Byte) (len : Half)
  /-- CHECK_RX (0x3), no operand (30_encoding.md R94). -/
  | checkRx
  /-- POLL_ACK (0x4), no operand (30_encoding.md R94). -/
  | pollAck
  /-- A reserved opcode, 0x0 or 0x5 to 0xF (30_encoding.md R95). -/
  | reserved (op : BitVec 4)
deriving DecidableEq, Repr

end Sys2Proof
end

