-- ==== Sys2Proof/WellFormed.lean ====
section
/-! DEFINITION. Which terms of `Instr` stand for command words. Every operand field takes every value
of its width (30_encoding.md R91), so the one check is on the opcode of a reserved word. -/

namespace Sys2Proof

/-- The opcodes of the reserved row: 0x0 and 0x5 to 0xF (30_encoding.md R95). -/
def reservedOp (op : BitVec 4) : Bool :=
  !(op == 0x1 || op == 0x2 || op == 0x3 || op == 0x4)

/-- Well-formed: a `reserved` term carries a reserved opcode. -/
def Instr.wf : Instr → Bool
  | .init _ _ _ => true
  | .send _ _ => true
  | .checkRx => true
  | .pollAck => true
  | .reserved op => reservedOp op

end Sys2Proof
end

