-- ==== Sys2Proof/Decode.lean ====
section
/-! DEFINITION. The command word (30_encoding.md R90 to R96): decoder and encoder. A decoder reads
`w[3:0]` alone to identify the command; ignored bits do not reach the instruction. -/

namespace Sys2Proof

/-- `w[3:0]`, the opcode (30_encoding.md R90). -/
def opField (w : Word) : BitVec 4 := w.extractLsb' 0 4

/-- `w[4]`, the role bit R of INIT: 0 Master, 1 Slave (30_encoding.md R92). -/
def roleField (w : Word) : Role := if w.extractLsb' 4 1 = 1 then .slave else .master

/-- `w[15:8]`: LOCAL of INIT, DEST of SEND (30_encoding.md R92, R93). -/
def addrField (w : Word) : Byte := w.extractLsb' 8 8

/-- `w[23:16]`, PEER of INIT (30_encoding.md R92). -/
def peerField (w : Word) : Byte := w.extractLsb' 16 8

/-- `w[31:16]`, LEN of SEND (30_encoding.md R93). -/
def lenField (w : Word) : Half := w.extractLsb' 16 16

/-- The command a word selects (30_encoding.md R90, R97). Total: a reserved opcode is the reserved row. -/
def decode (w : Word) : Instr :=
  if opField w = 0x1 then .init (roleField w) (addrField w) (peerField w)
  else if opField w = 0x2 then .send (addrField w) (lenField w)
  else if opField w = 0x3 then .checkRx
  else if opField w = 0x4 then .pollAck
  else .reserved (opField w)

/-- Why a byte sequence is no command word: it has fewer than the four bytes every word has
(30_encoding.md R91, R96). Raised by `decodeBytes` only; safe, since the bus hands the engine a
word in one piece (20_memory.md R67). -/
inductive DecodeReject where
  | truncatedWord
deriving DecidableEq, Repr

/-- Four bytes as the word they store, the first the least significant (20_memory.md R65). -/
def wordOfBytes (b0 b1 b2 b3 : Byte) : Word := b3 ++ b2 ++ b1 ++ b0

/-- The command at the head of a byte sequence, and the bytes after it. Total on any bytes. -/
def decodeBytes : List Byte → Except DecodeReject (Instr × List Byte)
  | b0 :: b1 :: b2 :: b3 :: rest => .ok (decode (wordOfBytes b0 b1 b2 b3), rest)
  | _ => .error .truncatedWord

/-- The command word an instruction of `nbits` bits stores: bits from `nbits` on are 0. -/
def tableWord (nbits w : Nat) : Word := BitVec.ofNat 32 (w % 2 ^ nbits)

/-- The bytes of a word as the hardware stores it, least significant first (20_memory.md R65). -/
def bytesOfWord (w : Word) : List Byte :=
  [w.extractLsb' 0 8, w.extractLsb' 8 8, w.extractLsb' 16 8, w.extractLsb' 24 8]

/-- The instruction the decoder reads from the bits `w` of a table row of `nbits` bits. Every command
word is 32 bits (30_encoding.md R91): a longer row is none. -/
def decodeTableWord (nbits w : Nat) : Option Instr :=
  if nbits ≤ 32 then
    match decodeBytes (bytesOfWord (tableWord nbits w)) with
    | .ok (i, _) => some i
    | .error _ => none
  else none

/-- The role bit (10_state.md R23). -/
def Role.bit : Role → BitVec 1
  | .master => 0
  | .slave => 1

/-- The opcode of an instruction (30_encoding.md R97). -/
def Instr.op : Instr → BitVec 4
  | .init _ _ _ => 0x1
  | .send _ _ => 0x2
  | .checkRx => 0x3
  | .pollAck => 0x4
  | .reserved op => op

/-- The word of an instruction, as the host notation of 30_encoding.md R102 writes it: each field shifted to
its place in the formats I, S and N of R91, every ignored bit 0. -/
def encode (i : Instr) : Word :=
  match i with
  | .init role localAddr peerAddr =>
    (peerAddr.setWidth 32 <<< 16) ||| (localAddr.setWidth 32 <<< 8) ||| (role.bit.setWidth 32 <<< 4)
      ||| i.op.setWidth 32
  | .send dest len => (len.setWidth 32 <<< 16) ||| (dest.setWidth 32 <<< 8) ||| i.op.setWidth 32
  | .checkRx => i.op.setWidth 32
  | .pollAck => i.op.setWidth 32
  | .reserved _ => i.op.setWidth 32

end Sys2Proof
end

