-- ==== Sys2Proof/Config.lean ====
section
/-! DEFINITION. What an implementation fixes (00_scope.md R10) and what the spec leaves open: the OPEN
parameters and the free values. The free values are opaque constants without a body, so that
nothing can be proved of one beyond its type. -/

namespace Sys2Proof

/-- The header size `HDR` (00_scope.md R9). -/
def Config.hdr : Nat := 12

/-- The OPEN parameters of one engine instance (00_scope.md R10; 92_eei_decisions.md D4, D5, D8).
`BUF_CAP` is held as `spareRoom = BUF_CAP - 13`, so that exactly the admitted capacities
`13 <= BUF_CAP <= 4096` can be written and no statement needs that as a hypothesis. -/
structure Params where
  /-- `BUF_CAP - 13`: the payload room beyond the one byte every capacity has. -/
  spareRoom : Fin 4084
  /-- `PREAMBLE_BYTE` -/
  preambleByte : Byte
  /-- `START_BYTE` -/
  startByte : Byte
  /-- `RESTAMP_ON_RESEND` -/
  restampOnResend : Bool
deriving DecidableEq, Repr, Inhabited

/-- `BUF_CAP`, the capacity in bytes of each buffer (00_scope.md R10). -/
def Params.bufCap (p : Params) : Nat := 13 + p.spareRoom.val

/-- `MAX = BUF_CAP - HDR`, the largest legal payload length (00_scope.md R10). -/
def Params.maxLen (p : Params) : Nat := p.bufCap - Config.hdr

/-- The parameters of the instance that `State.reset` describes: any admitted ones (log entry 3). -/
opaque Config.params : Params

/-- The byte at a buffer address after the given power-on reset (the first is number 0), until INIT or the
host writes it: one draw per byte (70_reset_and_hazards.md R251; log entry 4). -/
opaque Config.powerOnByte : Nat → Nat → Byte

/-- The level at the `now` input when the engine leaves its first power-on reset (20_memory.md R77: the
input is free; log entry 2). -/
opaque Config.nowAtPowerOn : Word

end Sys2Proof
end

