-- ==== Sys2Proof/Machine/State.lean ====
section
/-! DEFINITION. The state of one engine instance (10_state.md R20 to R44), the host transactions still
to come and the histories of what the engine has put out, and the state after power-on reset. -/

namespace Sys2Proof.Machine

/-- The command-error code held in CMD_ERR (10_state.md R37, 60_exceptions.md R220). Two bits, four codes. -/
inductive CmdErr where
  | ok
  | badop
  | noinit
  | badarg
deriving DecidableEq, Repr

/-- The eleven statistics counters (10_state.md R39), in the order of their indices. -/
inductive Counter where
  | txNew
  | txResend
  | rxNew
  | rxDup
  | errPreamble
  | errStart
  | errDest
  | errSrc
  | errSeq
  | errLen
  | errCsum
deriving DecidableEq, Repr

/-- The statistics register file: eleven 32-bit counters (10_state.md R39), 0 at reset and at INIT. -/
structure Stats where
  txNew : Word := 0
  txResend : Word := 0
  rxNew : Word := 0
  rxDup : Word := 0
  errPreamble : Word := 0
  errStart : Word := 0
  errDest : Word := 0
  errSrc : Word := 0
  errSeq : Word := 0
  errLen : Word := 0
  errCsum : Word := 0
deriving DecidableEq, Repr

/-- What a buffer byte that nothing has written since holds: the free byte of a power-on reset
(70_reset_and_hazards.md R251) or the 0 that INIT stores in every byte (41_init.md R130). -/
inductive Fill where
  /-- After the power-on reset of this number: one free value per byte. -/
  | powerOn (number : Nat)
  /-- After INIT: 0. -/
  | zero
deriving DecidableEq, Repr

/-- The two buffers as one sparse byte memory, keyed by bus address: `TX[i]` at 0x1000 + i and `RX[i]`
at 0x2000 + i (20_memory.md R61). Canonical form: `Memory.wf` of Ops.lean. -/
structure Memory where
  fill : Fill
  cells : List Host.Cell
deriving DecidableEq, Repr

/-- What the outside does to the engine in one step (20_memory.md R60; 70_reset_and_hazards.md R254). -/
inductive HostOp where
  /-- `MemRead(addr, width)` -/
  | read (addr : BitVec 16) (width : Nat)
  /-- `MemWrite(addr, width, value)`; a supported width stores the low `width` bytes of `value` -/
  | write (addr : BitVec 16) (width : Nat) (value : Word)
  /-- power-on reset, between transactions -/
  | powerOn
deriving DecidableEq, Repr

/-- One host transaction, with the level the `now` input has while it takes place: the free input of
the command it may start (20_memory.md R77). -/
structure Transaction where
  op : HostOp
  now : Word
deriving DecidableEq, Repr

/-- One engine instance. From `cmd` to `mem` the fields are the spec's architectural state (10_state.md
R22, R39 to R41). `params`, `now`, `spans`, `reads`, `pending`, `powerOns` are the model's own: the
parameters, the time input, what the engine has put out, and what the host will do (log entries 1 to 5). -/
@[ext]
structure State where
  /-- the OPEN parameters (00_scope.md R10); nothing writes them -/
  params : Params
  /-- CMD (10_state.md R38) -/
  cmd : Word
  /-- DELAY_CFG (10_state.md R27) -/
  delayCfg : Word
  /-- INIT_DONE (10_state.md R28) -/
  initDone : Bool
  /-- ROLE (10_state.md R23) -/
  role : Role
  /-- ACK_PENDING (10_state.md R31) -/
  ackPending : Bool
  /-- CMD_ERR (10_state.md R37) -/
  cmdErr : CmdErr
  /-- RESULT (10_state.md R36) -/
  result : Word
  /-- LOCAL_ADDR (10_state.md R24) -/
  localAddr : Byte
  /-- PEER_ADDR (10_state.md R25) -/
  peerAddr : Byte
  /-- MAX_DELAY (10_state.md R26) -/
  maxDelay : Word
  /-- TX_SEQ (10_state.md R29) -/
  txSeq : Half
  /-- RX_SEQ (10_state.md R30) -/
  rxSeq : Half
  /-- T_SEND (10_state.md R32) -/
  tSend : Word
  /-- RETRY (10_state.md R33) -/
  retry : Word
  /-- LAST_DEST (10_state.md R34) -/
  lastDest : Byte
  /-- TX_LEN (10_state.md R35) -/
  txLen : Half
  /-- STAT[0..10] (10_state.md R39) -/
  stats : Stats
  /-- the TX and RX buffers (10_state.md R40, R41) -/
  mem : Memory
  /-- the level at the time input (20_memory.md R77) -/
  now : Word
  /-- the sink's history: every emitted span, oldest first (20_memory.md R75) -/
  spans : List (List Byte)
  /-- what the host's reads have returned, oldest first -/
  reads : List Word
  /-- the host's transactions still to come, the next one first -/
  pending : List Transaction
  /-- how many power-on resets came before the latest one -/
  powerOns : Nat
deriving DecidableEq, Repr

/-- Why a step could stop the machine: never. No behaviour of this block is a fault
(93_implementation_defined.md; 60_exceptions.md R227), so the type has no constructor, which is safe:
a step that faults cannot be written. -/
inductive Fault where
deriving DecidableEq, Repr

/-- Why a command could be refused by the model. -/
inductive Refusal where
  /-- Raised by an arm of `exec` whose command has no meaning in the model; safe. No arm raises it. -/
  | notModelled (mnemonic : String)
deriving DecidableEq, Repr

/-- The machine right after power-on reset: every register and counter 0 (70_reset_and_hazards.md R250), the
buffer bytes free (R251). The parameters and the time input are free too; nothing has been put out
and the host has nothing to do yet. -/
def State.reset : State where
  params := Config.params
  cmd := 0
  delayCfg := 0
  initDone := false
  role := .master
  ackPending := false
  cmdErr := .ok
  result := 0
  localAddr := 0
  peerAddr := 0
  maxDelay := 0
  txSeq := 0
  rxSeq := 0
  tSend := 0
  retry := 0
  lastDest := 0
  txLen := 0
  stats := {}
  mem := { fill := .powerOn 0, cells := [] }
  now := Config.nowAtPowerOn
  spans := []
  reads := []
  pending := []
  powerOns := 0

end Sys2Proof.Machine
end

