-- ==== Sys2Proof/Machine/Ops.lean ====
section
/-! DEFINITION. The named operations over the buffers and the registers, which every meaning shares. -/

namespace Sys2Proof.Machine

/-- The outcome of a command or a step: always a next state in this machine (60_exceptions.md R227). -/
abbrev Result := Host.Outcome State Fault Refusal

/-! ### Byte order (20_memory.md R65): little-endian everywhere -/

/-- `{hi, lo}`, the 16-bit value whose bytes are `lo`, `hi` in buffer order (00_scope.md R13 `rd16`). -/
def half (lo hi : Byte) : Half := hi ++ lo

/-- The bytes `wr16` stores, in buffer order (00_scope.md R13). -/
def le16 (v : Half) : List Byte := [v.extractLsb' 0 8, v.extractLsb' 8 8]

/-- The low `n` bytes of a word, least significant first: what an `n`-byte bus write stores (20_memory.md R66). -/
def lowBytes (v : Word) : Nat → List Byte
  | 0 => []
  | n + 1 => v.extractLsb' 0 8 :: lowBytes (v >>> 8) n

/-- The word a bus read returns from the bytes read, the first the least significant (20_memory.md R66). -/
def wordOfLowBytes : List Byte → Word
  | [] => 0
  | b :: bs => (wordOfLowBytes bs <<< 8) ||| b.setWidth 32

/-! ### The buffer memory -/

/-- What an address holds that no entry lists: the free byte of this power-on (70_reset_and_hazards.md R251), or
0 once INIT has run (41_init.md R130). -/
def Fill.byte : Fill → Nat → Byte
  | .powerOn number, a => Config.powerOnByte number a
  | .zero, _ => 0

/-- The byte listed for an address. -/
def lookupCell : List Host.Cell → Nat → Option Byte
  | [], _ => none
  | (k, b) :: rest, a => if k = a then some b else lookupCell rest a

/-- List a byte for an address, in rising order of addresses, in place of any byte listed for it. -/
def putCell : List Host.Cell → Nat → Byte → List Host.Cell
  | [], a, v => [(a, v)]
  | (k, b) :: rest, a, v =>
    if a < k then (a, v) :: (k, b) :: rest
    else if a = k then (a, v) :: rest
    else (k, b) :: putCell rest a v

/-- List no byte for an address. -/
def dropCell : List Host.Cell → Nat → List Host.Cell
  | [], _ => []
  | (k, b) :: rest, a => if k = a then dropCell rest a else (k, b) :: dropCell rest a

/-- Read one byte. -/
def Memory.read (m : Memory) (a : Nat) : Byte := (lookupCell m.cells a).getD (m.fill.byte a)

/-- Write one byte, keeping the canonical form: a byte equal to the fill is not listed. -/
def Memory.write (m : Memory) (a : Nat) (v : Byte) : Memory :=
  if v = m.fill.byte a then { m with cells := dropCell m.cells a }
  else { m with cells := putCell m.cells a v }

/-- Write consecutive bytes from an address on. -/
def Memory.writeBytes (m : Memory) (a : Nat) : List Byte → Memory
  | [] => m
  | b :: bs => (m.write a b).writeBytes (a + 1) bs

/-- Addresses strictly rise and are all above `low`. -/
def risingFrom (low : Nat) : List Host.Cell → Bool
  | [] => true
  | (k, _) :: rest => decide (low < k) && risingFrom k rest

/-- Addresses strictly rise. -/
def rising : List Host.Cell → Bool
  | [] => true
  | (k, _) :: rest => risingFrom k rest

/-- The canonical form: addresses strictly rise, and no entry equals what its address reads as unlisted. -/
def Memory.wf (m : Memory) : Bool :=
  rising m.cells && m.cells.all (fun c => decide (c.2 ≠ m.fill.byte c.1))

/-- The buffers as INIT leaves them: every byte 0 (41_init.md R130). -/
def Memory.zeroed : Memory := { fill := .zero, cells := [] }

/-- The buffers after the power-on reset of a number: every byte free (70_reset_and_hazards.md R251). -/
def Memory.unspecified (number : Nat) : Memory := { fill := .powerOn number, cells := [] }

/-! ### The TX and RX buffers (10_state.md R40, R41; 20_memory.md R61) -/

/-- The bus address of `TX[0]`. -/
def txBase : Nat := 0x1000

/-- The bus address of `RX[0]`. -/
def rxBase : Nat := 0x2000

/-- `TX[i]` -/
def State.tx (s : State) (i : Nat) : Byte := s.mem.read (txBase + i)

/-- `RX[i]` -/
def State.rx (s : State) (i : Nat) : Byte := s.mem.read (rxBase + i)

/-- Store consecutive bytes into TX from an offset on. -/
def State.writeTx (s : State) (off : Nat) (bs : List Byte) : State :=
  { s with mem := s.mem.writeBytes (txBase + off) bs }

/-- `BUF[off .. off + n)` (00_scope.md R13). -/
def slice (buf : Nat → Byte) (off : Nat) : Nat → List Byte
  | 0 => []
  | n + 1 => buf off :: slice buf (off + 1) n

/-- `TX[0 .. 12 + len)`, the span of a frame with a payload of `len` bytes (42_send.md R140, R145). -/
def State.txSpan (s : State) (len : Half) : List Byte := slice s.tx 0 (Config.hdr + len.toNat)

/-! ### Statistics (10_state.md R39, 45_statistics.md R200) -/

/-- The value of a counter. -/
def Stats.get (st : Stats) : Counter → Word
  | .txNew => st.txNew
  | .txResend => st.txResend
  | .rxNew => st.rxNew
  | .rxDup => st.rxDup
  | .errPreamble => st.errPreamble
  | .errStart => st.errStart
  | .errDest => st.errDest
  | .errSrc => st.errSrc
  | .errSeq => st.errSeq
  | .errLen => st.errLen
  | .errCsum => st.errCsum

/-- One event of a counter: it rises by 1 modulo 2^32 (45_statistics.md R200). -/
def Stats.bump (st : Stats) : Counter → Stats
  | .txNew => { st with txNew := st.txNew + 1 }
  | .txResend => { st with txResend := st.txResend + 1 }
  | .rxNew => { st with rxNew := st.rxNew + 1 }
  | .rxDup => { st with rxDup := st.rxDup + 1 }
  | .errPreamble => { st with errPreamble := st.errPreamble + 1 }
  | .errStart => { st with errStart := st.errStart + 1 }
  | .errDest => { st with errDest := st.errDest + 1 }
  | .errSrc => { st with errSrc := st.errSrc + 1 }
  | .errSeq => { st with errSeq := st.errSeq + 1 }
  | .errLen => { st with errLen := st.errLen + 1 }
  | .errCsum => { st with errCsum := st.errCsum + 1 }

/-- Count one event. -/
def State.count (s : State) (c : Counter) : State := { s with stats := s.stats.bump c }

/-! ### Output and the end of a command -/

/-- `emit(bytes)`: one span to the sink (20_memory.md R75). -/
def State.emit (s : State) (span : List Byte) : State := { s with spans := s.spans ++ [span] }

/-- What a host read returns, put on record. -/
def State.reply (s : State) (v : Word) : State := { s with reads := s.reads ++ [v] }

/-- The host's word stored in CMD before the command runs (30_encoding.md R90). -/
def State.storeCmd (s : State) (w : Word) : State := { s with cmd := w }

/-- The end of a command that ran: `RESULT <- v; CMD_ERR <- OK` (10_state.md R36, R37). -/
def State.finish (s : State) (v : Word) : State := { s with result := v, cmdErr := .ok }

/-- `raise CmdError(code)`: the block's one report of a failed command; CMD_ERR takes the code and nothing else
changes (60_exceptions.md R221). There is no return from it: the next command overwrites CMD_ERR (R228). -/
def State.raise (s : State) (code : CmdErr) : State := { s with cmdErr := code }

/-- The NOINIT check, before any effect: a command other than INIT while INIT_DONE = 0 (60_exceptions.md R223). -/
def State.whenInitialized (s : State) (run : State → State) : State :=
  if s.initDone then run s else s.raise .noinit

/-- RESEND: retransmit the frame the TX buffer holds, as it stands (42_send.md R145, R147). -/
def State.resend (s : State) : State := (s.emit (s.txSpan s.txLen)).count .txResend

/-- Power-on reset between commands (70_reset_and_hazards.md R250, R251, R254): registers and counters as after any
reset, buffer bytes free anew. The parameters, the time input, what was put out and what the host
will do next are outside the reset. -/
def State.powerOnReset (s : State) : State :=
  { State.reset with
    params := s.params
    mem := .unspecified (s.powerOns + 1)
    now := s.now
    spans := s.spans
    reads := s.reads
    pending := s.pending
    powerOns := s.powerOns + 1 }

end Sys2Proof.Machine
end

