-- ==== Sys2Proof/Machine/Init.lean ====
section
/-! DEFINITION. INIT (41_init.md R130 to R134). -/

namespace Sys2Proof.Machine

/-- What INIT leaves, from its operands and DELAY_CFG (41_init.md R130). CMD and DELAY_CFG keep their values. -/
def State.initialized (s : State) (role : Role) (localAddr peerAddr : Byte) : State :=
  { s with
    role := role
    localAddr := localAddr
    peerAddr := peerAddr
    maxDelay := s.delayCfg
    mem := .zeroed
    txSeq := 0
    rxSeq := 0
    ackPending := false
    tSend := 0
    retry := 0
    lastDest := 0
    txLen := 0
    stats := {}
    initDone := true }

/-- INIT: may run at any time and checks no operand (41_init.md R131, R132). -/
def execInit (role : Role) (localAddr peerAddr : Byte) (s : State) : Result :=
  .next ((s.initialized role localAddr peerAddr).finish 0)

end Sys2Proof.Machine
end

