-- ==== Sys2Proof/Machine/Flags.lean ====
section
/-! DEFINITION. The codes and flags the host reads: CMD_ERR, the CHECK_RX outcomes and STATUS. The engine has
no arithmetic condition codes (10_state.md R42). -/

namespace Sys2Proof.Machine

/-- The two bits of CMD_ERR (60_exceptions.md R220). -/
def CmdErr.code : CmdErr → BitVec 2
  | .ok => 0
  | .badop => 1
  | .noinit => 2
  | .badarg => 3

/-- What CHECK_RX can find (30_encoding.md R97). -/
inductive RxOutcome where
  | newValid
  | duplicate
  | preambleErr
  | startErr
  | destErr
  | srcErr
  | seqErr
  | lenErr
  | csumErr
deriving DecidableEq, Repr

/-- The outcome code RESULT[3:0] returns (30_encoding.md R97). -/
def RxOutcome.code : RxOutcome → BitVec 4
  | .newValid => 0
  | .duplicate => 1
  | .preambleErr => 2
  | .startErr => 3
  | .destErr => 4
  | .srcErr => 5
  | .seqErr => 6
  | .lenErr => 7
  | .csumErr => 8

/-- The receive counter an outcome increments (30_encoding.md R97). -/
def RxOutcome.counter : RxOutcome → Counter
  | .newValid => .rxNew
  | .duplicate => .rxDup
  | .preambleErr => .errPreamble
  | .startErr => .errStart
  | .destErr => .errDest
  | .srcErr => .errSrc
  | .seqErr => .errSeq
  | .lenErr => .errLen
  | .csumErr => .errCsum

/-- The number of a counter in the statistics file (10_state.md R39). -/
def Counter.index : Counter → Nat
  | .txNew => 0
  | .txResend => 1
  | .rxNew => 2
  | .rxDup => 3
  | .errPreamble => 4
  | .errStart => 5
  | .errDest => 6
  | .errSrc => 7
  | .errSeq => 8
  | .errLen => 9
  | .errCsum => 10

/-- One flag as a bit of a register. -/
def flagBit (b : Bool) : BitVec 1 := if b then 1 else 0

/-- STATUS: `[0]` INIT_DONE, `[1]` ROLE, `[2]` ACK_PENDING, `[9:8]` CMD_ERR, the rest reserved and 0
(20_memory.md R62, R64). -/
def State.status (s : State) : Word :=
  (0 : BitVec 22) ++ s.cmdErr.code ++ (0 : BitVec 5) ++ flagBit s.ackPending ++ s.role.bit
    ++ flagBit s.initDone

end Sys2Proof.Machine
end

