-- ==== Sys2Proof/Machine/Operands.lean ====
section
/-! DEFINITION. The operand forms of the commands: the fields of a frame in a buffer (30_encoding.md R99, R100),
the length operand, and the checksum over a frame's covered bytes (40_checksum.md). -/

namespace Sys2Proof.Machine

/-- `rd16(BUF, off)` (00_scope.md R13). -/
def rd16 (buf : Nat → Byte) (off : Nat) : Half := half (buf off) (buf (off + 1))

/-- `f_csum` (30_encoding.md R100). -/
def frameCsum (buf : Nat → Byte) : Half := rd16 buf 4

/-- `f_dest` (30_encoding.md R100). -/
def frameDest (buf : Nat → Byte) : Byte := buf 6

/-- `f_src` (30_encoding.md R100). -/
def frameSrc (buf : Nat → Byte) : Byte := buf 7

/-- `f_seq` (30_encoding.md R100). -/
def frameSeq (buf : Nat → Byte) : Half := rd16 buf 8

/-- `f_len` (30_encoding.md R100). -/
def frameLen (buf : Nat → Byte) : Half := rd16 buf 10

/-- A payload length is legal: `1 <= len <= MAX` (30_encoding.md R101). -/
def legalLen (p : Params) (len : Half) : Bool := decide (1 ≤ len.toNat ∧ len.toNat ≤ p.maxLen)

/-! ### The checksum unit (40_checksum.md R110 to R116): a one's-complement sum, no CRC (90_conflicts.md C1) -/

/-- The plain sum of the little-endian 16-bit words; a trailing odd byte is the low byte of its word
(40_checksum.md R110, R112). Unbounded, as the pseudocode's accumulator. -/
def sumWords : List Byte → Nat
  | [] => 0
  | [b] => b.toNat
  | lo :: hi :: rest => (half lo hi).toNat + sumWords rest

/-- `while acc > 0xFFFF: acc <- acc[15:0] + (acc >> 16)`, at most `fuel` times. Each round lowers the
accumulator, so a fuel of `acc` never runs out. -/
def foldCarries : Nat → Nat → Nat
  | 0, acc => acc
  | fuel + 1, acc => if acc ≤ 0xFFFF then acc else foldCarries fuel (acc % 0x10000 + acc / 0x10000)

/-- CSUM: sum, fold, complement (40_checksum.md R110). -/
def csum (bytes : List Byte) : Half :=
  let acc := sumWords bytes
  ~~~ (BitVec.ofNat 16 (foldCarries acc acc))

/-- FCSUM: the checksum of the 4 + len bytes from the sequence number through the last payload byte
(40_checksum.md R114). -/
def frameChecksum (buf : Nat → Byte) (len : Half) : Half := csum (slice buf 8 (4 + len.toNat))

end Sys2Proof.Machine
end

