-- ==== Sys2Proof/Machine/Receive.lean ====
section
/-! DEFINITION. CHECK_RX: the frame validator, the sequence tracker and duplicate suppression
(43_receive.md R160 to R175). -/

namespace Sys2Proof.Machine

/-- Step 1: all three preamble bytes match (43_receive.md R161). -/
def State.preambleOk (s : State) : Bool :=
  s.rx 0 == s.params.preambleByte && s.rx 1 == s.params.preambleByte
    && s.rx 2 == s.params.preambleByte

/-- The source address step 4 asks for: the master's latest destination (43_receive.md R164), the
slave's configured master (R165). -/
def State.expectedSrc (s : State) : Byte :=
  match s.role with
  | .master => s.lastDest
  | .slave => s.peerAddr

/-- Step 4 on a master also compares the sequence number; a slave compares none there (43_receive.md R164, R165). -/
def State.seqOk (s : State) : Bool :=
  match s.role with
  | .master => frameSeq s.rx == s.txSeq
  | .slave => true

/-- Step 7: a slave has seen this sequence number last (43_receive.md R168); a master skips the step. -/
def State.isDuplicate (s : State) : Bool :=
  match s.role with
  | .master => false
  | .slave => frameSeq s.rx == s.rxSeq

/-- VALIDATE's verdict on the RX buffer: the first failing check wins (43_receive.md R160). -/
def State.classify (s : State) : RxOutcome :=
  if !s.preambleOk then .preambleErr
  else if s.rx 3 ≠ s.params.startByte then .startErr
  else if frameDest s.rx ≠ s.localAddr then .destErr
  else if frameSrc s.rx ≠ s.expectedSrc then .srcErr
  else if !s.seqOk then .seqErr
  else if !legalLen s.params (frameLen s.rx) then .lenErr
  else if frameCsum s.rx ≠ frameChecksum s.rx (frameLen s.rx) then .csumErr
  else if s.isDuplicate then .duplicate
  else .newValid

/-- A new valid frame: a master's wait is over, a slave moves its watermark (43_receive.md R169). -/
def State.acceptFrame (s : State) : State :=
  match s.role with
  | .master => { s with ackPending := false, retry := 0 }
  | .slave => { s with rxSeq := frameSeq s.rx }

/-- What an outcome does beyond its counter: a new frame is accepted, a duplicate is answered again
(43_receive.md R168, R169), an error does nothing. -/
def State.react (s : State) : RxOutcome → State
  | .newValid => s.acceptFrame
  | .duplicate => s.resend
  | .preambleErr => s
  | .startErr => s
  | .destErr => s
  | .srcErr => s
  | .seqErr => s
  | .lenErr => s
  | .csumErr => s

/-- CHECK_RX with INIT_DONE = 1 (43_receive.md R160): count the outcome, act on it, return its code. -/
def State.checkFrame (s : State) : State :=
  ((s.count s.classify.counter).react s.classify).finish (s.classify.code.setWidth 32)

/-- CHECK_RX (43_receive.md R160). No frame content gives a command error (60_exceptions.md R226). -/
def execCheckRx (s : State) : Result :=
  .next (s.whenInitialized State.checkFrame)

end Sys2Proof.Machine
end

