-- ==== Sys2Proof/Machine/Reserved.lean ====
section
/-! DEFINITION. The reserved opcodes (60_exceptions.md R222). -/

namespace Sys2Proof.Machine

/-- A reserved opcode ends with BADOP whatever INIT_DONE holds and whatever the opcode is (60_exceptions.md R222). -/
def execReserved (_op : BitVec 4) (s : State) : Result := .next (s.raise .badop)

end Sys2Proof.Machine
end

