-- ==== Sys2Proof/Machine/Send.lean ====
section
/-! DEFINITION. SEND (42_send.md R140 to R144). RESEND, which CHECK_RX and POLL_ACK share, is in Ops.lean. -/

namespace Sys2Proof.Machine

/-- NEXT_SEQ, the increment that skips zero (42_send.md R144). -/
def nextSeq (q : Half) : Half := if q = 0xFFFF then 1 else q + 1

/-- The sequence number a SEND puts into its frame: the master's next one (42_send.md R141), the slave's
echo of the last accepted request (R142). -/
def State.sendSeq (s : State) : Half :=
  match s.role with
  | .master => nextSeq s.txSeq
  | .slave => s.rxSeq

/-- The destination field of a SEND: the requested one on a master (42_send.md R141), the master's
address on a slave (R142). -/
def State.sendDest (s : State) (dest : Byte) : Byte :=
  match s.role with
  | .master => dest
  | .slave => s.peerAddr

/-- The frame header in TX[0..11] around the payload the host has placed: markers, addresses, sequence
number and length, and the checksum over what then stands in TX[8 .. 12+len) (42_send.md R140). -/
def State.buildFrame (s : State) (dest : Byte) (seq len : Half) : State :=
  let marked := s.writeTx 0 [s.params.preambleByte, s.params.preambleByte, s.params.preambleByte,
    s.params.startByte]
  let addressed := marked.writeTx 6 ([dest, s.localAddr] ++ le16 seq ++ le16 len)
  addressed.writeTx 4 (le16 (frameChecksum addressed.tx len))

/-- What a master remembers of its request (42_send.md R141): the sequence number awaited, the time of
sending and the address asked. -/
def State.awaitReply (s : State) (dest : Byte) : State :=
  { s with txSeq := nextSeq s.txSeq, ackPending := true, tSend := s.now, lastDest := dest }

/-- The registers SEND writes for its role; a slave writes none of them (42_send.md R142). -/
def State.recordSend (s : State) (dest : Byte) : State :=
  match s.role with
  | .master => s.awaitReply dest
  | .slave => s

/-- TX_LEN takes the payload length of the frame just built (10_state.md R35). -/
def State.setTxLen (s : State) (len : Half) : State := { s with txLen := len }

/-- A SEND whose checks have passed (42_send.md R140). -/
def State.sendNew (s : State) (dest : Byte) (len : Half) : State :=
  let built := s.buildFrame (s.sendDest dest) s.sendSeq len
  let sent := ((built.setTxLen len).recordSend dest).count .txNew
  (sent.emit (sent.txSpan len)).finish 0

/-- SEND: NOINIT before BADARG before any effect (60_exceptions.md R225). -/
def execSend (dest : Byte) (len : Half) (s : State) : Result :=
  .next (s.whenInitialized fun s =>
    if legalLen s.params len then s.sendNew dest len else s.raise .badarg)

end Sys2Proof.Machine
end

