-- ==== Sys2Proof/Machine/Timeout.lean ====
section
/-! DEFINITION. POLL_ACK: the acknowledgement timeout and the retry counter (44_timeout.md R190 to R196). -/

namespace Sys2Proof.Machine

/-- The time since the last send, modulo 2^32 (44_timeout.md R190; 92_eei_decisions.md D6). -/
def State.elapsed (s : State) : Word := s.now - s.tSend

/-- The timeout condition; the boundary is `>=` (44_timeout.md R190; 90_conflicts.md C2). -/
def State.timedOut (s : State) : Bool := s.ackPending && decide (s.maxDelay ≤ s.elapsed)

/-- A timeout counts a retry (44_timeout.md R191). -/
def State.countRetry (s : State) : State := { s with retry := s.retry + 1 }

/-- A timeout resend reloads T_SEND only where the parameter says so (44_timeout.md R192). -/
def State.restamp (s : State) : State :=
  if s.params.restampOnResend then { s with tSend := s.now } else s

/-- POLL_ACK with INIT_DONE = 1 (44_timeout.md R190): RESULT takes RETRY after any increment (R193). -/
def State.pollTimeout (s : State) : State :=
  let polled := if s.timedOut then s.countRetry.resend.restamp else s
  polled.finish polled.retry

/-- POLL_ACK (44_timeout.md R190). -/
def execPollAck (s : State) : Result :=
  .next (s.whenInitialized State.pollTimeout)

end Sys2Proof.Machine
end

