-- ==== Sys2Proof/Machine/Dispatch.lean ====
section
/-! DEFINITION. One arm per command (30_encoding.md R97). CMD already holds the word (R90). -/

namespace Sys2Proof.Machine

def exec (i : Instr) (s : State) : Host.Outcome State Fault Refusal :=
  match i with
  | .init role localAddr peerAddr => Sys2Proof.Machine.execInit role localAddr peerAddr s
  | .send dest len => Sys2Proof.Machine.execSend dest len s
  | .checkRx => Sys2Proof.Machine.execCheckRx s
  | .pollAck => Sys2Proof.Machine.execPollAck s
  | .reserved op => Sys2Proof.Machine.execReserved op s

end Sys2Proof.Machine
end

