-- ==== Sys2Proof/Machine/Bus.lean ====
section
/-! DEFINITION. The host interface (20_memory.md R60 to R71): the register map, the buffer windows, and what one
host transaction does. -/

namespace Sys2Proof.Machine

/-- The registers of the register space (20_memory.md R62). -/
inductive Reg where
  | cmd
  | status
  | result
  | delayCfg
  | localAddr
  | peerAddr
  | maxDelay
  | txSeq
  | rxSeq
  | tSend
  | retry
  | lastDest
  | txLen
  | param0
  | param1
  | stat (c : Counter)
deriving DecidableEq, Repr

/-- The offset of a register (20_memory.md R62). -/
def Reg.offset : Reg → Nat
  | .cmd => 0x000
  | .status => 0x004
  | .result => 0x008
  | .delayCfg => 0x00C
  | .localAddr => 0x010
  | .peerAddr => 0x014
  | .maxDelay => 0x018
  | .txSeq => 0x01C
  | .rxSeq => 0x020
  | .tSend => 0x024
  | .retry => 0x028
  | .lastDest => 0x02C
  | .txLen => 0x030
  | .param0 => 0x034
  | .param1 => 0x038
  | .stat c => 0x040 + 4 * c.index

/-- Every counter, by index (10_state.md R39). -/
def allCounters : List Counter :=
  [.txNew, .txResend, .rxNew, .rxDup, .errPreamble, .errStart, .errDest, .errSrc, .errSeq, .errLen,
    .errCsum]

/-- Every register of the map (20_memory.md R62). -/
def allRegs : List Reg :=
  [.cmd, .status, .result, .delayCfg, .localAddr, .peerAddr, .maxDelay, .txSeq, .rxSeq, .tSend, .retry,
    .lastDest, .txLen, .param0, .param1] ++ allCounters.map .stat

/-- The register at an offset; none where the map has none: the reserved word 0x03C and everything
from 0x06C on (20_memory.md R62, R64). -/
def Reg.at? (offset : Nat) : Option Reg := allRegs.find? fun r => r.offset == offset

/-- What a register reads as; bits it does not define are 0 (20_memory.md R62, R64). -/
def State.readReg (s : State) : Reg → Word
  | .cmd => s.cmd
  | .status => s.status
  | .result => s.result
  | .delayCfg => s.delayCfg
  | .localAddr => s.localAddr.setWidth 32
  | .peerAddr => s.peerAddr.setWidth 32
  | .maxDelay => s.maxDelay
  | .txSeq => s.txSeq.setWidth 32
  | .rxSeq => s.rxSeq.setWidth 32
  | .tSend => s.tSend
  | .retry => s.retry
  | .lastDest => s.lastDest.setWidth 32
  | .txLen => s.txLen.setWidth 32
  | .param0 =>
    (s.params.startByte.setWidth 32 <<< 24) ||| (s.params.preambleByte.setWidth 32 <<< 16)
      ||| (BitVec.ofNat 16 s.params.bufCap).setWidth 32
  | .param1 => (flagBit s.params.restampOnResend).setWidth 32
  | .stat c => s.stats.get c

/-- What lies at an address (20_memory.md R61). The register space takes the reserved addresses up to
0x0FFF with it: `Reg.at?` has no register there. -/
inductive Target where
  | registers
  | window
  | reserved
deriving DecidableEq, Repr

/-- The target of an address (20_memory.md R61). -/
def Target.of (a : Nat) : Target :=
  if a < txBase then .registers else if a < 0x3000 then .window else .reserved

/-- Registers take aligned 4-byte accesses only (20_memory.md R67). -/
def regAccess (a width : Nat) : Bool := width == 4 && a % 4 == 0

/-- Windows take aligned accesses of 1, 2 or 4 bytes (20_memory.md R67). -/
def windowAccess (a width : Nat) : Bool :=
  (width == 1 || width == 2 || width == 4) && a % width == 0

/-- A window address holds a buffer byte: its offset is below BUF_CAP (20_memory.md R61, R67). -/
def inBuffer (p : Params) (a : Nat) : Bool := decide (a % 0x1000 < p.bufCap)

/-- A byte of a window: 0 at or past BUF_CAP (20_memory.md R67). -/
def State.windowByte (s : State) (a : Nat) : Byte := if inBuffer s.params a then s.mem.read a else 0

/-- A byte stored through a window: ignored at or past BUF_CAP (20_memory.md R67). -/
def State.storeByte (s : State) (a : Nat) (v : Byte) : State :=
  if inBuffer s.params a then { s with mem := s.mem.write a v } else s

/-- Consecutive bytes stored through a window (20_memory.md R66). -/
def State.storeBytes (s : State) (a : Nat) : List Byte → State
  | [] => s
  | b :: bs => (s.storeByte a b).storeBytes (a + 1) bs

/-- `MemRead(addr, width)` (20_memory.md R62, R66, R67): 0 wherever the map or the access rules give nothing. -/
def State.busRead (s : State) (addr : BitVec 16) (width : Nat) : Word :=
  let a := addr.toNat
  match Target.of a with
  | .registers => if regAccess a width then ((Reg.at? a).map s.readReg).getD 0 else 0
  | .window => if windowAccess a width then wordOfLowBytes (slice s.windowByte a width) else 0
  | .reserved => 0

/-- The command a word written to CMD performs: the word is stored first (30_encoding.md R90). -/
def runCommand (w : Word) (s : State) : Result := exec (decode w) (s.storeCmd w)

/-- A supported write to a register: CMD starts a command, DELAY_CFG takes the value, every other
register is read-only and ignores it (20_memory.md R62, R64, R68). -/
def writeReg (r : Reg) (v : Word) (s : State) : Result :=
  match r with
  | .cmd => runCommand v s
  | .delayCfg => .next { s with delayCfg := v }
  | _ => .next s

/-- `MemWrite(addr, width, v)` (20_memory.md R62, R64, R66 to R68): ignored wherever the map or the access
rules give nothing to write. -/
def busWrite (addr : BitVec 16) (width : Nat) (v : Word) (s : State) : Result :=
  let a := addr.toNat
  match Target.of a with
  | .registers =>
    if regAccess a width then
      match Reg.at? a with
      | some r => writeReg r v s
      | none => .next s
    else .next s
  | .window => .next (if windowAccess a width then s.storeBytes a (lowBytes v width) else s)
  | .reserved => .next s

/-- One host transaction, whole and atomic (20_memory.md R69, R70). -/
def serve (op : HostOp) (s : State) : Result :=
  match op with
  | .read addr width => .next (s.reply (s.busRead addr width))
  | .write addr width v => busWrite addr width v s
  | .powerOn => .next s.powerOnReset

/-- The host's next transaction taken off its list, with the time input at the transaction's level
(20_memory.md R71, R77). -/
def State.accept (s : State) (t : Transaction) (rest : List Transaction) : State :=
  { s with pending := rest, now := t.now }

/-- The next host transaction in the host's order (20_memory.md R71); with none to come the engine is
idle and keeps all state (60_exceptions.md R236). -/
def advance (s : State) : Result :=
  match s.pending with
  | [] => .next s
  | t :: rest => serve t.op (s.accept t rest)

/-- The host's next transaction is a write of a command word to CMD, at the present level of the time input. -/
def State.withCommand (s : State) (w : Word) : State :=
  { s with pending := { op := .write 0x0000 4 w, now := s.now } :: s.pending }

end Sys2Proof.Machine
end

