-- ==== Sys2Proof/Machine/Step.lean ====
section
/-! DEFINITION. One step of the machine: one host transaction (20_memory.md R70, R71). The engine fetches no
instructions (10_state.md R21); the host brings each command word in a write to CMD. -/

namespace Sys2Proof.Machine

/-- One step: the host's next transaction, or nothing where it has none. -/
def step (s : State) : Host.Outcome State Fault Refusal := advance s

/-- `s` with the host about to write the command word of `nbits` bits to CMD (log entry 1). -/
def State.withFetchWord (s : State) (nbits w : Nat) : State :=
  s.withCommand (Sys2Proof.tableWord nbits w)

end Sys2Proof.Machine
end

