-- ==== Sys2Proof/Safety.lean ====
section
/-! DEFINITION. What claims about the engine are stated in: which command a step performs, what a frame
looks like, what a received frame must satisfy, and what holds of a state in every run. None of the
machine's own meanings is used where the spec's words can be written out instead. -/

namespace Sys2Proof.Machine

/-! ### What the next step does -/

/-- The command the next step performs: only an aligned 4-byte write to CMD starts one (20_memory.md R67, R68). -/
def State.nextCommand (s : State) : Option Instr :=
  match s.pending with
  | { op := .write addr width v, now := _ } :: _ =>
    if addr = 0 ∧ width = 4 then some (decode v) else none
  | _ => none

/-- The next step is a power-on reset. -/
def State.nextIsPowerOn (s : State) : Bool :=
  match s.pending with
  | { op := .powerOn, now := _ } :: _ => true
  | _ => false

/-- The next step performs INIT. -/
def State.nextIsInit (s : State) : Bool :=
  match s.nextCommand with
  | some (.init _ _ _) => true
  | _ => false

/-- The next step performs SEND. -/
def State.nextIsSend (s : State) : Bool :=
  match s.nextCommand with
  | some (.send _ _) => true
  | _ => false

/-- The next step performs CHECK_RX. -/
def State.nextIsCheckRx (s : State) : Bool := s.nextCommand == some .checkRx

/-- The next step performs POLL_ACK. -/
def State.nextIsPollAck (s : State) : Bool := s.nextCommand == some .pollAck

/-- The engine runs nothing but resets in the step: INIT or power-on (70_reset_and_hazards.md R253). -/
def State.nextRestarts (s : State) : Bool := s.nextIsInit || s.nextIsPowerOn

/-- A host write to DELAY_CFG takes place: an aligned 4-byte write to 0x00C (10_state.md R27; 20_memory.md R62, R67). -/
def State.nextIsDelayWrite (s : State) : Bool :=
  match s.pending with
  | { op := .write addr width _, now := _ } :: _ => decide (addr = 0x000C ∧ width = 4)
  | _ => false

/-- A host access that changes a buffer byte takes place: an aligned 1-, 2- or 4-byte write to a window. -/
def State.nextIsWindowWrite (s : State) : Bool :=
  match s.pending with
  | { op := .write addr width _, now := _ } :: _ =>
    decide (0x1000 ≤ addr.toNat ∧ addr.toNat < 0x3000) && windowAccess addr.toNat width
  | _ => false

/-! ### Words (40_checksum.md R110, R112) -/

/-- The 16-bit words that the checksum of a byte list sums: the low byte of each comes first, and an odd byte at
the end is the low byte of the last word. -/
def wordsOf : List Byte → List Half
  | [] => []
  | [b] => [(0 : Byte) ++ b]
  | lo :: hi :: rest => (hi ++ lo) :: wordsOf rest

/-! ### Frames (30_encoding.md R99) -/

/-- The bytes of a frame, written out from the table of 30_encoding.md R99. -/
def frameBytes (p : Params) (dest src : Byte) (seq len : Half) (payload : List Byte) : List Byte :=
  [p.preambleByte, p.preambleByte, p.preambleByte, p.startByte]
    ++ le16 (csum (le16 seq ++ le16 len ++ payload))
    ++ [dest, src] ++ le16 seq ++ le16 len ++ payload

/-- The buffer starts with the bytes of a list. -/
def Holds (buf : Nat → Byte) (bs : List Byte) : Prop := ∀ i, ∀ h : i < bs.length, buf i = bs[i]

/-! ### What CHECK_RX asks of the frame in RX, one predicate a step (43_receive.md R161 to R168) -/

/-- Step 1 (43_receive.md R161). -/
def State.rxPreamble (s : State) : Prop :=
  s.rx 0 = s.params.preambleByte ∧ s.rx 1 = s.params.preambleByte ∧ s.rx 2 = s.params.preambleByte

/-- Step 2 (43_receive.md R162). -/
def State.rxStart (s : State) : Prop := s.rx 3 = s.params.startByte

/-- Step 3 (43_receive.md R163). -/
def State.rxDest (s : State) : Prop := s.rx 6 = s.localAddr

/-- Step 4, the source (43_receive.md R164 (a), R165). -/
def State.rxSrc (s : State) : Prop :=
  (s.role = .master → s.rx 7 = s.lastDest) ∧ (s.role = .slave → s.rx 7 = s.peerAddr)

/-- The sequence number the frame in RX carries (30_encoding.md R99). -/
def State.rxSeqField (s : State) : Half := s.rx 9 ++ s.rx 8

/-- The length the frame in RX carries (30_encoding.md R99). -/
def State.rxLenField (s : State) : Half := s.rx 11 ++ s.rx 10

/-- The checksum the frame in RX carries (30_encoding.md R99). -/
def State.rxCsumField (s : State) : Half := s.rx 5 ++ s.rx 4

/-- Step 4, the master's sequence check (43_receive.md R164 (b)); a slave makes none there. -/
def State.rxInSequence (s : State) : Prop := s.role = .master → s.rxSeqField = s.txSeq

/-- Step 5 (43_receive.md R166). -/
def State.rxLen (s : State) : Prop :=
  1 ≤ s.rxLenField.toNat ∧ s.rxLenField.toNat ≤ s.params.maxLen

/-- Step 6 (43_receive.md R167): the stored checksum is the one of RX[8 .. 12+len). -/
def State.rxCsum (s : State) : Prop :=
  s.rxCsumField = csum (slice s.rx 8 (4 + s.rxLenField.toNat))

/-- Steps 1 to 3 pass. -/
def State.rxFramed (s : State) : Prop := s.rxPreamble ∧ s.rxStart ∧ s.rxDest

/-- Steps 1 to 6 pass. -/
def State.rxValid (s : State) : Prop :=
  s.rxFramed ∧ s.rxSrc ∧ s.rxInSequence ∧ s.rxLen ∧ s.rxCsum

/-- Step 7's condition (43_receive.md R168). -/
def State.rxRepeats (s : State) : Prop := s.role = .slave ∧ s.rxSeqField = s.rxSeq

/-- What a CHECK_RX with an error outcome leaves (43_receive.md R160, R170): one error counter up by one, the
code in RESULT, CMD_ERR OK, and nothing else. -/
def State.rejected (s : State) (counter : Counter) (code : Nat) : State :=
  { s with stats := s.stats.bump counter, result := BitVec.ofNat 32 code, cmdErr := .ok }

/-- `TX[0 .. 12 + TX_LEN)`, what a RESEND transmits (42_send.md R145). -/
def State.sentBytes (s : State) : List Byte := slice s.tx 0 (12 + s.txLen.toNat)

/-! ### What holds of a state in every run -/

/-- The buffers keep their canonical form, list only addresses of buffer bytes (20_memory.md R61), and are
unspecified exactly until the first INIT (70_reset_and_hazards.md R251, R253). -/
structure State.MemOk (s : State) : Prop where
  canonical : s.mem.wf = true
  inBuffers : ∀ c ∈ s.mem.cells, txBase ≤ c.1 ∧ c.1 < 0x3000 ∧ c.1 % 0x1000 < s.params.bufCap
  filled : s.initDone = true ↔ s.mem.fill = .zero

/-- The role-use invariant (10_state.md R44). -/
structure State.RoleUse (s : State) : Prop where
  slave : s.role = .slave →
    s.ackPending = false ∧ s.tSend = 0 ∧ s.retry = 0 ∧ s.lastDest = 0 ∧ s.txSeq = 0
  master : s.role = .master → s.rxSeq = 0

/-- The counter identities that need no history (45_statistics.md R203 (3), (5)). -/
structure State.CountersOk (s : State) : Prop where
  slave : s.role = .slave → s.stats.txResend = s.stats.rxDup ∧ s.stats.errSeq = 0
  master : s.role = .master → s.stats.rxDup = 0

/-- What is remembered of the last frame fits the buffer, and a wait is for a frame that was sent (42_send.md
R145, R146; 10_state.md R29, R31). -/
structure State.SentOk (s : State) : Prop where
  fits : s.txLen.toNat ≤ s.params.maxLen
  waiting : s.ackPending = true → s.txSeq ≠ 0 ∧ 1 ≤ s.txLen.toNat

/-- Before the first INIT every protocol register and counter has its reset value (70_reset_and_hazards.md
R250; 60_exceptions.md R223); only CMD, DELAY_CFG and CMD_ERR can have changed. -/
def State.BootOk (s : State) : Prop :=
  s.initDone = false →
    s.role = .master ∧ s.ackPending = false ∧ s.result = 0 ∧ s.localAddr = 0 ∧ s.peerAddr = 0 ∧
    s.maxDelay = 0 ∧ s.txSeq = 0 ∧ s.rxSeq = 0 ∧ s.tSend = 0 ∧ s.retry = 0 ∧ s.lastDest = 0 ∧
    s.txLen = 0 ∧ s.stats = {}

/-- TX_SEQ after `n` successful master SENDs since INIT (45_statistics.md R203 (4)). -/
def seqAfter (n : Nat) : Half := if n = 0 then 0 else BitVec.ofNat 16 (1 + (n - 1) % 65535)

/-- `n` SENDs have succeeded on this master since INIT, as its registers tell (45_statistics.md R203 (2), (4)). -/
def State.SendsSoFar (s : State) (n : Nat) : Prop :=
  s.role = .master ∧ s.stats.txNew = BitVec.ofNat 32 n ∧ s.txSeq = seqAfter n

end Sys2Proof.Machine
end

