-- ==== Sys2Proof/Certificates/Slice0/Obligations.lean ====
section
/-! DEFINITION. The statements about the engine. Each docstring names the rule of spec/ it formalises. A frame is
stated by equating whole states up to the buffers (`{ t with mem := s.mem }`) and by reading every
byte of the buffers separately. -/

open Sys2Proof Sys2Proof.Machine

/-! ### Decoding and encoding (30_encoding.md) -/

/-- Words written out from R91 to R93 and R102 decode to the commands they stand for. -/
def Obligations.SpecWordsDecode : Prop :=
  decode 0x00006401 = .init .master 100 0 ∧
  decode 0x00646611 = .init .slave 102 100 ∧
  decode 0x12345671 = .init .slave 0x56 0x34 ∧
  decode 0x00056602 = .send 102 5 ∧
  decode 0xFFFF00F2 = .send 0 0xFFFF ∧
  decode 0xFFFFFFF3 = .checkRx ∧
  decode 0x00000004 = .pollAck ∧
  decode 0x00000000 = .reserved 0 ∧
  decode 0x0000000F = .reserved 15

/-- Every well-formed instruction is what its own word decodes to, and every word decodes to a
well-formed instruction (R91 to R97). -/
def Obligations.DecodeOfEncodeIsTheInstruction : Prop :=
  (∀ i : Instr, i.wf = true → decode (encode i) = i) ∧ (∀ w : Word, (decode w).wf = true)

/-- R95: two words decode to the same command exactly when they agree on the bits R91 does not mark
ignored; CMD keeps the ignored bits; a reserved opcode ends with BADOP and no other effect. -/
def Obligations.IgnoredBitsDoNotAffectTheCommand : Prop :=
  (∀ w w' : Word, decode w = decode w' ↔
    w.extractLsb' 0 4 = w'.extractLsb' 0 4 ∧
    (w.extractLsb' 0 4 = 0x1 →
      w.extractLsb' 4 1 = w'.extractLsb' 4 1 ∧ w.extractLsb' 8 16 = w'.extractLsb' 8 16) ∧
    (w.extractLsb' 0 4 = 0x2 → w.extractLsb' 8 24 = w'.extractLsb' 8 24)) ∧
  (∀ (w : Word) (s t : State), runCommand w s = .next t → t.busRead 0x0000 4 = w) ∧
  (∀ (w : Word) (s : State),
    w.extractLsb' 0 4 ∉ [(0x1 : BitVec 4), 0x2, 0x3, 0x4] →
    runCommand w s = .next { s with cmd := w, cmdErr := .badop })

/-! ### Steps and commands -/

/-- R38: an aligned 4-byte write to CMD stores the word and then performs the command it encodes, and a
read of CMD returns the last word written (until a power-on reset). That the host's transactions wait in
`pending`, each with its `now`, is the model's form of them (log entries 1 and 2). -/
def Obligations.StepRunsTheWordWrittenToCmd : Prop :=
  ∀ (s : State) (w now : Word) (rest : List Transaction),
    s.pending = { op := .write 0x0000 4 w, now := now } :: rest →
    step s = exec (decode w) { s with pending := rest, now := now, cmd := w } ∧
    ∀ t, step s = .next t → t.busRead 0x0000 4 = w ∧
      ∀ u, step t = .next u → t.nextCommand = none → t.nextIsPowerOn = false →
        u.busRead 0x0000 4 = w

/-- Every step answers a next state: the engine has no trap and no stop state (60_exceptions.md R227, R229, R236),
and the host's transactions are taken in its order, one a step (20_memory.md R71). With none to come
nothing changes. -/
def Obligations.StepAlwaysAnswersNext : Prop :=
  ∀ s : State, ∃ t, step s = .next t ∧ t.pending = s.pending.tail ∧ (s.pending = [] → t = s)

/-! ### Command errors (60_exceptions.md) -/

/-- The reserved row ends with BADOP, whatever INIT_DONE holds (R222). That an ill-formed `reserved` term, with an
opcode 1 to 4, does so too is the model's choice (log entry 14); no word decodes to one. -/
def Obligations.ReservedOpcodeEndsBadop : Prop :=
  (∀ (op : BitVec 4) (s : State), exec (.reserved op) s = .next { s with cmdErr := .badop }) ∧
  (∀ w : Word, w.extractLsb' 0 4 ∉ [(0x1 : BitVec 4), 0x2, 0x3, 0x4] →
    decode w = .reserved (w.extractLsb' 0 4))

/-- R223: SEND, CHECK_RX and POLL_ACK while INIT_DONE = 0 end with NOINIT, and after an INIT only a power-on
reset makes INIT_DONE 0 again. -/
def Obligations.UninitializedCommandsEndNoinit : Prop :=
  (∀ s : State, s.initDone = false →
    (∀ dest len, exec (.send dest len) s = .next { s with cmdErr := .noinit }) ∧
    exec .checkRx s = .next { s with cmdErr := .noinit } ∧
    exec .pollAck s = .next { s with cmdErr := .noinit }) ∧
  (∀ s t : State, step s = .next t → s.initDone = true → t.initDone = false →
    s.nextIsPowerOn = true) ∧
  (∀ (role : Role) (localAddr peerAddr : Byte) (s t : State),
    exec (.init role localAddr peerAddr) s = .next t → t.initDone = true)

/-- R224: a SEND whose length is outside 1 to MAX ends with BADARG, and no other command does. -/
def Obligations.SendOfIllegalLengthEndsBadarg : Prop :=
  (∀ (s : State) (dest : Byte) (len : Half), s.initDone = true →
    (len = 0 ∨ s.params.maxLen < len.toNat) →
    exec (.send dest len) s = .next { s with cmdErr := .badarg }) ∧
  (∀ (i : Instr) (s t : State), exec i s = .next t → t.cmdErr = .badarg →
    ∃ dest len, i = .send dest len)

/-- R225: the first check that applies decides the code, in the order BADOP, NOINIT, BADARG; INIT is exempt
from the last two; a command that passes them all leaves OK. -/
def Obligations.CommandErrorPriority : Prop :=
  ∀ (w : Word) (s t : State), runCommand w s = .next t →
    t.cmdErr =
      if w.extractLsb' 0 4 ∉ [(0x1 : BitVec 4), 0x2, 0x3, 0x4] then .badop
      else if w.extractLsb' 0 4 = 0x1 then .ok
      else if s.initDone = false then .noinit
      else if w.extractLsb' 0 4 = 0x2 ∧
          ((w.extractLsb' 16 16).toNat < 1 ∨ s.params.maxLen < (w.extractLsb' 16 16).toNat) then .badarg
      else .ok

/-- R221: a command error changes CMD_ERR and nothing else, and does not use `now`. -/
def Obligations.CommandErrorChangesOnlyCmdErr : Prop :=
  ∀ (i : Instr) (s t : State), exec i s = .next t → t.cmdErr ≠ .ok →
    t = { s with cmdErr := t.cmdErr } ∧
    ∀ n, exec i { s with now := n } = .next { s with now := n, cmdErr := t.cmdErr }

/-! ### INIT (41_init.md) -/

/-- R130: a word with opcode 1 is INIT with its three fields; INIT loads the configuration, clears every protocol
register, counter and buffer byte, emits nothing, and leaves CMD and DELAY_CFG; it never fails. -/
def Obligations.InitLoadsConfigurationAndClearsAll : Prop :=
  (∀ w : Word, w.extractLsb' 0 4 = 0x1 →
    decode w = .init (if w.extractLsb' 4 1 = 1 then .slave else .master)
      (w.extractLsb' 8 8) (w.extractLsb' 16 8)) ∧
  ∀ (role : Role) (localAddr peerAddr : Byte) (s : State),
    ∃ t, exec (.init role localAddr peerAddr) s = .next t ∧
      { t with mem := s.mem } =
        { s with
          role := role, localAddr := localAddr, peerAddr := peerAddr, maxDelay := s.delayCfg,
          txSeq := 0, rxSeq := 0, ackPending := false, tSend := 0, retry := 0, lastDest := 0,
          txLen := 0, stats := {}, initDone := true, result := 0, cmdErr := .ok } ∧
      ∀ i, i < s.params.bufCap → t.tx i = 0 ∧ t.rx i = 0

/-- R27: a write to DELAY_CFG changes that register alone; MAX_DELAY follows it at the next INIT only, and no other
command reads it. -/
def Obligations.DelayCfgTakesEffectAtInit : Prop :=
  (∀ (s : State) (v : Word), busWrite 0x000C 4 v s = .next { s with delayCfg := v }) ∧
  (∀ s : State, s.busRead 0x000C 4 = s.delayCfg) ∧
  (∀ (role : Role) (localAddr peerAddr : Byte) (s t : State),
    exec (.init role localAddr peerAddr) s = .next t → t.maxDelay = s.delayCfg) ∧
  (∀ s t : State, step s = .next t → t.maxDelay ≠ s.maxDelay → s.nextRestarts = true) ∧
  (∀ (i : Instr) (s t : State) (v : Word), (∀ role localAddr peerAddr, i ≠ .init role localAddr peerAddr) →
    exec i s = .next t → exec i { s with delayCfg := v } = .next { t with delayCfg := v })

/-! ### SEND (42_send.md) -/

/-- R141: a master's SEND takes the next sequence number, builds the frame of R99 around the payload, and
waits: what it writes, what it emits, and that nothing else changes. -/
def Obligations.MasterSendBuildsFrameAndWaits : Prop :=
  ∀ (dest : Byte) (len : Half) (s : State),
    s.initDone = true → s.role = .master → 1 ≤ len.toNat → len.toNat ≤ s.params.maxLen →
    ∃ t, exec (.send dest len) s = .next t ∧
      { t with mem := s.mem } =
        { s with
          txSeq := nextSeq s.txSeq, ackPending := true, tSend := s.now, lastDest := dest,
          txLen := len, stats := { s.stats with txNew := s.stats.txNew + 1 },
          spans := s.spans ++ [frameBytes s.params dest s.localAddr (nextSeq s.txSeq) len
            (slice s.tx 12 len.toNat)],
          result := 0, cmdErr := .ok } ∧
      Holds t.tx (frameBytes s.params dest s.localAddr (nextSeq s.txSeq) len
        (slice s.tx 12 len.toNat)) ∧
      ∀ a, (a < txBase ∨ txBase + 12 ≤ a) → t.mem.read a = s.mem.read a

/-- R142: a slave's SEND echoes RX_SEQ to its master, ignores DEST, writes no master-only register and does not
sample `now`. -/
def Obligations.SlaveSendEchoesTheWatermark : Prop :=
  ∀ (dest : Byte) (len : Half) (s : State),
    s.initDone = true → s.role = .slave → 1 ≤ len.toNat → len.toNat ≤ s.params.maxLen →
    ∃ t, exec (.send dest len) s = .next t ∧
      { t with mem := s.mem } =
        { s with
          txLen := len, stats := { s.stats with txNew := s.stats.txNew + 1 },
          spans := s.spans ++ [frameBytes s.params s.peerAddr s.localAddr s.rxSeq len
            (slice s.tx 12 len.toNat)],
          result := 0, cmdErr := .ok } ∧
      Holds t.tx (frameBytes s.params s.peerAddr s.localAddr s.rxSeq len
        (slice s.tx 12 len.toNat)) ∧
      (∀ a, (a < txBase ∨ txBase + 12 ≤ a) → t.mem.read a = s.mem.read a) ∧
      ∀ n, exec (.send dest len) { s with now := n } = .next { t with now := n }

/-- R144: NEXT_SEQ steps by one and skips zero: over the nonzero values it is one cycle of period 65535. -/
def Obligations.NextSeqIsACycleThatSkipsZero : Prop :=
  nextSeq 0xFFFF = 1 ∧ (∀ q : Half, q ≠ 0xFFFF → nextSeq q = q + 1) ∧ nextSeq 0 = 1 ∧
  (∀ q : Half, nextSeq q ≠ 0) ∧
  (∀ (q : Half) (k : Nat), q ≠ 0 → (nextSeq^[k] q = q ↔ 65535 ∣ k))

/-- R148: of two consecutive successful master SENDs with no INIT between them (anything else may have
happened in between), the second frame carries NEXT_SEQ of the first frame's number, and never 0. -/
def Obligations.ConsecutiveSendsCarryConsecutiveNumbers : Prop :=
  ∀ (dest dest' : Byte) (len len' : Half) (s t t' u : State),
    s.role = .master → exec (.send dest len) s = .next t → t.cmdErr = .ok →
    t'.txSeq = t.txSeq → t'.role = .master →
    exec (.send dest' len') t' = .next u → u.cmdErr = .ok →
    u.tx 9 ++ u.tx 8 = nextSeq (t.tx 9 ++ t.tx 8) ∧ u.tx 9 ++ u.tx 8 ≠ (0 : Half)

/-- R143: a master's SEND while a reply is pending runs as any other (a new number, T_SEND and LAST_DEST
overwritten, RETRY kept), and a late reply to the abandoned request ends with SEQ_ERR in every state that still
has the configuration, number and destination this SEND left, whatever else the host did in between. -/
def Obligations.AbandonedRequestsLateReplyIsSeqErr : Prop :=
  ∀ (dest : Byte) (len : Half) (s t r : State),
    s.initDone = true → s.role = .master → s.ackPending = true →
    exec (.send dest len) s = .next t → t.cmdErr = .ok →
    t.txSeq = nextSeq s.txSeq ∧ t.tSend = s.now ∧ t.lastDest = dest ∧ t.retry = s.retry ∧
    t.ackPending = true ∧
    (r.initDone = t.initDone → r.role = t.role → r.params = t.params → r.localAddr = t.localAddr →
      r.txSeq = t.txSeq → r.lastDest = t.lastDest → r.rxFramed → r.rxSrc → r.rxSeqField = s.txSeq →
      exec .checkRx r = .next (r.rejected .errSeq 6))

/-- R118: a frame that SEND builds never has checksum 0xFFFF, and a received frame that does gives
CSUM_ERR once the length check has passed. -/
def Obligations.ChecksumIsNeverAllOnes : Prop :=
  (∀ (dest : Byte) (len : Half) (s t : State),
    exec (.send dest len) s = .next t → t.cmdErr = .ok →
    t.tx 5 ++ t.tx 4 ≠ (0xFFFF : Half)) ∧
  (∀ s : State, s.initDone = true → s.rxFramed → s.rxSrc → s.rxInSequence → s.rxLen →
    s.rxCsumField = 0xFFFF → exec .checkRx s = .next (s.rejected .errCsum 8))

/-! ### The checksum unit (40_checksum.md) -/

/-- R111: the closed form of CSUM, and when it is 0xFFFF. -/
def Obligations.CsumClosedForm : Prop :=
  ∀ bs : List Byte,
    (csum bs).toNat =
      0xFFFF - (if sumWords bs = 0 then 0 else 1 + (sumWords bs - 1) % 0xFFFF) ∧
    (csum bs = 0xFFFF ↔ ∀ b ∈ bs, b = 0)

/-- R117: the words and their checksum add up to one's-complement zero: the fold of the whole is 0xFFFF. -/
def Obligations.SumPlusChecksumFoldsToAllOnes : Prop :=
  ∀ bs : List Byte,
    1 + (sumWords bs + (csum bs).toNat - 1) % 0xFFFF = 0xFFFF ∧
    sumWords bs + (csum bs).toNat ≠ 0

/-- The 16-bit accumulator with end-around carry of R113. -/
def Sys2Proof.Machine.endAroundSum : Nat → List Byte → Nat
  | acc, [] => acc
  | acc, [b] => if acc + b.toNat > 0xFFFF then acc + b.toNat - 0xFFFF else acc + b.toNat
  | acc, lo :: hi :: rest =>
    let sum := acc + (half lo hi).toNat
    endAroundSum (if sum > 0xFFFF then sum - 0xFFFF else sum) rest

/-- R113: a 32-bit accumulator folded twice at the end, and a 16-bit accumulator with end-around carry,
both give the checksum; for n <= 4100 the first never overflows. -/
def Obligations.OtherAccumulatorsConform : Prop :=
  (∀ bs : List Byte, (csum bs).toNat = 0xFFFF - endAroundSum 0 bs) ∧
  (∀ bs : List Byte, bs.length ≤ 4100 →
    sumWords bs < 2 ^ 32 ∧
    (csum bs).toNat = 0xFFFF -
      (let once := sumWords bs % 0x10000 + sumWords bs / 0x10000
       once % 0x10000 + once / 0x10000))

/-- R119 on byte sequences: flipping one bit of the summed bytes changes the checksum. -/
def Obligations.OneFlippedBitChangesTheChecksum : Prop :=
  ∀ (bs : List Byte) (i k : Nat) (h : i < bs.length), k < 8 →
    csum (bs.set i (bs[i] ^^^ BitVec.twoPow 8 k)) ≠ csum bs

/-- R120: what the checksum does not see: the order of the words, a 0x0000 word against 0xFFFF while another
word is not zero, and any byte of a frame before offset 8. The words of a range are those of R110, an odd byte
at the end being the last word (R112), so the range may have either parity. -/
def Obligations.ChecksumBlindSpots : Prop :=
  (∀ bs bs' : List Byte, (wordsOf bs).Perm (wordsOf bs') → csum bs = csum bs') ∧
  (∀ (ws ws' : List Half) (last : List Byte), last.length ≤ 1 → ws.Perm ws' →
    csum (ws.flatMap le16 ++ last) = csum (ws'.flatMap le16 ++ last)) ∧
  (∀ (pre post : List Half) (last : List Byte), last.length ≤ 1 →
    ((∃ w ∈ pre ++ post, w ≠ 0) ∨ ∃ b ∈ last, b ≠ 0) →
    csum ((pre ++ 0x0000 :: post).flatMap le16 ++ last) =
      csum ((pre ++ 0xFFFF :: post).flatMap le16 ++ last)) ∧
  (∀ (buf buf' : Nat → Byte) (len : Half), (∀ i, 8 ≤ i → buf i = buf' i) →
    frameChecksum buf len = frameChecksum buf' len)

/-! ### CHECK_RX (43_receive.md) -/

/-- R161, R162, R163: the framing checks, in order; the first that fails decides the outcome, counts it, and
nothing else changes. -/
def Obligations.CheckRxRejectsBadFraming : Prop :=
  ∀ s : State, s.initDone = true →
    (¬s.rxPreamble → exec .checkRx s = .next (s.rejected .errPreamble 2)) ∧
    (s.rxPreamble → ¬s.rxStart → exec .checkRx s = .next (s.rejected .errStart 3)) ∧
    (s.rxPreamble → s.rxStart → ¬s.rxDest → exec .checkRx s = .next (s.rejected .errDest 4))

/-- R164, R165: the peer check: a master asks for LAST_DEST and then TX_SEQ, a slave for PEER_ADDR alone. -/
def Obligations.CheckRxRejectsWrongPeer : Prop :=
  ∀ s : State, s.initDone = true → s.rxFramed →
    (s.role = .master → s.rx 7 ≠ s.lastDest → exec .checkRx s = .next (s.rejected .errSrc 5)) ∧
    (s.role = .master → s.rx 7 = s.lastDest → s.rxSeqField ≠ s.txSeq →
      exec .checkRx s = .next (s.rejected .errSeq 6)) ∧
    (s.role = .slave → s.rx 7 ≠ s.peerAddr → exec .checkRx s = .next (s.rejected .errSrc 5)) ∧
    (s.role = .slave → ∀ t, exec .checkRx s = .next t → t.result ≠ 6)

/-- R166, R167: the length check and then the checksum check. -/
def Obligations.CheckRxRejectsBadContent : Prop :=
  ∀ s : State, s.initDone = true → s.rxFramed → s.rxSrc → s.rxInSequence →
    (s.rxLenField.toNat < 1 ∨ s.params.maxLen < s.rxLenField.toNat →
      exec .checkRx s = .next (s.rejected .errLen 7)) ∧
    (1 ≤ s.rxLenField.toNat → s.rxLenField.toNat ≤ s.params.maxLen →
      s.rxCsumField ≠ csum (slice s.rx 8 (4 + s.rxLenField.toNat)) →
      exec .checkRx s = .next (s.rejected .errCsum 8))

/-- R168: a slave answers a repeated request by sending its last reply again and moves nothing else; a
master never does. -/
def Obligations.SlaveDuplicateResendsTheReply : Prop :=
  (∀ s : State, s.initDone = true → s.rxValid → s.role = .slave → s.rxSeqField = s.rxSeq →
    exec .checkRx s = .next
      { s with
        stats := { s.stats with rxDup := s.stats.rxDup + 1, txResend := s.stats.txResend + 1 },
        spans := s.spans ++ [s.sentBytes], result := 1, cmdErr := .ok }) ∧
  (∀ s t : State, s.initDone = true → s.role = .master → exec .checkRx s = .next t → t.result ≠ 1)

/-- R169: every other frame is new: a master stops waiting, a slave moves its watermark. -/
def Obligations.NewValidFrameIsAccepted : Prop :=
  ∀ s : State, s.initDone = true → s.rxValid →
    (s.role = .master → exec .checkRx s = .next
      { s with
        ackPending := false, retry := 0, stats := { s.stats with rxNew := s.stats.rxNew + 1 },
        result := 0, cmdErr := .ok }) ∧
    (s.role = .slave → s.rxSeqField ≠ s.rxSeq → exec .checkRx s = .next
      { s with
        rxSeq := s.rxSeqField, stats := { s.stats with rxNew := s.stats.rxNew + 1 },
        result := 0, cmdErr := .ok })

/-- R170: a CHECK_RX that is no command error counts exactly one receive outcome, the one it returns;
STAT_TX_RESEND is the only other counter it can change, on DUPLICATE. -/
def Obligations.CheckRxCountsExactlyOneOutcome : Prop :=
  ∀ s t : State, exec .checkRx s = .next t → t.cmdErr = .ok →
    ∃ o : RxOutcome, t.result = o.code.setWidth 32 ∧
      ∀ c : Counter, t.stats.get c =
        if c = o.counter ∨ (o = .duplicate ∧ c = .txResend) then s.stats.get c + 1
        else s.stats.get c

/-- R171: the outcomes each role can return are all but DUPLICATE on a master and all but SEQ_ERR on a slave:
each of them from a state that meets the invariants, the excepted one from no state at all. -/
def Obligations.OutcomesReachablePerRole : Prop :=
  (∀ o : RxOutcome, o ≠ .duplicate →
    ∃ s t : State, s.MemOk ∧ s.RoleUse ∧ s.SentOk ∧ s.CountersOk ∧ s.role = .master ∧
      exec .checkRx s = .next t ∧ t.cmdErr = .ok ∧ t.result = o.code.setWidth 32) ∧
  (∀ o : RxOutcome, o ≠ .seqErr →
    ∃ s t : State, s.MemOk ∧ s.RoleUse ∧ s.SentOk ∧ s.CountersOk ∧ s.role = .slave ∧
      exec .checkRx s = .next t ∧ t.cmdErr = .ok ∧ t.result = o.code.setWidth 32) ∧
  (∀ s t : State, exec .checkRx s = .next t → t.cmdErr = .ok →
    (s.role = .master → t.result ≠ RxOutcome.duplicate.code.setWidth 32) ∧
    (s.role = .slave → t.result ≠ RxOutcome.seqErr.code.setWidth 32))

/-- R172: CHECK_RX never writes a buffer, and a slave that has accepted a frame finds it a duplicate when it
looks again: one resend, the watermark unmoved. -/
def Obligations.SecondCheckRxIsDuplicate : Prop :=
  ∀ s t : State, exec .checkRx s = .next t →
    t.mem = s.mem ∧
    (s.initDone = true → s.role = .slave → t.result = 0 →
      t.rxSeq = s.rxSeqField ∧
      ∃ u, exec .checkRx t = .next u ∧ u.result = 1 ∧ u.rxSeq = t.rxSeq ∧
        u.spans = t.spans ++ [t.sentBytes] ∧ u.stats.rxDup = t.stats.rxDup + 1 ∧ u.mem = s.mem)

/-- R173: a master accepts a repeated reply again, and whether one is pending makes no difference to what
CHECK_RX returns; before any SEND it accepts a frame with source 0 and sequence 0. -/
def Obligations.MasterAcceptsARepeatedReply : Prop :=
  (∀ s : State, s.initDone = true → s.role = .master → s.lastDest = 0 → s.txSeq = 0 →
    s.rxFramed → s.rx 7 = 0 → s.rxSeqField = 0 → s.rxLen → s.rxCsum →
    ∃ t, exec .checkRx s = .next t ∧ t.result = 0 ∧ t.cmdErr = .ok) ∧
  ∀ s t : State, s.initDone = true → s.role = .master → exec .checkRx s = .next t →
    (t.result = 0 → exec .checkRx t = .next
      { t with stats := { t.stats with rxNew := t.stats.rxNew + 1 } }) ∧
    ∀ pending : Bool, ∃ u, exec .checkRx { s with ackPending := pending } = .next u ∧
      u.result = t.result ∧ u.stats = t.stats

/-- R174: only RX[0 .. 12+len) influences CHECK_RX, and the payload only where the length is legal: with the
other RX bytes changed at will (the bytes a duplicate resends kept), CHECK_RX does the same. -/
def Obligations.BytesPastTheFrameDoNotMatter : Prop :=
  ∀ (s t : State) (m : Memory),
    (∀ i, i < 12 ∨ (s.rxLen ∧ i < 12 + s.rxLenField.toNat) → m.read (rxBase + i) = s.rx i) →
    (∀ i, i < 12 + s.txLen.toNat → m.read (txBase + i) = s.tx i) →
    exec .checkRx s = .next t →
    exec .checkRx { s with mem := m } = .next { t with mem := m }

/-- R119 at the receiver: one flipped bit of a payload byte (on either role) or of the sequence field (on a
slave) turns any frame that passes every check into a CSUM_ERR. -/
def Obligations.OneFlippedBitIsCaughtAtTheReceiver : Prop :=
  ∀ (s : State) (i k : Nat), s.initDone = true → s.rxValid → k < 8 →
    (12 ≤ i ∧ i < 12 + s.rxLenField.toNat) ∨ (s.role = .slave ∧ (i = 8 ∨ i = 9)) →
    let hit : State :=
      { s with mem := s.mem.write (rxBase + i) (s.rx i ^^^ BitVec.twoPow 8 k) }
    exec .checkRx hit = .next (hit.rejected .errCsum 8)

/-! ### POLL_ACK and RESEND (44_timeout.md, 42_send.md R145 to R147) -/

/-- R190 to R193: a poll that finds the time run out counts a retry and sends the last frame again, restamping
where the parameter says so; any other poll only returns RETRY. -/
def Obligations.PollAckResendsOnTimeout : Prop :=
  ∀ s : State, s.initDone = true →
    (s.ackPending = true ∧ s.maxDelay.toNat ≤ (s.now - s.tSend).toNat →
      exec .pollAck s = .next
        { s with
          retry := s.retry + 1, spans := s.spans ++ [s.sentBytes],
          stats := { s.stats with txResend := s.stats.txResend + 1 },
          tSend := if s.params.restampOnResend = true then s.now else s.tSend,
          result := s.retry + 1, cmdErr := .ok }) ∧
    (s.ackPending = false ∨ (s.now - s.tSend).toNat < s.maxDelay.toNat →
      exec .pollAck s = .next { s with result := s.retry, cmdErr := .ok })

/-- R195: the boundary of the timeout, while a reply is pending: a poll at T + D - 1 is a no-op and one at
T + D resends; with D = 0 every poll resends; a clock that went back by k resends whenever
D <= 2^32 - k. `resends` says the poll counted a retry, `idles` that it changed nothing but RESULT and CMD_ERR. -/
def Obligations.TimeoutBoundary : Prop :=
  ∀ s : State, s.initDone = true → s.ackPending = true →
    let resends (n : Word) : Prop := ∃ t, exec .pollAck { s with now := n } = .next t ∧
      t.retry = s.retry + 1 ∧ t.spans = s.spans ++ [s.sentBytes]
    let idles (n : Word) : Prop := exec .pollAck { s with now := n } =
      .next { s with now := n, result := s.retry, cmdErr := .ok }
    (s.maxDelay ≠ 0 → idles (s.tSend + s.maxDelay - 1) ∧ resends (s.tSend + s.maxDelay)) ∧
    (s.maxDelay = 0 → ∀ n, resends n) ∧
    (∀ k : Nat, 1 ≤ k → k < 2 ^ 32 →
      (s.maxDelay.toNat ≤ 2 ^ 32 - k → resends (s.tSend - BitVec.ofNat 32 k)) ∧
      (2 ^ 32 - k < s.maxDelay.toNat → idles (s.tSend - BitVec.ofNat 32 k)))

/-- R196: on a slave a poll is a no-op that returns 0. -/
def Obligations.PollOnASlaveReturnsZero : Prop :=
  ∀ s : State, s.RoleUse → s.initDone = true → s.role = .slave →
    exec .pollAck s = .next { s with result := 0, cmdErr := .ok }

/-- R145: right after a successful SEND, a timeout sends the very bytes that SEND sent, once more, and takes
no new sequence number. -/
def Obligations.ResendIsVerbatim : Prop :=
  ∀ (dest : Byte) (len : Half) (s t : State) (n : Word),
    s.initDone = true → s.role = .master → exec (.send dest len) s = .next t → t.cmdErr = .ok →
    t.maxDelay.toNat ≤ (n - t.tSend).toNat →
    ∃ u span, exec .pollAck { t with now := n } = .next u ∧
      t.spans = s.spans ++ [span] ∧ u.spans = s.spans ++ [span, span] ∧
      u.txSeq = t.txSeq ∧ u.mem = t.mem ∧ u.stats.txNew = t.stats.txNew ∧
      u.stats.txResend = t.stats.txResend + 1

/-- R147: a byte the host writes into the sent frame goes out with the next RESEND in its place, and the
rest, checksum included, as it was. -/
def Obligations.ResendSendsTheBufferAsItStands : Prop :=
  ∀ (s : State) (i : Nat) (v : Word),
    i < 12 + s.txLen.toNat → s.txLen.toNat ≤ s.params.maxLen →
    ∃ t, busWrite (BitVec.ofNat 16 (txBase + i)) 1 v s = .next t ∧
      t.resend.spans = s.spans ++ [s.sentBytes.set i (v.extractLsb' 0 8)] ∧
      t.resend.mem = t.mem

/-- R146: with no SEND since INIT a RESEND sends TX[0 .. 12), which is 12 zero bytes when the host has not
written them since INIT. -/
def Obligations.ResendBeforeAnySend : Prop :=
  (∀ s : State, s.txLen = 0 → s.resend.spans = s.spans ++ [slice s.tx 0 12]) ∧
  (∀ (role : Role) (localAddr peerAddr : Byte) (s t r : State),
    exec (.init role localAddr peerAddr) s = .next t →
    r.txLen = t.txLen → (∀ i, i < 12 → r.tx i = t.tx i) →
    r.resend.spans = r.spans ++ [List.replicate 12 0])

/-! ### Registers, counters and outputs over any step -/

/-- R22, column "written by": over any step at all, a register that changes was written by an operation its
row names (or by a power-on reset). The counters and the two buffers of the summary have statements of their
own, `CountersMoveOnlyOnTheirEvents` and `BuffersChangeOnlyByTheirWriters`. -/
def Obligations.RegistersAreWrittenOnlyByTheirRows : Prop :=
  ∀ s t : State, step s = .next t →
    (t.cmd ≠ s.cmd ∨ t.cmdErr ≠ s.cmdErr →
      s.nextCommand.isSome = true ∨ s.nextIsPowerOn = true) ∧
    (t.delayCfg ≠ s.delayCfg → s.nextIsDelayWrite = true ∨ s.nextIsPowerOn = true) ∧
    (t.initDone ≠ s.initDone ∨ t.role ≠ s.role ∨ t.localAddr ≠ s.localAddr ∨
      t.peerAddr ≠ s.peerAddr ∨ t.maxDelay ≠ s.maxDelay → s.nextRestarts = true) ∧
    (t.ackPending ≠ s.ackPending → s.nextRestarts = true ∨
      (s.role = .master ∧ (s.nextIsSend = true ∨ s.nextIsCheckRx = true))) ∧
    (t.txSeq ≠ s.txSeq ∨ t.lastDest ≠ s.lastDest →
      s.nextRestarts = true ∨ (s.role = .master ∧ s.nextIsSend = true)) ∧
    (t.rxSeq ≠ s.rxSeq → s.nextRestarts = true ∨ (s.role = .slave ∧ s.nextIsCheckRx = true)) ∧
    (t.tSend ≠ s.tSend → s.nextRestarts = true ∨ (s.role = .master ∧ s.nextIsSend = true) ∨
      (s.params.restampOnResend = true ∧ s.nextIsPollAck = true)) ∧
    (t.retry ≠ s.retry → s.nextRestarts = true ∨ (s.role = .master ∧ s.nextIsCheckRx = true) ∨
      s.nextIsPollAck = true) ∧
    (t.txLen ≠ s.txLen → s.nextRestarts = true ∨ s.nextIsSend = true) ∧
    (t.result ≠ s.result → s.nextRestarts = true ∨ s.nextIsSend = true ∨
      s.nextIsCheckRx = true ∨ s.nextIsPollAck = true) ∧
    t.params = s.params

/-- 10_state.md R40, R41: over any step, a buffer byte that changes was changed by a host write to a window,
 by INIT or power-on, or, in TX[0 .. 12), by a SEND. -/
def Obligations.BuffersChangeOnlyByTheirWriters : Prop :=
  ∀ (s t : State) (a : Nat), step s = .next t → t.mem.read a ≠ s.mem.read a →
    s.nextRestarts = true ∨ s.nextIsWindowWrite = true ∨
    (s.nextIsSend = true ∧ txBase ≤ a ∧ a < txBase + 12)

/-- R194: only an accepted reply, an INIT or a power-on reset ends the wait for a reply. -/
def Obligations.OnlyAReplyOrARestartEndsTheWait : Prop :=
  ∀ s t : State, step s = .next t → s.ackPending = true → t.ackPending = false →
    s.nextRestarts = true ∨
    (s.nextIsCheckRx = true ∧ s.role = .master ∧ t.result = 0 ∧ t.cmdErr = .ok ∧ t.retry = 0)

/-- R200: over any step a counter rises by one event, is set to 0 by a restart, or stays; and only a command
raises it. -/
def Obligations.CountersMoveOnlyOnTheirEvents : Prop :=
  ∀ (s t : State) (c : Counter), step s = .next t →
    t.stats.get c = s.stats.get c ∨
    (t.stats.get c = s.stats.get c + 1 ∧
      ((c = .txNew ∧ s.nextIsSend = true) ∨
       (c = .txResend ∧ (s.nextIsCheckRx = true ∨ s.nextIsPollAck = true)) ∨
       (c ≠ .txNew ∧ c ≠ .txResend ∧ s.nextIsCheckRx = true))) ∨
    (t.stats.get c = 0 ∧ s.nextRestarts = true)

/-- R76: a step adds at most one span to what the sink has received, it is TX[0 .. 12+TX_LEN) as the step
leaves it, and it comes from a SEND that ran, a DUPLICATE or a timeout; nothing emitted is ever lost. -/
def Obligations.StepEmitsAtMostOneSpan : Prop :=
  ∀ s t : State, step s = .next t →
    t.spans = s.spans ∨
    (t.spans = s.spans ++ [t.sentBytes] ∧ t.cmdErr = .ok ∧
      (s.nextIsSend = true ∨
       (s.nextIsCheckRx = true ∧ s.role = .slave ∧ t.result = 1) ∨
       (s.nextIsPollAck = true ∧ s.ackPending = true ∧ t.retry = s.retry + 1)))

/-! ### Invariants that every step keeps -/

/-- The buffers keep their canonical form and lie where the map puts them, over every step. -/
def Obligations.StepKeepsTheBufferInvariant : Prop :=
  ∀ s t : State, s.MemOk → step s = .next t → t.MemOk

/-- R44: the role-use invariant holds after every step that starts from it. -/
def Obligations.StepKeepsRoleUse : Prop :=
  ∀ s t : State, s.RoleUse → step s = .next t → t.RoleUse

/-- 45_statistics.md R203 (3) and (5): on a slave STAT_TX_RESEND = STAT_RX_DUP and STAT_ERR_SEQ = 0, on a master
STAT_RX_DUP = 0, kept by every step. -/
def Obligations.StepKeepsTheCounterIdentities : Prop :=
  ∀ s t : State, s.RoleUse → s.CountersOk → step s = .next t → t.CountersOk

/-- TX_LEN stays within MAX and a wait is for a frame that was sent (42_send.md R145, R146; 10_state.md R29),
kept by every step. -/
def Obligations.StepKeepsTheSentFrameInvariant : Prop :=
  ∀ s t : State, s.SentOk → step s = .next t → t.SentOk

/-- Before the first INIT every protocol register keeps its reset value, over every step (60_exceptions.md R221,
R223; 70_reset_and_hazards.md R250, R260). -/
def Obligations.StepKeepsTheUninitializedState : Prop :=
  ∀ s t : State, s.BootOk → step s = .next t → t.BootOk

/-- All the invariants hold right after reset. -/
def Obligations.ResetMeetsTheInvariants : Prop :=
  State.reset.MemOk ∧ State.reset.RoleUse ∧ State.reset.CountersOk ∧ State.reset.SentOk ∧
  State.reset.BootOk

/-- 45_statistics.md R203 (2) and (4): as long as the engine is a master, STAT_TX_NEW counts the successful SENDs
since INIT and TX_SEQ follows from their number; every step keeps that, counting one more exactly
when it runs a SEND to success. -/
def Obligations.TxSeqFollowsTheNumberOfSends : Prop :=
  ∀ (s t : State) (n : Nat), s.SendsSoFar n → step s = .next t →
    (s.nextRestarts = true → t.role = .master → t.SendsSoFar 0) ∧
    (s.nextRestarts = false → s.nextIsSend = true ∧ t.cmdErr = .ok → t.SendsSoFar (n + 1)) ∧
    (s.nextRestarts = false → ¬(s.nextIsSend = true ∧ t.cmdErr = .ok) → t.SendsSoFar n)

/-! ### The host interface (20_memory.md) -/

/-- R62: every register of the map reads back as its row says, reserved bits 0. -/
def Obligations.RegisterMapReadsBack : Prop :=
  ∀ s : State,
    s.busRead 0x0000 4 = s.cmd ∧
    s.busRead 0x0004 4 =
      (if s.initDone = true then 1 else 0) + (if s.role = .slave then 2 else 0) +
      (if s.ackPending = true then 4 else 0) +
      (match s.cmdErr with | .ok => 0 | .badop => 0x100 | .noinit => 0x200 | .badarg => 0x300) ∧
    s.busRead 0x0008 4 = s.result ∧
    s.busRead 0x000C 4 = s.delayCfg ∧
    s.busRead 0x0010 4 = BitVec.ofNat 32 s.localAddr.toNat ∧
    s.busRead 0x0014 4 = BitVec.ofNat 32 s.peerAddr.toNat ∧
    s.busRead 0x0018 4 = s.maxDelay ∧
    s.busRead 0x001C 4 = BitVec.ofNat 32 s.txSeq.toNat ∧
    s.busRead 0x0020 4 = BitVec.ofNat 32 s.rxSeq.toNat ∧
    s.busRead 0x0024 4 = s.tSend ∧
    s.busRead 0x0028 4 = s.retry ∧
    s.busRead 0x002C 4 = BitVec.ofNat 32 s.lastDest.toNat ∧
    s.busRead 0x0030 4 = BitVec.ofNat 32 s.txLen.toNat ∧
    (s.busRead 0x0034 4).toNat =
      s.params.bufCap + 0x10000 * s.params.preambleByte.toNat + 0x1000000 * s.params.startByte.toNat ∧
    s.busRead 0x0038 4 = (if s.params.restampOnResend = true then 1 else 0) ∧
    s.busRead 0x0040 4 = s.stats.txNew ∧
    s.busRead 0x0044 4 = s.stats.txResend ∧
    s.busRead 0x0048 4 = s.stats.rxNew ∧
    s.busRead 0x004C 4 = s.stats.rxDup ∧
    s.busRead 0x0050 4 = s.stats.errPreamble ∧
    s.busRead 0x0054 4 = s.stats.errStart ∧
    s.busRead 0x0058 4 = s.stats.errDest ∧
    s.busRead 0x005C 4 = s.stats.errSrc ∧
    s.busRead 0x0060 4 = s.stats.errSeq ∧
    s.busRead 0x0064 4 = s.stats.errLen ∧
    s.busRead 0x0068 4 = s.stats.errCsum

/-- R64, R67: an unsupported width or a misaligned address reads 0 and writes nothing, and so does reserved
space; a write to a register other than CMD and DELAY_CFG is ignored. -/
def Obligations.UnsupportedAccessesReadZeroAndWriteNothing : Prop :=
  ∀ (s : State) (addr : BitVec 16) (width : Nat) (v : Word),
    let a := addr.toNat
    ((a < 0x1000 ∧ (width ≠ 4 ∨ a % 4 ≠ 0 ∨ a = 0x3C ∨ 0x6C ≤ a)) ∨
      (0x1000 ≤ a ∧ a < 0x3000 ∧ ((width ≠ 1 ∧ width ≠ 2 ∧ width ≠ 4) ∨ a % width ≠ 0)) ∨
      0x3000 ≤ a → s.busRead addr width = 0 ∧ busWrite addr width v s = .next s) ∧
    (a < 0x1000 → a ≠ 0x000 → a ≠ 0x00C → busWrite addr width v s = .next s)

/-- R63, R66: an aligned window write stores its low bytes, least significant first, in the bytes below
BUF_CAP and changes no other byte and no register; reads return the bytes in the same order, 0 at
or past BUF_CAP. -/
def Obligations.WindowAccessesAreLittleEndian : Prop :=
  ∀ (s : State) (addr : BitVec 16) (width : Nat) (v : Word),
    0x1000 ≤ addr.toNat → addr.toNat < 0x3000 → width ∈ [1, 2, 4] → addr.toNat % width = 0 →
    (∃ t, busWrite addr width v s = .next t ∧ { t with mem := s.mem } = s ∧
      ∀ x, t.mem.read x =
        if addr.toNat ≤ x ∧ x < addr.toNat + width ∧ x % 0x1000 < s.params.bufCap
        then v.extractLsb' (8 * (x - addr.toNat)) 8 else s.mem.read x) ∧
    (∀ i, i < width → (s.busRead addr width).extractLsb' (8 * i) 8 =
      if (addr.toNat + i) % 0x1000 < s.params.bufCap then s.mem.read (addr.toNat + i) else 0) ∧
    (s.busRead addr width).toNat < 2 ^ (8 * width)

/-- R68: a read changes nothing in the engine, a write to DELAY_CFG only that register, a window write only
buffer bytes; only an aligned 4-byte write to CMD starts a command. -/
def Obligations.OnlyAWriteToCmdHasASideEffect : Prop :=
  ∀ (s : State) (now : Word) (rest : List Transaction) (addr : BitVec 16) (width : Nat),
    (s.pending = { op := .read addr width, now := now } :: rest →
      step s = .next { s with pending := rest, now := now,
                              reads := s.reads ++ [s.busRead addr width] }) ∧
    (∀ v, s.pending = { op := .write addr width v, now := now } :: rest →
      ¬(addr = 0 ∧ width = 4) →
      ∃ t, step s = .next t ∧
        { t with mem := s.mem, delayCfg := s.delayCfg } = { s with pending := rest, now := now } ∧
        (t.delayCfg ≠ s.delayCfg → addr = 0x000C ∧ width = 4 ∧ t.delayCfg = v) ∧
        (∀ x, t.mem.read x ≠ s.mem.read x → addr.toNat ≤ x ∧ x < addr.toNat + width ∧
          0x1000 ≤ x ∧ x < 0x3000 ∧ x % 0x1000 < s.params.bufCap))

/-- 70_reset_and_hazards.md R250, R251, R254: a power-on reset between commands leaves every register and counter 0
and every buffer byte at the free value of that reset (log entry 4); what was emitted stays emitted. How
such a reset reaches the machine, and what is outside it, is the model's choice (log entry 8). -/
def Obligations.PowerOnResetClearsTheRegisters : Prop :=
  ∀ (s : State) (now : Word) (rest : List Transaction),
    s.pending = { op := .powerOn, now := now } :: rest →
    ∃ t, step s = .next t ∧
      t = { State.reset with
            params := s.params, now := now, pending := rest, spans := s.spans, reads := s.reads,
            powerOns := s.powerOns + 1, mem := t.mem } ∧
      (∀ r : Reg, r ≠ .param0 → r ≠ .param1 → t.readReg r = 0) ∧
      (∀ i, t.tx i = Config.powerOnByte (s.powerOns + 1) (txBase + i) ∧
        t.rx i = Config.powerOnByte (s.powerOns + 1) (rxBase + i))

/-! ### Two engines (00_scope.md R8; 95_test_vectors.md V7) -/

/-- A slave accepts what its master sends: when the bytes a master's SEND emitted stand at the start of a
slave's RX (same markers, the slave the one addressed and configured for that master, the number
not its last), CHECK_RX returns NEW_VALID and the slave's watermark is the master's TX_SEQ. Two engines are
two States here, and the host carries the bytes between them (log entry 12). -/
def Obligations.SlaveAcceptsWhatItsMasterSends : Prop :=
  ∀ (m m' s : State) (len : Half),
    m.initDone = true → m.role = .master → exec (.send s.localAddr len) m = .next m' →
    m'.cmdErr = .ok →
    s.initDone = true → s.role = .slave → s.peerAddr = m.localAddr →
    s.params.preambleByte = m.params.preambleByte → s.params.startByte = m.params.startByte →
    len.toNat ≤ s.params.maxLen → s.rxSeq ≠ m'.txSeq →
    ∃ span, m'.spans = m.spans ++ [span] ∧
      (Holds s.rx span →
        ∃ t, exec .checkRx s = .next t ∧ t.result = 0 ∧ t.cmdErr = .ok ∧ t.rxSeq = m'.txSeq ∧
          t.stats.rxNew = s.stats.rxNew + 1 ∧ slice t.rx 12 len.toNat = slice m.tx 12 len.toNat)

/-- R175: a master accepts the reply of the slave it asked: when the bytes the slave's SEND emitted stand in the
master's RX and answer its last request, CHECK_RX returns NEW_VALID, the wait ends and RETRY is 0,
whatever it was. From another source the same frame is a SRC_ERR. Two engines are two States (log entry 12). -/
def Obligations.MasterAcceptsTheReplyItAskedFor : Prop :=
  ∀ (m s s' : State) (dest : Byte) (len : Half),
    s.initDone = true → s.role = .slave → exec (.send dest len) s = .next s' → s'.cmdErr = .ok →
    m.initDone = true → m.role = .master → s.peerAddr = m.localAddr → s.rxSeq = m.txSeq →
    s.params.preambleByte = m.params.preambleByte → s.params.startByte = m.params.startByte →
    len.toNat ≤ m.params.maxLen →
    ∃ span, s'.spans = s.spans ++ [span] ∧
      (Holds m.rx span →
        (m.lastDest = s.localAddr → ∃ t, exec .checkRx m = .next t ∧ t.result = 0 ∧
          t.cmdErr = .ok ∧ t.ackPending = false ∧ t.retry = 0) ∧
        (m.lastDest ≠ s.localAddr → exec .checkRx m = .next (m.rejected .errSrc 5)))

/-! ### Reset (70_reset_and_hazards.md) -/

/-- R250: after power-on reset every register and counter is 0, STATUS reads 0, and only INIT can succeed. -/
def Obligations.ResetLeavesEveryRegisterZero : Prop :=
  (∀ r : Reg, r ≠ .param0 → r ≠ .param1 → State.reset.readReg r = 0) ∧
  State.reset.busRead 0x0004 4 = 0 ∧
  (∀ (i : Instr) (t : State), exec i State.reset = .next t →
    (t.cmdErr = .ok ↔ ∃ role localAddr peerAddr, i = .init role localAddr peerAddr))
end

