-- ==== Sys2Proof/Laws/State.lean ====
section
/-! SUPPORT. One lemma per field per update of State: what each named update gives for each field. Later proofs
rewrite with these and unfold no record update. -/

namespace Sys2Proof.Machine

variable (s : State)

/-! ### writeTx -/

@[simp] theorem State.writeTx_params (off : Nat) (bs : List Byte) : (s.writeTx off bs).params = s.params :=
    rfl
@[simp] theorem State.writeTx_cmd (off : Nat) (bs : List Byte) : (s.writeTx off bs).cmd = s.cmd :=
    rfl
@[simp] theorem State.writeTx_delayCfg (off : Nat) (bs : List Byte) : (s.writeTx off bs).delayCfg = s.delayCfg :=
    rfl
@[simp] theorem State.writeTx_initDone (off : Nat) (bs : List Byte) : (s.writeTx off bs).initDone = s.initDone :=
    rfl
@[simp] theorem State.writeTx_role (off : Nat) (bs : List Byte) : (s.writeTx off bs).role = s.role :=
    rfl
@[simp] theorem State.writeTx_ackPending (off : Nat) (bs : List Byte) : (s.writeTx off bs).ackPending = s.ackPending :=
    rfl
@[simp] theorem State.writeTx_cmdErr (off : Nat) (bs : List Byte) : (s.writeTx off bs).cmdErr = s.cmdErr :=
    rfl
@[simp] theorem State.writeTx_result (off : Nat) (bs : List Byte) : (s.writeTx off bs).result = s.result :=
    rfl
@[simp] theorem State.writeTx_localAddr (off : Nat) (bs : List Byte) : (s.writeTx off bs).localAddr = s.localAddr :=
    rfl
@[simp] theorem State.writeTx_peerAddr (off : Nat) (bs : List Byte) : (s.writeTx off bs).peerAddr = s.peerAddr :=
    rfl
@[simp] theorem State.writeTx_maxDelay (off : Nat) (bs : List Byte) : (s.writeTx off bs).maxDelay = s.maxDelay :=
    rfl
@[simp] theorem State.writeTx_txSeq (off : Nat) (bs : List Byte) : (s.writeTx off bs).txSeq = s.txSeq :=
    rfl
@[simp] theorem State.writeTx_rxSeq (off : Nat) (bs : List Byte) : (s.writeTx off bs).rxSeq = s.rxSeq :=
    rfl
@[simp] theorem State.writeTx_tSend (off : Nat) (bs : List Byte) : (s.writeTx off bs).tSend = s.tSend :=
    rfl
@[simp] theorem State.writeTx_retry (off : Nat) (bs : List Byte) : (s.writeTx off bs).retry = s.retry :=
    rfl
@[simp] theorem State.writeTx_lastDest (off : Nat) (bs : List Byte) : (s.writeTx off bs).lastDest = s.lastDest :=
    rfl
@[simp] theorem State.writeTx_txLen (off : Nat) (bs : List Byte) : (s.writeTx off bs).txLen = s.txLen :=
    rfl
@[simp] theorem State.writeTx_stats (off : Nat) (bs : List Byte) : (s.writeTx off bs).stats = s.stats :=
    rfl
@[simp] theorem State.writeTx_mem (off : Nat) (bs : List Byte) : (s.writeTx off bs).mem = s.mem.writeBytes (txBase + off) bs :=
    rfl
@[simp] theorem State.writeTx_now (off : Nat) (bs : List Byte) : (s.writeTx off bs).now = s.now :=
    rfl
@[simp] theorem State.writeTx_spans (off : Nat) (bs : List Byte) : (s.writeTx off bs).spans = s.spans :=
    rfl
@[simp] theorem State.writeTx_reads (off : Nat) (bs : List Byte) : (s.writeTx off bs).reads = s.reads :=
    rfl
@[simp] theorem State.writeTx_pending (off : Nat) (bs : List Byte) : (s.writeTx off bs).pending = s.pending :=
    rfl
@[simp] theorem State.writeTx_powerOns (off : Nat) (bs : List Byte) : (s.writeTx off bs).powerOns = s.powerOns :=
    rfl

/-! ### count -/

@[simp] theorem State.count_params (c : Counter) : (s.count c).params = s.params := rfl
@[simp] theorem State.count_cmd (c : Counter) : (s.count c).cmd = s.cmd := rfl
@[simp] theorem State.count_delayCfg (c : Counter) : (s.count c).delayCfg = s.delayCfg := rfl
@[simp] theorem State.count_initDone (c : Counter) : (s.count c).initDone = s.initDone := rfl
@[simp] theorem State.count_role (c : Counter) : (s.count c).role = s.role := rfl
@[simp] theorem State.count_ackPending (c : Counter) : (s.count c).ackPending = s.ackPending := rfl
@[simp] theorem State.count_cmdErr (c : Counter) : (s.count c).cmdErr = s.cmdErr := rfl
@[simp] theorem State.count_result (c : Counter) : (s.count c).result = s.result := rfl
@[simp] theorem State.count_localAddr (c : Counter) : (s.count c).localAddr = s.localAddr := rfl
@[simp] theorem State.count_peerAddr (c : Counter) : (s.count c).peerAddr = s.peerAddr := rfl
@[simp] theorem State.count_maxDelay (c : Counter) : (s.count c).maxDelay = s.maxDelay := rfl
@[simp] theorem State.count_txSeq (c : Counter) : (s.count c).txSeq = s.txSeq := rfl
@[simp] theorem State.count_rxSeq (c : Counter) : (s.count c).rxSeq = s.rxSeq := rfl
@[simp] theorem State.count_tSend (c : Counter) : (s.count c).tSend = s.tSend := rfl
@[simp] theorem State.count_retry (c : Counter) : (s.count c).retry = s.retry := rfl
@[simp] theorem State.count_lastDest (c : Counter) : (s.count c).lastDest = s.lastDest := rfl
@[simp] theorem State.count_txLen (c : Counter) : (s.count c).txLen = s.txLen := rfl
@[simp] theorem State.count_stats (c : Counter) : (s.count c).stats = s.stats.bump c := rfl
@[simp] theorem State.count_mem (c : Counter) : (s.count c).mem = s.mem := rfl
@[simp] theorem State.count_now (c : Counter) : (s.count c).now = s.now := rfl
@[simp] theorem State.count_spans (c : Counter) : (s.count c).spans = s.spans := rfl
@[simp] theorem State.count_reads (c : Counter) : (s.count c).reads = s.reads := rfl
@[simp] theorem State.count_pending (c : Counter) : (s.count c).pending = s.pending := rfl
@[simp] theorem State.count_powerOns (c : Counter) : (s.count c).powerOns = s.powerOns := rfl
@[simp] theorem State.count_tx (c : Counter) : (s.count c).tx = s.tx := rfl
@[simp] theorem State.count_rx (c : Counter) : (s.count c).rx = s.rx := rfl

/-! ### emit -/

@[simp] theorem State.emit_params (span : List Byte) : (s.emit span).params = s.params := rfl
@[simp] theorem State.emit_cmd (span : List Byte) : (s.emit span).cmd = s.cmd := rfl
@[simp] theorem State.emit_delayCfg (span : List Byte) : (s.emit span).delayCfg = s.delayCfg := rfl
@[simp] theorem State.emit_initDone (span : List Byte) : (s.emit span).initDone = s.initDone := rfl
@[simp] theorem State.emit_role (span : List Byte) : (s.emit span).role = s.role := rfl
@[simp] theorem State.emit_ackPending (span : List Byte) : (s.emit span).ackPending = s.ackPending :=
    rfl
@[simp] theorem State.emit_cmdErr (span : List Byte) : (s.emit span).cmdErr = s.cmdErr := rfl
@[simp] theorem State.emit_result (span : List Byte) : (s.emit span).result = s.result := rfl
@[simp] theorem State.emit_localAddr (span : List Byte) : (s.emit span).localAddr = s.localAddr :=
    rfl
@[simp] theorem State.emit_peerAddr (span : List Byte) : (s.emit span).peerAddr = s.peerAddr := rfl
@[simp] theorem State.emit_maxDelay (span : List Byte) : (s.emit span).maxDelay = s.maxDelay := rfl
@[simp] theorem State.emit_txSeq (span : List Byte) : (s.emit span).txSeq = s.txSeq := rfl
@[simp] theorem State.emit_rxSeq (span : List Byte) : (s.emit span).rxSeq = s.rxSeq := rfl
@[simp] theorem State.emit_tSend (span : List Byte) : (s.emit span).tSend = s.tSend := rfl
@[simp] theorem State.emit_retry (span : List Byte) : (s.emit span).retry = s.retry := rfl
@[simp] theorem State.emit_lastDest (span : List Byte) : (s.emit span).lastDest = s.lastDest := rfl
@[simp] theorem State.emit_txLen (span : List Byte) : (s.emit span).txLen = s.txLen := rfl
@[simp] theorem State.emit_stats (span : List Byte) : (s.emit span).stats = s.stats := rfl
@[simp] theorem State.emit_mem (span : List Byte) : (s.emit span).mem = s.mem := rfl
@[simp] theorem State.emit_now (span : List Byte) : (s.emit span).now = s.now := rfl
@[simp] theorem State.emit_spans (span : List Byte) : (s.emit span).spans = s.spans ++ [span] := rfl
@[simp] theorem State.emit_reads (span : List Byte) : (s.emit span).reads = s.reads := rfl
@[simp] theorem State.emit_pending (span : List Byte) : (s.emit span).pending = s.pending := rfl
@[simp] theorem State.emit_powerOns (span : List Byte) : (s.emit span).powerOns = s.powerOns := rfl
@[simp] theorem State.emit_tx (span : List Byte) : (s.emit span).tx = s.tx := rfl
@[simp] theorem State.emit_rx (span : List Byte) : (s.emit span).rx = s.rx := rfl

/-! ### reply -/

@[simp] theorem State.reply_params (v : Word) : (s.reply v).params = s.params := rfl
@[simp] theorem State.reply_cmd (v : Word) : (s.reply v).cmd = s.cmd := rfl
@[simp] theorem State.reply_delayCfg (v : Word) : (s.reply v).delayCfg = s.delayCfg := rfl
@[simp] theorem State.reply_initDone (v : Word) : (s.reply v).initDone = s.initDone := rfl
@[simp] theorem State.reply_role (v : Word) : (s.reply v).role = s.role := rfl
@[simp] theorem State.reply_ackPending (v : Word) : (s.reply v).ackPending = s.ackPending := rfl
@[simp] theorem State.reply_cmdErr (v : Word) : (s.reply v).cmdErr = s.cmdErr := rfl
@[simp] theorem State.reply_result (v : Word) : (s.reply v).result = s.result := rfl
@[simp] theorem State.reply_localAddr (v : Word) : (s.reply v).localAddr = s.localAddr := rfl
@[simp] theorem State.reply_peerAddr (v : Word) : (s.reply v).peerAddr = s.peerAddr := rfl
@[simp] theorem State.reply_maxDelay (v : Word) : (s.reply v).maxDelay = s.maxDelay := rfl
@[simp] theorem State.reply_txSeq (v : Word) : (s.reply v).txSeq = s.txSeq := rfl
@[simp] theorem State.reply_rxSeq (v : Word) : (s.reply v).rxSeq = s.rxSeq := rfl
@[simp] theorem State.reply_tSend (v : Word) : (s.reply v).tSend = s.tSend := rfl
@[simp] theorem State.reply_retry (v : Word) : (s.reply v).retry = s.retry := rfl
@[simp] theorem State.reply_lastDest (v : Word) : (s.reply v).lastDest = s.lastDest := rfl
@[simp] theorem State.reply_txLen (v : Word) : (s.reply v).txLen = s.txLen := rfl
@[simp] theorem State.reply_stats (v : Word) : (s.reply v).stats = s.stats := rfl
@[simp] theorem State.reply_mem (v : Word) : (s.reply v).mem = s.mem := rfl
@[simp] theorem State.reply_now (v : Word) : (s.reply v).now = s.now := rfl
@[simp] theorem State.reply_spans (v : Word) : (s.reply v).spans = s.spans := rfl
@[simp] theorem State.reply_reads (v : Word) : (s.reply v).reads = s.reads ++ [v] := rfl
@[simp] theorem State.reply_pending (v : Word) : (s.reply v).pending = s.pending := rfl
@[simp] theorem State.reply_powerOns (v : Word) : (s.reply v).powerOns = s.powerOns := rfl
@[simp] theorem State.reply_tx (v : Word) : (s.reply v).tx = s.tx := rfl
@[simp] theorem State.reply_rx (v : Word) : (s.reply v).rx = s.rx := rfl

/-! ### storeCmd -/

@[simp] theorem State.storeCmd_params (w : Word) : (s.storeCmd w).params = s.params := rfl
@[simp] theorem State.storeCmd_cmd (w : Word) : (s.storeCmd w).cmd = w := rfl
@[simp] theorem State.storeCmd_delayCfg (w : Word) : (s.storeCmd w).delayCfg = s.delayCfg := rfl
@[simp] theorem State.storeCmd_initDone (w : Word) : (s.storeCmd w).initDone = s.initDone := rfl
@[simp] theorem State.storeCmd_role (w : Word) : (s.storeCmd w).role = s.role := rfl
@[simp] theorem State.storeCmd_ackPending (w : Word) : (s.storeCmd w).ackPending = s.ackPending :=
    rfl
@[simp] theorem State.storeCmd_cmdErr (w : Word) : (s.storeCmd w).cmdErr = s.cmdErr := rfl
@[simp] theorem State.storeCmd_result (w : Word) : (s.storeCmd w).result = s.result := rfl
@[simp] theorem State.storeCmd_localAddr (w : Word) : (s.storeCmd w).localAddr = s.localAddr := rfl
@[simp] theorem State.storeCmd_peerAddr (w : Word) : (s.storeCmd w).peerAddr = s.peerAddr := rfl
@[simp] theorem State.storeCmd_maxDelay (w : Word) : (s.storeCmd w).maxDelay = s.maxDelay := rfl
@[simp] theorem State.storeCmd_txSeq (w : Word) : (s.storeCmd w).txSeq = s.txSeq := rfl
@[simp] theorem State.storeCmd_rxSeq (w : Word) : (s.storeCmd w).rxSeq = s.rxSeq := rfl
@[simp] theorem State.storeCmd_tSend (w : Word) : (s.storeCmd w).tSend = s.tSend := rfl
@[simp] theorem State.storeCmd_retry (w : Word) : (s.storeCmd w).retry = s.retry := rfl
@[simp] theorem State.storeCmd_lastDest (w : Word) : (s.storeCmd w).lastDest = s.lastDest := rfl
@[simp] theorem State.storeCmd_txLen (w : Word) : (s.storeCmd w).txLen = s.txLen := rfl
@[simp] theorem State.storeCmd_stats (w : Word) : (s.storeCmd w).stats = s.stats := rfl
@[simp] theorem State.storeCmd_mem (w : Word) : (s.storeCmd w).mem = s.mem := rfl
@[simp] theorem State.storeCmd_now (w : Word) : (s.storeCmd w).now = s.now := rfl
@[simp] theorem State.storeCmd_spans (w : Word) : (s.storeCmd w).spans = s.spans := rfl
@[simp] theorem State.storeCmd_reads (w : Word) : (s.storeCmd w).reads = s.reads := rfl
@[simp] theorem State.storeCmd_pending (w : Word) : (s.storeCmd w).pending = s.pending := rfl
@[simp] theorem State.storeCmd_powerOns (w : Word) : (s.storeCmd w).powerOns = s.powerOns := rfl
@[simp] theorem State.storeCmd_tx (w : Word) : (s.storeCmd w).tx = s.tx := rfl
@[simp] theorem State.storeCmd_rx (w : Word) : (s.storeCmd w).rx = s.rx := rfl

/-! ### finish -/

@[simp] theorem State.finish_params (v : Word) : (s.finish v).params = s.params := rfl
@[simp] theorem State.finish_cmd (v : Word) : (s.finish v).cmd = s.cmd := rfl
@[simp] theorem State.finish_delayCfg (v : Word) : (s.finish v).delayCfg = s.delayCfg := rfl
@[simp] theorem State.finish_initDone (v : Word) : (s.finish v).initDone = s.initDone := rfl
@[simp] theorem State.finish_role (v : Word) : (s.finish v).role = s.role := rfl
@[simp] theorem State.finish_ackPending (v : Word) : (s.finish v).ackPending = s.ackPending := rfl
@[simp] theorem State.finish_cmdErr (v : Word) : (s.finish v).cmdErr = .ok := rfl
@[simp] theorem State.finish_result (v : Word) : (s.finish v).result = v := rfl
@[simp] theorem State.finish_localAddr (v : Word) : (s.finish v).localAddr = s.localAddr := rfl
@[simp] theorem State.finish_peerAddr (v : Word) : (s.finish v).peerAddr = s.peerAddr := rfl
@[simp] theorem State.finish_maxDelay (v : Word) : (s.finish v).maxDelay = s.maxDelay := rfl
@[simp] theorem State.finish_txSeq (v : Word) : (s.finish v).txSeq = s.txSeq := rfl
@[simp] theorem State.finish_rxSeq (v : Word) : (s.finish v).rxSeq = s.rxSeq := rfl
@[simp] theorem State.finish_tSend (v : Word) : (s.finish v).tSend = s.tSend := rfl
@[simp] theorem State.finish_retry (v : Word) : (s.finish v).retry = s.retry := rfl
@[simp] theorem State.finish_lastDest (v : Word) : (s.finish v).lastDest = s.lastDest := rfl
@[simp] theorem State.finish_txLen (v : Word) : (s.finish v).txLen = s.txLen := rfl
@[simp] theorem State.finish_stats (v : Word) : (s.finish v).stats = s.stats := rfl
@[simp] theorem State.finish_mem (v : Word) : (s.finish v).mem = s.mem := rfl
@[simp] theorem State.finish_now (v : Word) : (s.finish v).now = s.now := rfl
@[simp] theorem State.finish_spans (v : Word) : (s.finish v).spans = s.spans := rfl
@[simp] theorem State.finish_reads (v : Word) : (s.finish v).reads = s.reads := rfl
@[simp] theorem State.finish_pending (v : Word) : (s.finish v).pending = s.pending := rfl
@[simp] theorem State.finish_powerOns (v : Word) : (s.finish v).powerOns = s.powerOns := rfl
@[simp] theorem State.finish_tx (v : Word) : (s.finish v).tx = s.tx := rfl
@[simp] theorem State.finish_rx (v : Word) : (s.finish v).rx = s.rx := rfl

/-! ### raise -/

@[simp] theorem State.raise_params (code : CmdErr) : (s.raise code).params = s.params := rfl
@[simp] theorem State.raise_cmd (code : CmdErr) : (s.raise code).cmd = s.cmd := rfl
@[simp] theorem State.raise_delayCfg (code : CmdErr) : (s.raise code).delayCfg = s.delayCfg := rfl
@[simp] theorem State.raise_initDone (code : CmdErr) : (s.raise code).initDone = s.initDone := rfl
@[simp] theorem State.raise_role (code : CmdErr) : (s.raise code).role = s.role := rfl
@[simp] theorem State.raise_ackPending (code : CmdErr) : (s.raise code).ackPending = s.ackPending :=
    rfl
@[simp] theorem State.raise_cmdErr (code : CmdErr) : (s.raise code).cmdErr = code := rfl
@[simp] theorem State.raise_result (code : CmdErr) : (s.raise code).result = s.result := rfl
@[simp] theorem State.raise_localAddr (code : CmdErr) : (s.raise code).localAddr = s.localAddr :=
    rfl
@[simp] theorem State.raise_peerAddr (code : CmdErr) : (s.raise code).peerAddr = s.peerAddr := rfl
@[simp] theorem State.raise_maxDelay (code : CmdErr) : (s.raise code).maxDelay = s.maxDelay := rfl
@[simp] theorem State.raise_txSeq (code : CmdErr) : (s.raise code).txSeq = s.txSeq := rfl
@[simp] theorem State.raise_rxSeq (code : CmdErr) : (s.raise code).rxSeq = s.rxSeq := rfl
@[simp] theorem State.raise_tSend (code : CmdErr) : (s.raise code).tSend = s.tSend := rfl
@[simp] theorem State.raise_retry (code : CmdErr) : (s.raise code).retry = s.retry := rfl
@[simp] theorem State.raise_lastDest (code : CmdErr) : (s.raise code).lastDest = s.lastDest := rfl
@[simp] theorem State.raise_txLen (code : CmdErr) : (s.raise code).txLen = s.txLen := rfl
@[simp] theorem State.raise_stats (code : CmdErr) : (s.raise code).stats = s.stats := rfl
@[simp] theorem State.raise_mem (code : CmdErr) : (s.raise code).mem = s.mem := rfl
@[simp] theorem State.raise_now (code : CmdErr) : (s.raise code).now = s.now := rfl
@[simp] theorem State.raise_spans (code : CmdErr) : (s.raise code).spans = s.spans := rfl
@[simp] theorem State.raise_reads (code : CmdErr) : (s.raise code).reads = s.reads := rfl
@[simp] theorem State.raise_pending (code : CmdErr) : (s.raise code).pending = s.pending := rfl
@[simp] theorem State.raise_powerOns (code : CmdErr) : (s.raise code).powerOns = s.powerOns := rfl
@[simp] theorem State.raise_tx (code : CmdErr) : (s.raise code).tx = s.tx := rfl
@[simp] theorem State.raise_rx (code : CmdErr) : (s.raise code).rx = s.rx := rfl

/-! ### setTxLen -/

@[simp] theorem State.setTxLen_params (len : Half) : (s.setTxLen len).params = s.params := rfl
@[simp] theorem State.setTxLen_cmd (len : Half) : (s.setTxLen len).cmd = s.cmd := rfl
@[simp] theorem State.setTxLen_delayCfg (len : Half) : (s.setTxLen len).delayCfg = s.delayCfg := rfl
@[simp] theorem State.setTxLen_initDone (len : Half) : (s.setTxLen len).initDone = s.initDone := rfl
@[simp] theorem State.setTxLen_role (len : Half) : (s.setTxLen len).role = s.role := rfl
@[simp] theorem State.setTxLen_ackPending (len : Half) : (s.setTxLen len).ackPending = s.ackPending :=
    rfl
@[simp] theorem State.setTxLen_cmdErr (len : Half) : (s.setTxLen len).cmdErr = s.cmdErr := rfl
@[simp] theorem State.setTxLen_result (len : Half) : (s.setTxLen len).result = s.result := rfl
@[simp] theorem State.setTxLen_localAddr (len : Half) : (s.setTxLen len).localAddr = s.localAddr :=
    rfl
@[simp] theorem State.setTxLen_peerAddr (len : Half) : (s.setTxLen len).peerAddr = s.peerAddr := rfl
@[simp] theorem State.setTxLen_maxDelay (len : Half) : (s.setTxLen len).maxDelay = s.maxDelay := rfl
@[simp] theorem State.setTxLen_txSeq (len : Half) : (s.setTxLen len).txSeq = s.txSeq := rfl
@[simp] theorem State.setTxLen_rxSeq (len : Half) : (s.setTxLen len).rxSeq = s.rxSeq := rfl
@[simp] theorem State.setTxLen_tSend (len : Half) : (s.setTxLen len).tSend = s.tSend := rfl
@[simp] theorem State.setTxLen_retry (len : Half) : (s.setTxLen len).retry = s.retry := rfl
@[simp] theorem State.setTxLen_lastDest (len : Half) : (s.setTxLen len).lastDest = s.lastDest := rfl
@[simp] theorem State.setTxLen_txLen (len : Half) : (s.setTxLen len).txLen = len := rfl
@[simp] theorem State.setTxLen_stats (len : Half) : (s.setTxLen len).stats = s.stats := rfl
@[simp] theorem State.setTxLen_mem (len : Half) : (s.setTxLen len).mem = s.mem := rfl
@[simp] theorem State.setTxLen_now (len : Half) : (s.setTxLen len).now = s.now := rfl
@[simp] theorem State.setTxLen_spans (len : Half) : (s.setTxLen len).spans = s.spans := rfl
@[simp] theorem State.setTxLen_reads (len : Half) : (s.setTxLen len).reads = s.reads := rfl
@[simp] theorem State.setTxLen_pending (len : Half) : (s.setTxLen len).pending = s.pending := rfl
@[simp] theorem State.setTxLen_powerOns (len : Half) : (s.setTxLen len).powerOns = s.powerOns := rfl
@[simp] theorem State.setTxLen_tx (len : Half) : (s.setTxLen len).tx = s.tx := rfl
@[simp] theorem State.setTxLen_rx (len : Half) : (s.setTxLen len).rx = s.rx := rfl

/-! ### countRetry -/

@[simp] theorem State.countRetry_params : (s.countRetry).params = s.params := rfl
@[simp] theorem State.countRetry_cmd : (s.countRetry).cmd = s.cmd := rfl
@[simp] theorem State.countRetry_delayCfg : (s.countRetry).delayCfg = s.delayCfg := rfl
@[simp] theorem State.countRetry_initDone : (s.countRetry).initDone = s.initDone := rfl
@[simp] theorem State.countRetry_role : (s.countRetry).role = s.role := rfl
@[simp] theorem State.countRetry_ackPending : (s.countRetry).ackPending = s.ackPending := rfl
@[simp] theorem State.countRetry_cmdErr : (s.countRetry).cmdErr = s.cmdErr := rfl
@[simp] theorem State.countRetry_result : (s.countRetry).result = s.result := rfl
@[simp] theorem State.countRetry_localAddr : (s.countRetry).localAddr = s.localAddr := rfl
@[simp] theorem State.countRetry_peerAddr : (s.countRetry).peerAddr = s.peerAddr := rfl
@[simp] theorem State.countRetry_maxDelay : (s.countRetry).maxDelay = s.maxDelay := rfl
@[simp] theorem State.countRetry_txSeq : (s.countRetry).txSeq = s.txSeq := rfl
@[simp] theorem State.countRetry_rxSeq : (s.countRetry).rxSeq = s.rxSeq := rfl
@[simp] theorem State.countRetry_tSend : (s.countRetry).tSend = s.tSend := rfl
@[simp] theorem State.countRetry_retry : (s.countRetry).retry = s.retry + 1 := rfl
@[simp] theorem State.countRetry_lastDest : (s.countRetry).lastDest = s.lastDest := rfl
@[simp] theorem State.countRetry_txLen : (s.countRetry).txLen = s.txLen := rfl
@[simp] theorem State.countRetry_stats : (s.countRetry).stats = s.stats := rfl
@[simp] theorem State.countRetry_mem : (s.countRetry).mem = s.mem := rfl
@[simp] theorem State.countRetry_now : (s.countRetry).now = s.now := rfl
@[simp] theorem State.countRetry_spans : (s.countRetry).spans = s.spans := rfl
@[simp] theorem State.countRetry_reads : (s.countRetry).reads = s.reads := rfl
@[simp] theorem State.countRetry_pending : (s.countRetry).pending = s.pending := rfl
@[simp] theorem State.countRetry_powerOns : (s.countRetry).powerOns = s.powerOns := rfl
@[simp] theorem State.countRetry_tx : (s.countRetry).tx = s.tx := rfl
@[simp] theorem State.countRetry_rx : (s.countRetry).rx = s.rx := rfl

/-! ### awaitReply -/

@[simp] theorem State.awaitReply_params (dest : Byte) : (s.awaitReply dest).params = s.params := rfl
@[simp] theorem State.awaitReply_cmd (dest : Byte) : (s.awaitReply dest).cmd = s.cmd := rfl
@[simp] theorem State.awaitReply_delayCfg (dest : Byte) : (s.awaitReply dest).delayCfg = s.delayCfg :=
    rfl
@[simp] theorem State.awaitReply_initDone (dest : Byte) : (s.awaitReply dest).initDone = s.initDone :=
    rfl
@[simp] theorem State.awaitReply_role (dest : Byte) : (s.awaitReply dest).role = s.role := rfl
@[simp] theorem State.awaitReply_ackPending (dest : Byte) : (s.awaitReply dest).ackPending = true :=
    rfl
@[simp] theorem State.awaitReply_cmdErr (dest : Byte) : (s.awaitReply dest).cmdErr = s.cmdErr := rfl
@[simp] theorem State.awaitReply_result (dest : Byte) : (s.awaitReply dest).result = s.result := rfl
@[simp] theorem State.awaitReply_localAddr (dest : Byte) : (s.awaitReply dest).localAddr = s.localAddr :=
    rfl
@[simp] theorem State.awaitReply_peerAddr (dest : Byte) : (s.awaitReply dest).peerAddr = s.peerAddr :=
    rfl
@[simp] theorem State.awaitReply_maxDelay (dest : Byte) : (s.awaitReply dest).maxDelay = s.maxDelay :=
    rfl
@[simp] theorem State.awaitReply_txSeq (dest : Byte) : (s.awaitReply dest).txSeq = nextSeq s.txSeq :=
    rfl
@[simp] theorem State.awaitReply_rxSeq (dest : Byte) : (s.awaitReply dest).rxSeq = s.rxSeq := rfl
@[simp] theorem State.awaitReply_tSend (dest : Byte) : (s.awaitReply dest).tSend = s.now := rfl
@[simp] theorem State.awaitReply_retry (dest : Byte) : (s.awaitReply dest).retry = s.retry := rfl
@[simp] theorem State.awaitReply_lastDest (dest : Byte) : (s.awaitReply dest).lastDest = dest := rfl
@[simp] theorem State.awaitReply_txLen (dest : Byte) : (s.awaitReply dest).txLen = s.txLen := rfl
@[simp] theorem State.awaitReply_stats (dest : Byte) : (s.awaitReply dest).stats = s.stats := rfl
@[simp] theorem State.awaitReply_mem (dest : Byte) : (s.awaitReply dest).mem = s.mem := rfl
@[simp] theorem State.awaitReply_now (dest : Byte) : (s.awaitReply dest).now = s.now := rfl
@[simp] theorem State.awaitReply_spans (dest : Byte) : (s.awaitReply dest).spans = s.spans := rfl
@[simp] theorem State.awaitReply_reads (dest : Byte) : (s.awaitReply dest).reads = s.reads := rfl
@[simp] theorem State.awaitReply_pending (dest : Byte) : (s.awaitReply dest).pending = s.pending :=
    rfl
@[simp] theorem State.awaitReply_powerOns (dest : Byte) : (s.awaitReply dest).powerOns = s.powerOns :=
    rfl
@[simp] theorem State.awaitReply_tx (dest : Byte) : (s.awaitReply dest).tx = s.tx := rfl
@[simp] theorem State.awaitReply_rx (dest : Byte) : (s.awaitReply dest).rx = s.rx := rfl

/-! ### accept -/

@[simp] theorem State.accept_params (t : Transaction) (rest : List Transaction) : (s.accept t rest).params = s.params :=
    rfl
@[simp] theorem State.accept_cmd (t : Transaction) (rest : List Transaction) : (s.accept t rest).cmd = s.cmd :=
    rfl
@[simp] theorem State.accept_delayCfg (t : Transaction) (rest : List Transaction) : (s.accept t rest).delayCfg = s.delayCfg :=
    rfl
@[simp] theorem State.accept_initDone (t : Transaction) (rest : List Transaction) : (s.accept t rest).initDone = s.initDone :=
    rfl
@[simp] theorem State.accept_role (t : Transaction) (rest : List Transaction) : (s.accept t rest).role = s.role :=
    rfl
@[simp] theorem State.accept_ackPending (t : Transaction) (rest : List Transaction) : (s.accept t rest).ackPending = s.ackPending :=
    rfl
@[simp] theorem State.accept_cmdErr (t : Transaction) (rest : List Transaction) : (s.accept t rest).cmdErr = s.cmdErr :=
    rfl
@[simp] theorem State.accept_result (t : Transaction) (rest : List Transaction) : (s.accept t rest).result = s.result :=
    rfl
@[simp] theorem State.accept_localAddr (t : Transaction) (rest : List Transaction) : (s.accept t rest).localAddr = s.localAddr :=
    rfl
@[simp] theorem State.accept_peerAddr (t : Transaction) (rest : List Transaction) : (s.accept t rest).peerAddr = s.peerAddr :=
    rfl
@[simp] theorem State.accept_maxDelay (t : Transaction) (rest : List Transaction) : (s.accept t rest).maxDelay = s.maxDelay :=
    rfl
@[simp] theorem State.accept_txSeq (t : Transaction) (rest : List Transaction) : (s.accept t rest).txSeq = s.txSeq :=
    rfl
@[simp] theorem State.accept_rxSeq (t : Transaction) (rest : List Transaction) : (s.accept t rest).rxSeq = s.rxSeq :=
    rfl
@[simp] theorem State.accept_tSend (t : Transaction) (rest : List Transaction) : (s.accept t rest).tSend = s.tSend :=
    rfl
@[simp] theorem State.accept_retry (t : Transaction) (rest : List Transaction) : (s.accept t rest).retry = s.retry :=
    rfl
@[simp] theorem State.accept_lastDest (t : Transaction) (rest : List Transaction) : (s.accept t rest).lastDest = s.lastDest :=
    rfl
@[simp] theorem State.accept_txLen (t : Transaction) (rest : List Transaction) : (s.accept t rest).txLen = s.txLen :=
    rfl
@[simp] theorem State.accept_stats (t : Transaction) (rest : List Transaction) : (s.accept t rest).stats = s.stats :=
    rfl
@[simp] theorem State.accept_mem (t : Transaction) (rest : List Transaction) : (s.accept t rest).mem = s.mem :=
    rfl
@[simp] theorem State.accept_now (t : Transaction) (rest : List Transaction) : (s.accept t rest).now = t.now :=
    rfl
@[simp] theorem State.accept_spans (t : Transaction) (rest : List Transaction) : (s.accept t rest).spans = s.spans :=
    rfl
@[simp] theorem State.accept_reads (t : Transaction) (rest : List Transaction) : (s.accept t rest).reads = s.reads :=
    rfl
@[simp] theorem State.accept_pending (t : Transaction) (rest : List Transaction) : (s.accept t rest).pending = rest :=
    rfl
@[simp] theorem State.accept_powerOns (t : Transaction) (rest : List Transaction) : (s.accept t rest).powerOns = s.powerOns :=
    rfl
@[simp] theorem State.accept_tx (t : Transaction) (rest : List Transaction) : (s.accept t rest).tx = s.tx :=
    rfl
@[simp] theorem State.accept_rx (t : Transaction) (rest : List Transaction) : (s.accept t rest).rx = s.rx :=
    rfl

/-! ### withCommand -/

@[simp] theorem State.withCommand_params (w : Word) : (s.withCommand w).params = s.params := rfl
@[simp] theorem State.withCommand_cmd (w : Word) : (s.withCommand w).cmd = s.cmd := rfl
@[simp] theorem State.withCommand_delayCfg (w : Word) : (s.withCommand w).delayCfg = s.delayCfg :=
    rfl
@[simp] theorem State.withCommand_initDone (w : Word) : (s.withCommand w).initDone = s.initDone :=
    rfl
@[simp] theorem State.withCommand_role (w : Word) : (s.withCommand w).role = s.role := rfl
@[simp] theorem State.withCommand_ackPending (w : Word) : (s.withCommand w).ackPending = s.ackPending :=
    rfl
@[simp] theorem State.withCommand_cmdErr (w : Word) : (s.withCommand w).cmdErr = s.cmdErr := rfl
@[simp] theorem State.withCommand_result (w : Word) : (s.withCommand w).result = s.result := rfl
@[simp] theorem State.withCommand_localAddr (w : Word) : (s.withCommand w).localAddr = s.localAddr :=
    rfl
@[simp] theorem State.withCommand_peerAddr (w : Word) : (s.withCommand w).peerAddr = s.peerAddr :=
    rfl
@[simp] theorem State.withCommand_maxDelay (w : Word) : (s.withCommand w).maxDelay = s.maxDelay :=
    rfl
@[simp] theorem State.withCommand_txSeq (w : Word) : (s.withCommand w).txSeq = s.txSeq := rfl
@[simp] theorem State.withCommand_rxSeq (w : Word) : (s.withCommand w).rxSeq = s.rxSeq := rfl
@[simp] theorem State.withCommand_tSend (w : Word) : (s.withCommand w).tSend = s.tSend := rfl
@[simp] theorem State.withCommand_retry (w : Word) : (s.withCommand w).retry = s.retry := rfl
@[simp] theorem State.withCommand_lastDest (w : Word) : (s.withCommand w).lastDest = s.lastDest :=
    rfl
@[simp] theorem State.withCommand_txLen (w : Word) : (s.withCommand w).txLen = s.txLen := rfl
@[simp] theorem State.withCommand_stats (w : Word) : (s.withCommand w).stats = s.stats := rfl
@[simp] theorem State.withCommand_mem (w : Word) : (s.withCommand w).mem = s.mem := rfl
@[simp] theorem State.withCommand_now (w : Word) : (s.withCommand w).now = s.now := rfl
@[simp] theorem State.withCommand_spans (w : Word) : (s.withCommand w).spans = s.spans := rfl
@[simp] theorem State.withCommand_reads (w : Word) : (s.withCommand w).reads = s.reads := rfl
@[simp] theorem State.withCommand_pending (w : Word) : (s.withCommand w).pending = { op := .write 0x0000 4 w, now := s.now } :: s.pending :=
    rfl
@[simp] theorem State.withCommand_powerOns (w : Word) : (s.withCommand w).powerOns = s.powerOns :=
    rfl
@[simp] theorem State.withCommand_tx (w : Word) : (s.withCommand w).tx = s.tx := rfl
@[simp] theorem State.withCommand_rx (w : Word) : (s.withCommand w).rx = s.rx := rfl

/-! ### resend -/

@[simp] theorem State.resend_params : (s.resend).params = s.params := rfl
@[simp] theorem State.resend_cmd : (s.resend).cmd = s.cmd := rfl
@[simp] theorem State.resend_delayCfg : (s.resend).delayCfg = s.delayCfg := rfl
@[simp] theorem State.resend_initDone : (s.resend).initDone = s.initDone := rfl
@[simp] theorem State.resend_role : (s.resend).role = s.role := rfl
@[simp] theorem State.resend_ackPending : (s.resend).ackPending = s.ackPending := rfl
@[simp] theorem State.resend_cmdErr : (s.resend).cmdErr = s.cmdErr := rfl
@[simp] theorem State.resend_result : (s.resend).result = s.result := rfl
@[simp] theorem State.resend_localAddr : (s.resend).localAddr = s.localAddr := rfl
@[simp] theorem State.resend_peerAddr : (s.resend).peerAddr = s.peerAddr := rfl
@[simp] theorem State.resend_maxDelay : (s.resend).maxDelay = s.maxDelay := rfl
@[simp] theorem State.resend_txSeq : (s.resend).txSeq = s.txSeq := rfl
@[simp] theorem State.resend_rxSeq : (s.resend).rxSeq = s.rxSeq := rfl
@[simp] theorem State.resend_tSend : (s.resend).tSend = s.tSend := rfl
@[simp] theorem State.resend_retry : (s.resend).retry = s.retry := rfl
@[simp] theorem State.resend_lastDest : (s.resend).lastDest = s.lastDest := rfl
@[simp] theorem State.resend_txLen : (s.resend).txLen = s.txLen := rfl
@[simp] theorem State.resend_stats : (s.resend).stats = s.stats.bump .txResend := rfl
@[simp] theorem State.resend_mem : (s.resend).mem = s.mem := rfl
@[simp] theorem State.resend_now : (s.resend).now = s.now := rfl
@[simp] theorem State.resend_spans : (s.resend).spans = s.spans ++ [s.txSpan s.txLen] := rfl
@[simp] theorem State.resend_reads : (s.resend).reads = s.reads := rfl
@[simp] theorem State.resend_pending : (s.resend).pending = s.pending := rfl
@[simp] theorem State.resend_powerOns : (s.resend).powerOns = s.powerOns := rfl
@[simp] theorem State.resend_tx : (s.resend).tx = s.tx := rfl
@[simp] theorem State.resend_rx : (s.resend).rx = s.rx := rfl

/-! ### initialized -/

@[simp] theorem State.initialized_params (role : Role) (localAddr peerAddr : Byte) : (s.initialized role localAddr peerAddr).params = s.params :=
    rfl
@[simp] theorem State.initialized_cmd (role : Role) (localAddr peerAddr : Byte) : (s.initialized role localAddr peerAddr).cmd = s.cmd :=
    rfl
@[simp] theorem State.initialized_delayCfg (role : Role) (localAddr peerAddr : Byte) : (s.initialized role localAddr peerAddr).delayCfg = s.delayCfg :=
    rfl
@[simp] theorem State.initialized_initDone (role : Role) (localAddr peerAddr : Byte) : (s.initialized role localAddr peerAddr).initDone = true :=
    rfl
@[simp] theorem State.initialized_role (role : Role) (localAddr peerAddr : Byte) : (s.initialized role localAddr peerAddr).role = role :=
    rfl
@[simp] theorem State.initialized_ackPending (role : Role) (localAddr peerAddr : Byte) : (s.initialized role localAddr peerAddr).ackPending = false :=
    rfl
@[simp] theorem State.initialized_cmdErr (role : Role) (localAddr peerAddr : Byte) : (s.initialized role localAddr peerAddr).cmdErr = s.cmdErr :=
    rfl
@[simp] theorem State.initialized_result (role : Role) (localAddr peerAddr : Byte) : (s.initialized role localAddr peerAddr).result = s.result :=
    rfl
@[simp] theorem State.initialized_localAddr (role : Role) (localAddr peerAddr : Byte) : (s.initialized role localAddr peerAddr).localAddr = localAddr :=
    rfl
@[simp] theorem State.initialized_peerAddr (role : Role) (localAddr peerAddr : Byte) : (s.initialized role localAddr peerAddr).peerAddr = peerAddr :=
    rfl
@[simp] theorem State.initialized_maxDelay (role : Role) (localAddr peerAddr : Byte) : (s.initialized role localAddr peerAddr).maxDelay = s.delayCfg :=
    rfl
@[simp] theorem State.initialized_txSeq (role : Role) (localAddr peerAddr : Byte) : (s.initialized role localAddr peerAddr).txSeq = 0 :=
    rfl
@[simp] theorem State.initialized_rxSeq (role : Role) (localAddr peerAddr : Byte) : (s.initialized role localAddr peerAddr).rxSeq = 0 :=
    rfl
@[simp] theorem State.initialized_tSend (role : Role) (localAddr peerAddr : Byte) : (s.initialized role localAddr peerAddr).tSend = 0 :=
    rfl
@[simp] theorem State.initialized_retry (role : Role) (localAddr peerAddr : Byte) : (s.initialized role localAddr peerAddr).retry = 0 :=
    rfl
@[simp] theorem State.initialized_lastDest (role : Role) (localAddr peerAddr : Byte) : (s.initialized role localAddr peerAddr).lastDest = 0 :=
    rfl
@[simp] theorem State.initialized_txLen (role : Role) (localAddr peerAddr : Byte) : (s.initialized role localAddr peerAddr).txLen = 0 :=
    rfl
@[simp] theorem State.initialized_stats (role : Role) (localAddr peerAddr : Byte) : (s.initialized role localAddr peerAddr).stats = {} :=
    rfl
@[simp] theorem State.initialized_mem (role : Role) (localAddr peerAddr : Byte) : (s.initialized role localAddr peerAddr).mem = .zeroed :=
    rfl
@[simp] theorem State.initialized_now (role : Role) (localAddr peerAddr : Byte) : (s.initialized role localAddr peerAddr).now = s.now :=
    rfl
@[simp] theorem State.initialized_spans (role : Role) (localAddr peerAddr : Byte) : (s.initialized role localAddr peerAddr).spans = s.spans :=
    rfl
@[simp] theorem State.initialized_reads (role : Role) (localAddr peerAddr : Byte) : (s.initialized role localAddr peerAddr).reads = s.reads :=
    rfl
@[simp] theorem State.initialized_pending (role : Role) (localAddr peerAddr : Byte) : (s.initialized role localAddr peerAddr).pending = s.pending :=
    rfl
@[simp] theorem State.initialized_powerOns (role : Role) (localAddr peerAddr : Byte) : (s.initialized role localAddr peerAddr).powerOns = s.powerOns :=
    rfl

/-! ### powerOnReset -/

@[simp] theorem State.powerOnReset_params : (s.powerOnReset).params = s.params := rfl
@[simp] theorem State.powerOnReset_cmd : (s.powerOnReset).cmd = 0 := rfl
@[simp] theorem State.powerOnReset_delayCfg : (s.powerOnReset).delayCfg = 0 := rfl
@[simp] theorem State.powerOnReset_initDone : (s.powerOnReset).initDone = false := rfl
@[simp] theorem State.powerOnReset_role : (s.powerOnReset).role = .master := rfl
@[simp] theorem State.powerOnReset_ackPending : (s.powerOnReset).ackPending = false := rfl
@[simp] theorem State.powerOnReset_cmdErr : (s.powerOnReset).cmdErr = .ok := rfl
@[simp] theorem State.powerOnReset_result : (s.powerOnReset).result = 0 := rfl
@[simp] theorem State.powerOnReset_localAddr : (s.powerOnReset).localAddr = 0 := rfl
@[simp] theorem State.powerOnReset_peerAddr : (s.powerOnReset).peerAddr = 0 := rfl
@[simp] theorem State.powerOnReset_maxDelay : (s.powerOnReset).maxDelay = 0 := rfl
@[simp] theorem State.powerOnReset_txSeq : (s.powerOnReset).txSeq = 0 := rfl
@[simp] theorem State.powerOnReset_rxSeq : (s.powerOnReset).rxSeq = 0 := rfl
@[simp] theorem State.powerOnReset_tSend : (s.powerOnReset).tSend = 0 := rfl
@[simp] theorem State.powerOnReset_retry : (s.powerOnReset).retry = 0 := rfl
@[simp] theorem State.powerOnReset_lastDest : (s.powerOnReset).lastDest = 0 := rfl
@[simp] theorem State.powerOnReset_txLen : (s.powerOnReset).txLen = 0 := rfl
@[simp] theorem State.powerOnReset_stats : (s.powerOnReset).stats = {} := rfl
@[simp] theorem State.powerOnReset_mem : (s.powerOnReset).mem = .unspecified (s.powerOns + 1) := rfl
@[simp] theorem State.powerOnReset_now : (s.powerOnReset).now = s.now := rfl
@[simp] theorem State.powerOnReset_spans : (s.powerOnReset).spans = s.spans := rfl
@[simp] theorem State.powerOnReset_reads : (s.powerOnReset).reads = s.reads := rfl
@[simp] theorem State.powerOnReset_pending : (s.powerOnReset).pending = s.pending := rfl
@[simp] theorem State.powerOnReset_powerOns : (s.powerOnReset).powerOns = s.powerOns + 1 := rfl

/-! ### buildFrame -/

@[simp] theorem State.buildFrame_params (dest : Byte) (seq len : Half) : (s.buildFrame dest seq len).params = s.params :=
    by simp [State.buildFrame]
@[simp] theorem State.buildFrame_cmd (dest : Byte) (seq len : Half) : (s.buildFrame dest seq len).cmd = s.cmd :=
    by simp [State.buildFrame]
@[simp] theorem State.buildFrame_delayCfg (dest : Byte) (seq len : Half) : (s.buildFrame dest seq len).delayCfg = s.delayCfg :=
    by simp [State.buildFrame]
@[simp] theorem State.buildFrame_initDone (dest : Byte) (seq len : Half) : (s.buildFrame dest seq len).initDone = s.initDone :=
    by simp [State.buildFrame]
@[simp] theorem State.buildFrame_role (dest : Byte) (seq len : Half) : (s.buildFrame dest seq len).role = s.role :=
    by simp [State.buildFrame]
@[simp] theorem State.buildFrame_ackPending (dest : Byte) (seq len : Half) : (s.buildFrame dest seq len).ackPending = s.ackPending :=
    by simp [State.buildFrame]
@[simp] theorem State.buildFrame_cmdErr (dest : Byte) (seq len : Half) : (s.buildFrame dest seq len).cmdErr = s.cmdErr :=
    by simp [State.buildFrame]
@[simp] theorem State.buildFrame_result (dest : Byte) (seq len : Half) : (s.buildFrame dest seq len).result = s.result :=
    by simp [State.buildFrame]
@[simp] theorem State.buildFrame_localAddr (dest : Byte) (seq len : Half) : (s.buildFrame dest seq len).localAddr = s.localAddr :=
    by simp [State.buildFrame]
@[simp] theorem State.buildFrame_peerAddr (dest : Byte) (seq len : Half) : (s.buildFrame dest seq len).peerAddr = s.peerAddr :=
    by simp [State.buildFrame]
@[simp] theorem State.buildFrame_maxDelay (dest : Byte) (seq len : Half) : (s.buildFrame dest seq len).maxDelay = s.maxDelay :=
    by simp [State.buildFrame]
@[simp] theorem State.buildFrame_txSeq (dest : Byte) (seq len : Half) : (s.buildFrame dest seq len).txSeq = s.txSeq :=
    by simp [State.buildFrame]
@[simp] theorem State.buildFrame_rxSeq (dest : Byte) (seq len : Half) : (s.buildFrame dest seq len).rxSeq = s.rxSeq :=
    by simp [State.buildFrame]
@[simp] theorem State.buildFrame_tSend (dest : Byte) (seq len : Half) : (s.buildFrame dest seq len).tSend = s.tSend :=
    by simp [State.buildFrame]
@[simp] theorem State.buildFrame_retry (dest : Byte) (seq len : Half) : (s.buildFrame dest seq len).retry = s.retry :=
    by simp [State.buildFrame]
@[simp] theorem State.buildFrame_lastDest (dest : Byte) (seq len : Half) : (s.buildFrame dest seq len).lastDest = s.lastDest :=
    by simp [State.buildFrame]
@[simp] theorem State.buildFrame_txLen (dest : Byte) (seq len : Half) : (s.buildFrame dest seq len).txLen = s.txLen :=
    by simp [State.buildFrame]
@[simp] theorem State.buildFrame_stats (dest : Byte) (seq len : Half) : (s.buildFrame dest seq len).stats = s.stats :=
    by simp [State.buildFrame]
@[simp] theorem State.buildFrame_now (dest : Byte) (seq len : Half) : (s.buildFrame dest seq len).now = s.now :=
    by simp [State.buildFrame]
@[simp] theorem State.buildFrame_spans (dest : Byte) (seq len : Half) : (s.buildFrame dest seq len).spans = s.spans :=
    by simp [State.buildFrame]
@[simp] theorem State.buildFrame_reads (dest : Byte) (seq len : Half) : (s.buildFrame dest seq len).reads = s.reads :=
    by simp [State.buildFrame]
@[simp] theorem State.buildFrame_pending (dest : Byte) (seq len : Half) : (s.buildFrame dest seq len).pending = s.pending :=
    by simp [State.buildFrame]
@[simp] theorem State.buildFrame_powerOns (dest : Byte) (seq len : Half) : (s.buildFrame dest seq len).powerOns = s.powerOns :=
    by simp [State.buildFrame]

/-! ### rejected -/

@[simp] theorem State.rejected_params (c : Counter) (code : Nat) : (s.rejected c code).params = s.params :=
    rfl
@[simp] theorem State.rejected_cmd (c : Counter) (code : Nat) : (s.rejected c code).cmd = s.cmd :=
    rfl
@[simp] theorem State.rejected_delayCfg (c : Counter) (code : Nat) : (s.rejected c code).delayCfg = s.delayCfg :=
    rfl
@[simp] theorem State.rejected_initDone (c : Counter) (code : Nat) : (s.rejected c code).initDone = s.initDone :=
    rfl
@[simp] theorem State.rejected_role (c : Counter) (code : Nat) : (s.rejected c code).role = s.role :=
    rfl
@[simp] theorem State.rejected_ackPending (c : Counter) (code : Nat) : (s.rejected c code).ackPending = s.ackPending :=
    rfl
@[simp] theorem State.rejected_cmdErr (c : Counter) (code : Nat) : (s.rejected c code).cmdErr = .ok :=
    rfl
@[simp] theorem State.rejected_result (c : Counter) (code : Nat) : (s.rejected c code).result = BitVec.ofNat 32 code :=
    rfl
@[simp] theorem State.rejected_localAddr (c : Counter) (code : Nat) : (s.rejected c code).localAddr = s.localAddr :=
    rfl
@[simp] theorem State.rejected_peerAddr (c : Counter) (code : Nat) : (s.rejected c code).peerAddr = s.peerAddr :=
    rfl
@[simp] theorem State.rejected_maxDelay (c : Counter) (code : Nat) : (s.rejected c code).maxDelay = s.maxDelay :=
    rfl
@[simp] theorem State.rejected_txSeq (c : Counter) (code : Nat) : (s.rejected c code).txSeq = s.txSeq :=
    rfl
@[simp] theorem State.rejected_rxSeq (c : Counter) (code : Nat) : (s.rejected c code).rxSeq = s.rxSeq :=
    rfl
@[simp] theorem State.rejected_tSend (c : Counter) (code : Nat) : (s.rejected c code).tSend = s.tSend :=
    rfl
@[simp] theorem State.rejected_retry (c : Counter) (code : Nat) : (s.rejected c code).retry = s.retry :=
    rfl
@[simp] theorem State.rejected_lastDest (c : Counter) (code : Nat) : (s.rejected c code).lastDest = s.lastDest :=
    rfl
@[simp] theorem State.rejected_txLen (c : Counter) (code : Nat) : (s.rejected c code).txLen = s.txLen :=
    rfl
@[simp] theorem State.rejected_stats (c : Counter) (code : Nat) : (s.rejected c code).stats = s.stats.bump c :=
    rfl
@[simp] theorem State.rejected_mem (c : Counter) (code : Nat) : (s.rejected c code).mem = s.mem :=
    rfl
@[simp] theorem State.rejected_now (c : Counter) (code : Nat) : (s.rejected c code).now = s.now :=
    rfl
@[simp] theorem State.rejected_spans (c : Counter) (code : Nat) : (s.rejected c code).spans = s.spans :=
    rfl
@[simp] theorem State.rejected_reads (c : Counter) (code : Nat) : (s.rejected c code).reads = s.reads :=
    rfl
@[simp] theorem State.rejected_pending (c : Counter) (code : Nat) : (s.rejected c code).pending = s.pending :=
    rfl
@[simp] theorem State.rejected_powerOns (c : Counter) (code : Nat) : (s.rejected c code).powerOns = s.powerOns :=
    rfl
@[simp] theorem State.rejected_tx (c : Counter) (code : Nat) : (s.rejected c code).tx = s.tx := rfl
@[simp] theorem State.rejected_rx (c : Counter) (code : Nat) : (s.rejected c code).rx = s.rx := rfl

/-! ### restamp -/

@[simp] theorem State.restamp_params : (s.restamp).params = s.params :=
    by unfold State.restamp; split <;> rfl
@[simp] theorem State.restamp_cmd : (s.restamp).cmd = s.cmd :=
    by unfold State.restamp; split <;> rfl
@[simp] theorem State.restamp_delayCfg : (s.restamp).delayCfg = s.delayCfg :=
    by unfold State.restamp; split <;> rfl
@[simp] theorem State.restamp_initDone : (s.restamp).initDone = s.initDone :=
    by unfold State.restamp; split <;> rfl
@[simp] theorem State.restamp_role : (s.restamp).role = s.role :=
    by unfold State.restamp; split <;> rfl
@[simp] theorem State.restamp_ackPending : (s.restamp).ackPending = s.ackPending :=
    by unfold State.restamp; split <;> rfl
@[simp] theorem State.restamp_cmdErr : (s.restamp).cmdErr = s.cmdErr :=
    by unfold State.restamp; split <;> rfl
@[simp] theorem State.restamp_result : (s.restamp).result = s.result :=
    by unfold State.restamp; split <;> rfl
@[simp] theorem State.restamp_localAddr : (s.restamp).localAddr = s.localAddr :=
    by unfold State.restamp; split <;> rfl
@[simp] theorem State.restamp_peerAddr : (s.restamp).peerAddr = s.peerAddr :=
    by unfold State.restamp; split <;> rfl
@[simp] theorem State.restamp_maxDelay : (s.restamp).maxDelay = s.maxDelay :=
    by unfold State.restamp; split <;> rfl
@[simp] theorem State.restamp_txSeq : (s.restamp).txSeq = s.txSeq :=
    by unfold State.restamp; split <;> rfl
@[simp] theorem State.restamp_rxSeq : (s.restamp).rxSeq = s.rxSeq :=
    by unfold State.restamp; split <;> rfl
@[simp] theorem State.restamp_tSend : (s.restamp).tSend = if s.params.restampOnResend then s.now else s.tSend :=
    by unfold State.restamp; split <;> rfl
@[simp] theorem State.restamp_retry : (s.restamp).retry = s.retry :=
    by unfold State.restamp; split <;> rfl
@[simp] theorem State.restamp_lastDest : (s.restamp).lastDest = s.lastDest :=
    by unfold State.restamp; split <;> rfl
@[simp] theorem State.restamp_txLen : (s.restamp).txLen = s.txLen :=
    by unfold State.restamp; split <;> rfl
@[simp] theorem State.restamp_stats : (s.restamp).stats = s.stats :=
    by unfold State.restamp; split <;> rfl
@[simp] theorem State.restamp_mem : (s.restamp).mem = s.mem :=
    by unfold State.restamp; split <;> rfl
@[simp] theorem State.restamp_now : (s.restamp).now = s.now :=
    by unfold State.restamp; split <;> rfl
@[simp] theorem State.restamp_spans : (s.restamp).spans = s.spans :=
    by unfold State.restamp; split <;> rfl
@[simp] theorem State.restamp_reads : (s.restamp).reads = s.reads :=
    by unfold State.restamp; split <;> rfl
@[simp] theorem State.restamp_pending : (s.restamp).pending = s.pending :=
    by unfold State.restamp; split <;> rfl
@[simp] theorem State.restamp_powerOns : (s.restamp).powerOns = s.powerOns :=
    by unfold State.restamp; split <;> rfl
@[simp] theorem State.restamp_tx : (s.restamp).tx = s.tx := by unfold State.restamp; split <;> rfl
@[simp] theorem State.restamp_rx : (s.restamp).rx = s.rx := by unfold State.restamp; split <;> rfl

/-! ### recordSend -/

@[simp] theorem State.recordSend_params (dest : Byte) : (s.recordSend dest).params = s.params :=
    by unfold State.recordSend; split <;> rfl
@[simp] theorem State.recordSend_cmd (dest : Byte) : (s.recordSend dest).cmd = s.cmd :=
    by unfold State.recordSend; split <;> rfl
@[simp] theorem State.recordSend_delayCfg (dest : Byte) : (s.recordSend dest).delayCfg = s.delayCfg :=
    by unfold State.recordSend; split <;> rfl
@[simp] theorem State.recordSend_initDone (dest : Byte) : (s.recordSend dest).initDone = s.initDone :=
    by unfold State.recordSend; split <;> rfl
@[simp] theorem State.recordSend_role (dest : Byte) : (s.recordSend dest).role = s.role :=
    by unfold State.recordSend; split <;> rfl
@[simp] theorem State.recordSend_cmdErr (dest : Byte) : (s.recordSend dest).cmdErr = s.cmdErr :=
    by unfold State.recordSend; split <;> rfl
@[simp] theorem State.recordSend_result (dest : Byte) : (s.recordSend dest).result = s.result :=
    by unfold State.recordSend; split <;> rfl
@[simp] theorem State.recordSend_localAddr (dest : Byte) : (s.recordSend dest).localAddr = s.localAddr :=
    by unfold State.recordSend; split <;> rfl
@[simp] theorem State.recordSend_peerAddr (dest : Byte) : (s.recordSend dest).peerAddr = s.peerAddr :=
    by unfold State.recordSend; split <;> rfl
@[simp] theorem State.recordSend_maxDelay (dest : Byte) : (s.recordSend dest).maxDelay = s.maxDelay :=
    by unfold State.recordSend; split <;> rfl
@[simp] theorem State.recordSend_rxSeq (dest : Byte) : (s.recordSend dest).rxSeq = s.rxSeq :=
    by unfold State.recordSend; split <;> rfl
@[simp] theorem State.recordSend_retry (dest : Byte) : (s.recordSend dest).retry = s.retry :=
    by unfold State.recordSend; split <;> rfl
@[simp] theorem State.recordSend_txLen (dest : Byte) : (s.recordSend dest).txLen = s.txLen :=
    by unfold State.recordSend; split <;> rfl
@[simp] theorem State.recordSend_stats (dest : Byte) : (s.recordSend dest).stats = s.stats :=
    by unfold State.recordSend; split <;> rfl
@[simp] theorem State.recordSend_mem (dest : Byte) : (s.recordSend dest).mem = s.mem :=
    by unfold State.recordSend; split <;> rfl
@[simp] theorem State.recordSend_now (dest : Byte) : (s.recordSend dest).now = s.now :=
    by unfold State.recordSend; split <;> rfl
@[simp] theorem State.recordSend_spans (dest : Byte) : (s.recordSend dest).spans = s.spans :=
    by unfold State.recordSend; split <;> rfl
@[simp] theorem State.recordSend_reads (dest : Byte) : (s.recordSend dest).reads = s.reads :=
    by unfold State.recordSend; split <;> rfl
@[simp] theorem State.recordSend_pending (dest : Byte) : (s.recordSend dest).pending = s.pending :=
    by unfold State.recordSend; split <;> rfl
@[simp] theorem State.recordSend_powerOns (dest : Byte) : (s.recordSend dest).powerOns = s.powerOns :=
    by unfold State.recordSend; split <;> rfl
@[simp] theorem State.recordSend_tx (dest : Byte) : (s.recordSend dest).tx = s.tx :=
    by unfold State.recordSend; split <;> rfl
@[simp] theorem State.recordSend_rx (dest : Byte) : (s.recordSend dest).rx = s.rx :=
    by unfold State.recordSend; split <;> rfl

/-! ### acceptFrame -/

@[simp] theorem State.acceptFrame_params : (s.acceptFrame).params = s.params :=
    by unfold State.acceptFrame; split <;> rfl
@[simp] theorem State.acceptFrame_cmd : (s.acceptFrame).cmd = s.cmd :=
    by unfold State.acceptFrame; split <;> rfl
@[simp] theorem State.acceptFrame_delayCfg : (s.acceptFrame).delayCfg = s.delayCfg :=
    by unfold State.acceptFrame; split <;> rfl
@[simp] theorem State.acceptFrame_initDone : (s.acceptFrame).initDone = s.initDone :=
    by unfold State.acceptFrame; split <;> rfl
@[simp] theorem State.acceptFrame_role : (s.acceptFrame).role = s.role :=
    by unfold State.acceptFrame; split <;> rfl
@[simp] theorem State.acceptFrame_cmdErr : (s.acceptFrame).cmdErr = s.cmdErr :=
    by unfold State.acceptFrame; split <;> rfl
@[simp] theorem State.acceptFrame_result : (s.acceptFrame).result = s.result :=
    by unfold State.acceptFrame; split <;> rfl
@[simp] theorem State.acceptFrame_localAddr : (s.acceptFrame).localAddr = s.localAddr :=
    by unfold State.acceptFrame; split <;> rfl
@[simp] theorem State.acceptFrame_peerAddr : (s.acceptFrame).peerAddr = s.peerAddr :=
    by unfold State.acceptFrame; split <;> rfl
@[simp] theorem State.acceptFrame_maxDelay : (s.acceptFrame).maxDelay = s.maxDelay :=
    by unfold State.acceptFrame; split <;> rfl
@[simp] theorem State.acceptFrame_txSeq : (s.acceptFrame).txSeq = s.txSeq :=
    by unfold State.acceptFrame; split <;> rfl
@[simp] theorem State.acceptFrame_tSend : (s.acceptFrame).tSend = s.tSend :=
    by unfold State.acceptFrame; split <;> rfl
@[simp] theorem State.acceptFrame_lastDest : (s.acceptFrame).lastDest = s.lastDest :=
    by unfold State.acceptFrame; split <;> rfl
@[simp] theorem State.acceptFrame_txLen : (s.acceptFrame).txLen = s.txLen :=
    by unfold State.acceptFrame; split <;> rfl
@[simp] theorem State.acceptFrame_stats : (s.acceptFrame).stats = s.stats :=
    by unfold State.acceptFrame; split <;> rfl
@[simp] theorem State.acceptFrame_mem : (s.acceptFrame).mem = s.mem :=
    by unfold State.acceptFrame; split <;> rfl
@[simp] theorem State.acceptFrame_now : (s.acceptFrame).now = s.now :=
    by unfold State.acceptFrame; split <;> rfl
@[simp] theorem State.acceptFrame_spans : (s.acceptFrame).spans = s.spans :=
    by unfold State.acceptFrame; split <;> rfl
@[simp] theorem State.acceptFrame_reads : (s.acceptFrame).reads = s.reads :=
    by unfold State.acceptFrame; split <;> rfl
@[simp] theorem State.acceptFrame_pending : (s.acceptFrame).pending = s.pending :=
    by unfold State.acceptFrame; split <;> rfl
@[simp] theorem State.acceptFrame_powerOns : (s.acceptFrame).powerOns = s.powerOns :=
    by unfold State.acceptFrame; split <;> rfl
@[simp] theorem State.acceptFrame_tx : (s.acceptFrame).tx = s.tx :=
    by unfold State.acceptFrame; split <;> rfl
@[simp] theorem State.acceptFrame_rx : (s.acceptFrame).rx = s.rx :=
    by unfold State.acceptFrame; split <;> rfl

/-! ### react -/

@[simp] theorem State.react_params (o : RxOutcome) : (s.react o).params = s.params :=
    by cases o <;> simp [State.react]
@[simp] theorem State.react_cmd (o : RxOutcome) : (s.react o).cmd = s.cmd :=
    by cases o <;> simp [State.react]
@[simp] theorem State.react_delayCfg (o : RxOutcome) : (s.react o).delayCfg = s.delayCfg :=
    by cases o <;> simp [State.react]
@[simp] theorem State.react_initDone (o : RxOutcome) : (s.react o).initDone = s.initDone :=
    by cases o <;> simp [State.react]
@[simp] theorem State.react_role (o : RxOutcome) : (s.react o).role = s.role :=
    by cases o <;> simp [State.react]
@[simp] theorem State.react_cmdErr (o : RxOutcome) : (s.react o).cmdErr = s.cmdErr :=
    by cases o <;> simp [State.react]
@[simp] theorem State.react_result (o : RxOutcome) : (s.react o).result = s.result :=
    by cases o <;> simp [State.react]
@[simp] theorem State.react_localAddr (o : RxOutcome) : (s.react o).localAddr = s.localAddr :=
    by cases o <;> simp [State.react]
@[simp] theorem State.react_peerAddr (o : RxOutcome) : (s.react o).peerAddr = s.peerAddr :=
    by cases o <;> simp [State.react]
@[simp] theorem State.react_maxDelay (o : RxOutcome) : (s.react o).maxDelay = s.maxDelay :=
    by cases o <;> simp [State.react]
@[simp] theorem State.react_txSeq (o : RxOutcome) : (s.react o).txSeq = s.txSeq :=
    by cases o <;> simp [State.react]
@[simp] theorem State.react_tSend (o : RxOutcome) : (s.react o).tSend = s.tSend :=
    by cases o <;> simp [State.react]
@[simp] theorem State.react_lastDest (o : RxOutcome) : (s.react o).lastDest = s.lastDest :=
    by cases o <;> simp [State.react]
@[simp] theorem State.react_txLen (o : RxOutcome) : (s.react o).txLen = s.txLen :=
    by cases o <;> simp [State.react]
@[simp] theorem State.react_mem (o : RxOutcome) : (s.react o).mem = s.mem :=
    by cases o <;> simp [State.react]
@[simp] theorem State.react_now (o : RxOutcome) : (s.react o).now = s.now :=
    by cases o <;> simp [State.react]
@[simp] theorem State.react_reads (o : RxOutcome) : (s.react o).reads = s.reads :=
    by cases o <;> simp [State.react]
@[simp] theorem State.react_pending (o : RxOutcome) : (s.react o).pending = s.pending :=
    by cases o <;> simp [State.react]
@[simp] theorem State.react_powerOns (o : RxOutcome) : (s.react o).powerOns = s.powerOns :=
    by cases o <;> simp [State.react]
@[simp] theorem State.react_tx (o : RxOutcome) : (s.react o).tx = s.tx :=
    by cases o <;> simp [State.react]
@[simp] theorem State.react_rx (o : RxOutcome) : (s.react o).rx = s.rx :=
    by cases o <;> simp [State.react]

/-! ### sendNew -/

@[simp] theorem State.sendNew_params (dest : Byte) (len : Half) : (s.sendNew dest len).params = s.params :=
    by simp [State.sendNew]
@[simp] theorem State.sendNew_cmd (dest : Byte) (len : Half) : (s.sendNew dest len).cmd = s.cmd :=
    by simp [State.sendNew]
@[simp] theorem State.sendNew_delayCfg (dest : Byte) (len : Half) : (s.sendNew dest len).delayCfg = s.delayCfg :=
    by simp [State.sendNew]
@[simp] theorem State.sendNew_initDone (dest : Byte) (len : Half) : (s.sendNew dest len).initDone = s.initDone :=
    by simp [State.sendNew]
@[simp] theorem State.sendNew_role (dest : Byte) (len : Half) : (s.sendNew dest len).role = s.role :=
    by simp [State.sendNew]
@[simp] theorem State.sendNew_cmdErr (dest : Byte) (len : Half) : (s.sendNew dest len).cmdErr = .ok :=
    by simp [State.sendNew]
@[simp] theorem State.sendNew_result (dest : Byte) (len : Half) : (s.sendNew dest len).result = 0 :=
    by simp [State.sendNew]
@[simp] theorem State.sendNew_localAddr (dest : Byte) (len : Half) : (s.sendNew dest len).localAddr = s.localAddr :=
    by simp [State.sendNew]
@[simp] theorem State.sendNew_peerAddr (dest : Byte) (len : Half) : (s.sendNew dest len).peerAddr = s.peerAddr :=
    by simp [State.sendNew]
@[simp] theorem State.sendNew_maxDelay (dest : Byte) (len : Half) : (s.sendNew dest len).maxDelay = s.maxDelay :=
    by simp [State.sendNew]
@[simp] theorem State.sendNew_rxSeq (dest : Byte) (len : Half) : (s.sendNew dest len).rxSeq = s.rxSeq :=
    by simp [State.sendNew]
@[simp] theorem State.sendNew_retry (dest : Byte) (len : Half) : (s.sendNew dest len).retry = s.retry :=
    by simp [State.sendNew]
@[simp] theorem State.sendNew_txLen (dest : Byte) (len : Half) : (s.sendNew dest len).txLen = len :=
    by simp [State.sendNew]
@[simp] theorem State.sendNew_stats (dest : Byte) (len : Half) : (s.sendNew dest len).stats = s.stats.bump .txNew :=
    by simp [State.sendNew]
@[simp] theorem State.sendNew_now (dest : Byte) (len : Half) : (s.sendNew dest len).now = s.now :=
    by simp [State.sendNew]
@[simp] theorem State.sendNew_reads (dest : Byte) (len : Half) : (s.sendNew dest len).reads = s.reads :=
    by simp [State.sendNew]
@[simp] theorem State.sendNew_pending (dest : Byte) (len : Half) : (s.sendNew dest len).pending = s.pending :=
    by simp [State.sendNew]
@[simp] theorem State.sendNew_powerOns (dest : Byte) (len : Half) : (s.sendNew dest len).powerOns = s.powerOns :=
    by simp [State.sendNew]

/-! ### checkFrame -/

@[simp] theorem State.checkFrame_params : (s.checkFrame).params = s.params :=
    by simp [State.checkFrame]
@[simp] theorem State.checkFrame_cmd : (s.checkFrame).cmd = s.cmd := by simp [State.checkFrame]
@[simp] theorem State.checkFrame_delayCfg : (s.checkFrame).delayCfg = s.delayCfg :=
    by simp [State.checkFrame]
@[simp] theorem State.checkFrame_initDone : (s.checkFrame).initDone = s.initDone :=
    by simp [State.checkFrame]
@[simp] theorem State.checkFrame_role : (s.checkFrame).role = s.role := by simp [State.checkFrame]
@[simp] theorem State.checkFrame_cmdErr : (s.checkFrame).cmdErr = .ok := by simp [State.checkFrame]
@[simp] theorem State.checkFrame_result : (s.checkFrame).result = s.classify.code.setWidth 32 :=
    by simp [State.checkFrame]
@[simp] theorem State.checkFrame_localAddr : (s.checkFrame).localAddr = s.localAddr :=
    by simp [State.checkFrame]
@[simp] theorem State.checkFrame_peerAddr : (s.checkFrame).peerAddr = s.peerAddr :=
    by simp [State.checkFrame]
@[simp] theorem State.checkFrame_maxDelay : (s.checkFrame).maxDelay = s.maxDelay :=
    by simp [State.checkFrame]
@[simp] theorem State.checkFrame_txSeq : (s.checkFrame).txSeq = s.txSeq :=
    by simp [State.checkFrame]
@[simp] theorem State.checkFrame_tSend : (s.checkFrame).tSend = s.tSend :=
    by simp [State.checkFrame]
@[simp] theorem State.checkFrame_lastDest : (s.checkFrame).lastDest = s.lastDest :=
    by simp [State.checkFrame]
@[simp] theorem State.checkFrame_txLen : (s.checkFrame).txLen = s.txLen :=
    by simp [State.checkFrame]
@[simp] theorem State.checkFrame_mem : (s.checkFrame).mem = s.mem := by simp [State.checkFrame]
@[simp] theorem State.checkFrame_now : (s.checkFrame).now = s.now := by simp [State.checkFrame]
@[simp] theorem State.checkFrame_reads : (s.checkFrame).reads = s.reads :=
    by simp [State.checkFrame]
@[simp] theorem State.checkFrame_pending : (s.checkFrame).pending = s.pending :=
    by simp [State.checkFrame]
@[simp] theorem State.checkFrame_powerOns : (s.checkFrame).powerOns = s.powerOns :=
    by simp [State.checkFrame]
@[simp] theorem State.checkFrame_tx : (s.checkFrame).tx = s.tx := by simp [State.checkFrame]
@[simp] theorem State.checkFrame_rx : (s.checkFrame).rx = s.rx := by simp [State.checkFrame]

/-! ### pollTimeout -/

@[simp] theorem State.pollTimeout_params : (s.pollTimeout).params = s.params :=
    by unfold State.pollTimeout; split <;> simp
@[simp] theorem State.pollTimeout_cmd : (s.pollTimeout).cmd = s.cmd :=
    by unfold State.pollTimeout; split <;> simp
@[simp] theorem State.pollTimeout_delayCfg : (s.pollTimeout).delayCfg = s.delayCfg :=
    by unfold State.pollTimeout; split <;> simp
@[simp] theorem State.pollTimeout_initDone : (s.pollTimeout).initDone = s.initDone :=
    by unfold State.pollTimeout; split <;> simp
@[simp] theorem State.pollTimeout_role : (s.pollTimeout).role = s.role :=
    by unfold State.pollTimeout; split <;> simp
@[simp] theorem State.pollTimeout_ackPending : (s.pollTimeout).ackPending = s.ackPending :=
    by unfold State.pollTimeout; split <;> simp
@[simp] theorem State.pollTimeout_cmdErr : (s.pollTimeout).cmdErr = .ok :=
    by unfold State.pollTimeout; split <;> simp
@[simp] theorem State.pollTimeout_result : (s.pollTimeout).result = s.pollTimeout.retry :=
    by unfold State.pollTimeout; split <;> simp
@[simp] theorem State.pollTimeout_localAddr : (s.pollTimeout).localAddr = s.localAddr :=
    by unfold State.pollTimeout; split <;> simp
@[simp] theorem State.pollTimeout_peerAddr : (s.pollTimeout).peerAddr = s.peerAddr :=
    by unfold State.pollTimeout; split <;> simp
@[simp] theorem State.pollTimeout_maxDelay : (s.pollTimeout).maxDelay = s.maxDelay :=
    by unfold State.pollTimeout; split <;> simp
@[simp] theorem State.pollTimeout_txSeq : (s.pollTimeout).txSeq = s.txSeq :=
    by unfold State.pollTimeout; split <;> simp
@[simp] theorem State.pollTimeout_rxSeq : (s.pollTimeout).rxSeq = s.rxSeq :=
    by unfold State.pollTimeout; split <;> simp
@[simp] theorem State.pollTimeout_lastDest : (s.pollTimeout).lastDest = s.lastDest :=
    by unfold State.pollTimeout; split <;> simp
@[simp] theorem State.pollTimeout_txLen : (s.pollTimeout).txLen = s.txLen :=
    by unfold State.pollTimeout; split <;> simp
@[simp] theorem State.pollTimeout_mem : (s.pollTimeout).mem = s.mem :=
    by unfold State.pollTimeout; split <;> simp
@[simp] theorem State.pollTimeout_now : (s.pollTimeout).now = s.now :=
    by unfold State.pollTimeout; split <;> simp
@[simp] theorem State.pollTimeout_reads : (s.pollTimeout).reads = s.reads :=
    by unfold State.pollTimeout; split <;> simp
@[simp] theorem State.pollTimeout_pending : (s.pollTimeout).pending = s.pending :=
    by unfold State.pollTimeout; split <;> simp
@[simp] theorem State.pollTimeout_powerOns : (s.pollTimeout).powerOns = s.powerOns :=
    by unfold State.pollTimeout; split <;> simp
@[simp] theorem State.pollTimeout_tx : (s.pollTimeout).tx = s.tx :=
    by unfold State.pollTimeout; split <;> simp
@[simp] theorem State.pollTimeout_rx : (s.pollTimeout).rx = s.rx :=
    by unfold State.pollTimeout; split <;> simp

/-! ### storeByte -/

@[simp] theorem State.storeByte_params (a : Nat) (v : Byte) : (s.storeByte a v).params = s.params :=
    by unfold State.storeByte; split <;> rfl
@[simp] theorem State.storeByte_cmd (a : Nat) (v : Byte) : (s.storeByte a v).cmd = s.cmd :=
    by unfold State.storeByte; split <;> rfl
@[simp] theorem State.storeByte_delayCfg (a : Nat) (v : Byte) : (s.storeByte a v).delayCfg = s.delayCfg :=
    by unfold State.storeByte; split <;> rfl
@[simp] theorem State.storeByte_initDone (a : Nat) (v : Byte) : (s.storeByte a v).initDone = s.initDone :=
    by unfold State.storeByte; split <;> rfl
@[simp] theorem State.storeByte_role (a : Nat) (v : Byte) : (s.storeByte a v).role = s.role :=
    by unfold State.storeByte; split <;> rfl
@[simp] theorem State.storeByte_ackPending (a : Nat) (v : Byte) : (s.storeByte a v).ackPending = s.ackPending :=
    by unfold State.storeByte; split <;> rfl
@[simp] theorem State.storeByte_cmdErr (a : Nat) (v : Byte) : (s.storeByte a v).cmdErr = s.cmdErr :=
    by unfold State.storeByte; split <;> rfl
@[simp] theorem State.storeByte_result (a : Nat) (v : Byte) : (s.storeByte a v).result = s.result :=
    by unfold State.storeByte; split <;> rfl
@[simp] theorem State.storeByte_localAddr (a : Nat) (v : Byte) : (s.storeByte a v).localAddr = s.localAddr :=
    by unfold State.storeByte; split <;> rfl
@[simp] theorem State.storeByte_peerAddr (a : Nat) (v : Byte) : (s.storeByte a v).peerAddr = s.peerAddr :=
    by unfold State.storeByte; split <;> rfl
@[simp] theorem State.storeByte_maxDelay (a : Nat) (v : Byte) : (s.storeByte a v).maxDelay = s.maxDelay :=
    by unfold State.storeByte; split <;> rfl
@[simp] theorem State.storeByte_txSeq (a : Nat) (v : Byte) : (s.storeByte a v).txSeq = s.txSeq :=
    by unfold State.storeByte; split <;> rfl
@[simp] theorem State.storeByte_rxSeq (a : Nat) (v : Byte) : (s.storeByte a v).rxSeq = s.rxSeq :=
    by unfold State.storeByte; split <;> rfl
@[simp] theorem State.storeByte_tSend (a : Nat) (v : Byte) : (s.storeByte a v).tSend = s.tSend :=
    by unfold State.storeByte; split <;> rfl
@[simp] theorem State.storeByte_retry (a : Nat) (v : Byte) : (s.storeByte a v).retry = s.retry :=
    by unfold State.storeByte; split <;> rfl
@[simp] theorem State.storeByte_lastDest (a : Nat) (v : Byte) : (s.storeByte a v).lastDest = s.lastDest :=
    by unfold State.storeByte; split <;> rfl
@[simp] theorem State.storeByte_txLen (a : Nat) (v : Byte) : (s.storeByte a v).txLen = s.txLen :=
    by unfold State.storeByte; split <;> rfl
@[simp] theorem State.storeByte_stats (a : Nat) (v : Byte) : (s.storeByte a v).stats = s.stats :=
    by unfold State.storeByte; split <;> rfl
@[simp] theorem State.storeByte_now (a : Nat) (v : Byte) : (s.storeByte a v).now = s.now :=
    by unfold State.storeByte; split <;> rfl
@[simp] theorem State.storeByte_spans (a : Nat) (v : Byte) : (s.storeByte a v).spans = s.spans :=
    by unfold State.storeByte; split <;> rfl
@[simp] theorem State.storeByte_reads (a : Nat) (v : Byte) : (s.storeByte a v).reads = s.reads :=
    by unfold State.storeByte; split <;> rfl
@[simp] theorem State.storeByte_pending (a : Nat) (v : Byte) : (s.storeByte a v).pending = s.pending :=
    by unfold State.storeByte; split <;> rfl
@[simp] theorem State.storeByte_powerOns (a : Nat) (v : Byte) : (s.storeByte a v).powerOns = s.powerOns :=
    by unfold State.storeByte; split <;> rfl

end Sys2Proof.Machine
end

