-- ==== Sys2Proof/Laws/Memory.lean ====
section
/-! SUPPORT. The laws of the buffer memory: a read after a write, every other address left alone, and the
canonical form kept by every memory operation. -/

namespace Sys2Proof.Machine

/-! ### Cells -/

theorem lookupCell_putCell (l : List Host.Cell) (a x : Nat) (v : Byte) :
    lookupCell (putCell l a v) x = if x = a then some v else lookupCell l x := by
  induction l with
  | nil =>
    by_cases h : x = a
    · simp [putCell, lookupCell, h]
    · have : a ≠ x := fun e => h e.symm
      simp [putCell, lookupCell, h, this]
  | cons c rest ih =>
    obtain ⟨k, b⟩ := c
    unfold putCell
    split
    · rename_i hlt
      by_cases h : x = a
      · simp [lookupCell, h]
      · have : a ≠ x := fun e => h e.symm
        simp [lookupCell, h, this]
    · split
      · rename_i heq
        subst heq
        by_cases h : x = a
        · simp [lookupCell, h]
        · have : a ≠ x := fun e => h e.symm
          simp [lookupCell, h, this]
      · rename_i hne
        by_cases h : k = x
        · have : x ≠ a := fun e => hne (e ▸ h.symm)
          simp [lookupCell, h, this]
        · simp [lookupCell, h, ih]

theorem lookupCell_dropCell (l : List Host.Cell) (a x : Nat) :
    lookupCell (dropCell l a) x = if x = a then none else lookupCell l x := by
  induction l with
  | nil => simp [dropCell, lookupCell]
  | cons c rest ih =>
    obtain ⟨k, b⟩ := c
    unfold dropCell
    split
    · rename_i heq
      subst heq
      by_cases h : x = k
      · rw [ih]; simp [h]
      · have : k ≠ x := fun e => h e.symm
        simp [ih, h, lookupCell, this]
    · rename_i hne
      by_cases h : k = x
      · have : x ≠ a := fun e => hne (h.trans e)
        simp [lookupCell, h, this]
      · simp [lookupCell, h, ih]

theorem risingFrom_putCell {l : List Host.Cell} {low a : Nat} {v : Byte}
    (h : risingFrom low l = true) (ha : low < a) : risingFrom low (putCell l a v) = true := by
  induction l generalizing low with
  | nil => simp [putCell, risingFrom, ha]
  | cons c rest ih =>
    obtain ⟨k, b⟩ := c
    simp only [risingFrom, Bool.and_eq_true, decide_eq_true_eq] at h
    unfold putCell
    split
    · rename_i hlt
      simp [risingFrom, ha, hlt, h.2]
    · split
      · rename_i heq
        subst heq
        simp [risingFrom, h.1, h.2]
      · simp [risingFrom, h.1, ih h.2 (by omega)]

theorem risingFrom_mono {l : List Host.Cell} {low low' : Nat} (h : risingFrom low l = true)
    (hl : low' ≤ low) : risingFrom low' l = true := by
  cases l with
  | nil => rfl
  | cons c rest =>
    obtain ⟨k, b⟩ := c
    simp only [risingFrom, Bool.and_eq_true, decide_eq_true_eq] at h ⊢
    exact ⟨by omega, h.2⟩

theorem risingFrom_dropCell {l : List Host.Cell} {low a : Nat} (h : risingFrom low l = true) :
    risingFrom low (dropCell l a) = true := by
  induction l generalizing low with
  | nil => rfl
  | cons c rest ih =>
    obtain ⟨k, b⟩ := c
    simp only [risingFrom, Bool.and_eq_true, decide_eq_true_eq] at h
    unfold dropCell
    split
    · exact risingFrom_mono (ih h.2) h.1.le
    · simp [risingFrom, h.1, ih h.2]

theorem mem_putCell {l : List Host.Cell} {a : Nat} {v : Byte} {c : Host.Cell}
    (h : c ∈ putCell l a v) : c = (a, v) ∨ c ∈ l := by
  induction l with
  | nil => simpa [putCell] using h
  | cons d rest ih =>
    obtain ⟨k, b⟩ := d
    unfold putCell at h
    split at h
    · simpa using h
    · split at h
      · rcases List.mem_cons.1 h with h | h
        · exact .inl h
        · exact .inr (List.mem_cons_of_mem _ h)
      · rcases List.mem_cons.1 h with h | h
        · exact .inr (h ▸ List.mem_cons_self)
        · exact (ih h).imp_right (List.mem_cons_of_mem _)

theorem mem_dropCell {l : List Host.Cell} {a : Nat} {c : Host.Cell} (h : c ∈ dropCell l a) : c ∈ l := by
  induction l with
  | nil => simp [dropCell] at h
  | cons d rest ih =>
    obtain ⟨k, b⟩ := d
    unfold dropCell at h
    split at h
    · exact List.mem_cons_of_mem _ (ih h)
    · rcases List.mem_cons.1 h with h | h
      · exact h ▸ List.mem_cons_self
      · exact List.mem_cons_of_mem _ (ih h)

theorem rising_of_risingFrom {l : List Host.Cell} {low : Nat} (h : risingFrom low l = true) :
    rising l = true := by
  cases l with
  | nil => rfl
  | cons c rest =>
    obtain ⟨k, b⟩ := c
    simp only [risingFrom, Bool.and_eq_true] at h
    exact h.2

theorem rising_putCell {l : List Host.Cell} {a : Nat} {v : Byte} (h : rising l = true) :
    rising (putCell l a v) = true := by
  cases l with
  | nil => rfl
  | cons c rest =>
    obtain ⟨k, b⟩ := c
    unfold putCell
    split
    · rename_i hlt
      simpa [rising, risingFrom, hlt] using h
    · split
      · rename_i heq
        subst heq
        exact h
      · exact risingFrom_putCell h (by omega)

theorem rising_dropCell {l : List Host.Cell} {a : Nat} (h : rising l = true) :
    rising (dropCell l a) = true := by
  cases l with
  | nil => rfl
  | cons c rest =>
    obtain ⟨k, b⟩ := c
    unfold dropCell
    split
    · exact rising_of_risingFrom (risingFrom_dropCell (low := k) h)
    · exact risingFrom_dropCell (low := k) h

/-! ### One byte -/

/-- A read after a write: the byte written at its address, every other byte as before. -/
theorem Memory.read_write (m : Memory) (a x : Nat) (v : Byte) :
    (m.write a v).read x = if x = a then v else m.read x := by
  unfold Memory.write Memory.read
  split
  · rename_i hv
    by_cases h : x = a
    · subst h
      simp [lookupCell_dropCell, hv]
    · simp [lookupCell_dropCell, h]
  · by_cases h : x = a <;> simp [lookupCell_putCell, h]

@[simp] theorem Memory.read_write_same (m : Memory) (a : Nat) (v : Byte) :
    (m.write a v).read a = v := by simp [Memory.read_write]

theorem Memory.read_write_other (m : Memory) {a x : Nat} (v : Byte) (h : x ≠ a) :
    (m.write a v).read x = m.read x := by simp [Memory.read_write, h]

@[simp] theorem Memory.write_fill (m : Memory) (a : Nat) (v : Byte) :
    (m.write a v).fill = m.fill := by unfold Memory.write; split <;> rfl

theorem Memory.mem_write {m : Memory} {a : Nat} {v : Byte} {c : Host.Cell}
    (h : c ∈ (m.write a v).cells) : c = (a, v) ∨ c ∈ m.cells := by
  unfold Memory.write at h
  split at h
  · exact .inr (mem_dropCell h)
  · exact mem_putCell h

theorem Memory.wf_iff (m : Memory) :
    m.wf = true ↔ rising m.cells = true ∧ ∀ c ∈ m.cells, c.2 ≠ m.fill.byte c.1 := by
  simp [Memory.wf]

/-- A write keeps the canonical form. -/
theorem Memory.write_wf {m : Memory} (h : m.wf = true) (a : Nat) (v : Byte) :
    (m.write a v).wf = true := by
  rw [Memory.wf_iff] at h ⊢
  unfold Memory.write
  split
  · exact ⟨rising_dropCell h.1, fun c hc => h.2 c (mem_dropCell hc)⟩
  · rename_i hv
    refine ⟨rising_putCell h.1, fun c hc => ?_⟩
    rcases mem_putCell hc with rfl | hc
    · exact hv
    · exact h.2 c hc

@[simp] theorem Memory.zeroed_read (a : Nat) : Memory.zeroed.read a = 0 := rfl

@[simp] theorem Memory.unspecified_read (n a : Nat) :
    (Memory.unspecified n).read a = Config.powerOnByte n a := rfl

theorem Memory.zeroed_wf : Memory.zeroed.wf = true := rfl

theorem Memory.unspecified_wf (n : Nat) : (Memory.unspecified n).wf = true := rfl

/-! ### Consecutive bytes -/

/-- What consecutive writes leave: the list's bytes from the address on, every other byte as before. -/
theorem Memory.read_writeBytes (m : Memory) (a x : Nat) (bs : List Byte) :
    (m.writeBytes a bs).read x =
      if h : a ≤ x ∧ x - a < bs.length then bs[x - a]'h.2 else m.read x := by
  induction bs generalizing m a with
  | nil => simp [Memory.writeBytes]
  | cons b bs ih =>
    rw [Memory.writeBytes, ih, Memory.read_write]
    by_cases h1 : a + 1 ≤ x ∧ x - (a + 1) < bs.length
    · have h2 : a ≤ x ∧ x - a < (b :: bs).length := by simp; omega
      have h3 : x - a = (x - (a + 1)) + 1 := by omega
      simp [h1, h2, h3]
    · by_cases h2 : x = a
      · subst h2
        simp
      · have h3 : ¬(a ≤ x ∧ x - a < (b :: bs).length) := by simp; omega
        rw [dif_neg h1, dif_neg h3, if_neg h2]

theorem Memory.read_writeBytes_outside (m : Memory) {a x : Nat} {bs : List Byte}
    (h : x < a ∨ a + bs.length ≤ x) : (m.writeBytes a bs).read x = m.read x := by
  rw [Memory.read_writeBytes, dif_neg (by omega)]

@[simp] theorem Memory.writeBytes_fill (m : Memory) (a : Nat) (bs : List Byte) :
    (m.writeBytes a bs).fill = m.fill := by
  induction bs generalizing m a with
  | nil => rfl
  | cons b bs ih => simp [Memory.writeBytes, ih]

theorem Memory.writeBytes_wf {m : Memory} (h : m.wf = true) (a : Nat) (bs : List Byte) :
    (m.writeBytes a bs).wf = true := by
  induction bs generalizing m a with
  | nil => exact h
  | cons b bs ih => exact ih (Memory.write_wf h a b) (a + 1)

theorem Memory.mem_writeBytes {m : Memory} {a : Nat} {bs : List Byte} {c : Host.Cell}
    (h : c ∈ (m.writeBytes a bs).cells) : (a ≤ c.1 ∧ c.1 < a + bs.length) ∨ c ∈ m.cells := by
  induction bs generalizing m a with
  | nil => exact .inr h
  | cons b bs ih =>
    rcases ih h with h | h
    · exact .inl (by simp; omega)
    · rcases Memory.mem_write h with rfl | h
      · exact .inl (by simp)
      · exact .inr h

/-! ### Slices of a buffer -/

@[simp] theorem slice_length (buf : Nat → Byte) (off n : Nat) : (slice buf off n).length = n := by
  induction n generalizing off with
  | zero => rfl
  | succ n ih => simp [slice, ih]

@[simp] theorem slice_getElem (buf : Nat → Byte) (off n i : Nat) (h : i < (slice buf off n).length) :
    (slice buf off n)[i] = buf (off + i) := by
  induction n generalizing off i with
  | zero => simp [slice] at h
  | succ n ih =>
    cases i with
    | zero => rfl
    | succ i =>
      simp only [slice, List.getElem_cons_succ]
      rw [ih]
      congr 1
      omega

theorem slice_congr {f g : Nat → Byte} {off n : Nat} (h : ∀ i, off ≤ i → i < off + n → f i = g i) :
    slice f off n = slice g off n := by
  apply List.ext_getElem (by simp)
  intro i hi hi'
  simp only [slice_length] at hi
  simp only [slice_getElem]
  exact h _ (by omega) (by omega)

theorem slice_append (buf : Nat → Byte) (off m n : Nat) :
    slice buf off (m + n) = slice buf off m ++ slice buf (off + m) n := by
  induction m generalizing off with
  | zero => simp [slice]
  | succ m ih =>
    rw [show m + 1 + n = (m + n) + 1 by omega]
    simp only [slice, List.cons_append]
    rw [ih, show off + 1 + m = off + (m + 1) by omega]

/-- A buffer that holds a list reads as it. -/
theorem slice_eq_of_holds {buf : Nat → Byte} {bs : List Byte} (h : Holds buf bs) :
    slice buf 0 bs.length = bs := by
  apply List.ext_getElem (by simp)
  intro i hi hi'
  simp only [slice_getElem, Nat.zero_add]
  exact h i hi'

end Sys2Proof.Machine
end

