-- ==== Sys2Proof/Laws/Frame.lean ====
section
/-! SUPPORT. What building a frame leaves in the buffers, and the capacity facts every parameter choice has. -/

namespace Sys2Proof.Machine

theorem bufCap_bounds (p : Params) : 13 ≤ p.bufCap ∧ p.bufCap ≤ 4096 := by
  have := p.spareRoom.isLt
  unfold Params.bufCap
  omega

theorem maxLen_add_hdr (p : Params) : p.maxLen + 12 = p.bufCap := by
  have := bufCap_bounds p
  unfold Params.maxLen Config.hdr
  omega

theorem legalLen_iff (p : Params) (len : Half) :
    legalLen p len = true ↔ 1 ≤ len.toNat ∧ len.toNat ≤ p.maxLen := by
  simp [legalLen]

@[simp] theorem le16_length (v : Half) : (le16 v).length = 2 := rfl

/-- `rd16` of what `wr16` stores is the value (20_memory.md R65). -/
@[simp] theorem half_le16 (v : Half) : half (v.extractLsb' 0 8) (v.extractLsb' 8 8) = v := by
  unfold half
  ext i hi
  simp only [BitVec.getElem_append, BitVec.getElem_extractLsb']
  split
  · simp [BitVec.getLsbD_eq_getElem hi]
  · rename_i h
    have : 8 + (i - 8) = i := by omega
    simp [this, BitVec.getLsbD_eq_getElem hi]

theorem half_getLsbD (lo hi : Byte) (i : Nat) :
    (half lo hi).getLsbD i = if i < 8 then lo.getLsbD i else hi.getLsbD (i - 8) := by
  unfold half
  exact BitVec.getLsbD_append

theorem le16_half (lo hi : Byte) : le16 (half lo hi) = [lo, hi] := by
  unfold le16
  congr 1
  · apply BitVec.eq_of_getLsbD_eq
    intro i hi
    simp [half_getLsbD, hi]
  · congr 1
    apply BitVec.eq_of_getLsbD_eq
    intro i hi
    simp [half_getLsbD, hi]

/-! ### Stores into TX -/

theorem State.tx_writeTx (s : State) (off i : Nat) (bs : List Byte) :
    (s.writeTx off bs).tx i =
      if h : off ≤ i ∧ i - off < bs.length then bs[i - off]'h.2 else s.tx i := by
  unfold State.tx
  rw [State.writeTx_mem, Memory.read_writeBytes]
  by_cases h : off ≤ i ∧ i - off < bs.length
  · have h' : txBase + off ≤ txBase + i ∧ txBase + i - (txBase + off) < bs.length := by omega
    have e : txBase + i - (txBase + off) = i - off := by omega
    rw [dif_pos h, dif_pos h']
    simp only [e]
  · rw [dif_neg h, dif_neg (by omega)]

theorem State.read_writeTx_outside (s : State) {off a : Nat} {bs : List Byte}
    (h : a < txBase + off ∨ txBase + off + bs.length ≤ a) :
    (s.writeTx off bs).mem.read a = s.mem.read a := by
  rw [State.writeTx_mem, Memory.read_writeBytes_outside _ h]

/-! ### The frame -/

/-- SEND stores to TX[0 .. 12) and to no other byte (42_send.md R140). -/
theorem State.read_buildFrame_outside (s : State) (dest : Byte) (seq len : Half) {a : Nat}
    (h : a < txBase ∨ txBase + 12 ≤ a) :
    (s.buildFrame dest seq len).mem.read a = s.mem.read a := by
  unfold State.buildFrame
  simp only
  rw [State.read_writeTx_outside, State.read_writeTx_outside, State.read_writeTx_outside] <;>
    · simp
      omega

theorem State.buildFrame_payload (s : State) (dest : Byte) (seq len : Half) (i : Nat) :
    (s.buildFrame dest seq len).tx (12 + i) = s.tx (12 + i) :=
  s.read_buildFrame_outside dest seq len (.inr (by omega))

@[simp] theorem State.buildFrame_rx (s : State) (dest : Byte) (seq len : Half) (i : Nat) :
    (s.buildFrame dest seq len).rx i = s.rx i :=
  s.read_buildFrame_outside dest seq len (.inr (by simp only [txBase, rxBase]; omega))

theorem frameBytes_length (p : Params) (dest src : Byte) (seq len : Half) (payload : List Byte) :
    (frameBytes p dest src seq len payload).length = 12 + payload.length := by
  simp [frameBytes]
  omega

/-- The covered bytes of a frame under construction: sequence number, length, payload (40_checksum.md R114). -/
theorem slice_covered {buf : Nat → Byte} {seq len : Half}
    (h8 : buf 8 = seq.extractLsb' 0 8) (h9 : buf 9 = seq.extractLsb' 8 8)
    (h10 : buf 10 = len.extractLsb' 0 8) (h11 : buf 11 = len.extractLsb' 8 8) (n : Nat) :
    slice buf 8 (4 + n) = le16 seq ++ le16 len ++ slice buf 12 n := by
  rw [slice_append]
  simp [slice, le16, h8, h9, h10, h11]

/-- After SEND has built a frame, TX starts with the frame of 30_encoding.md R99 around the payload the host
had placed. -/
theorem State.buildFrame_holds (s : State) (dest : Byte) (seq len : Half) :
    Holds (s.buildFrame dest seq len).tx
      (frameBytes s.params dest s.localAddr seq len (slice s.tx 12 len.toNat)) := by
  intro i hi
  rw [frameBytes_length, slice_length] at hi
  by_cases hp : 12 ≤ i
  · obtain ⟨j, rfl⟩ := Nat.exists_eq_add_of_le hp
    rw [State.buildFrame_payload]
    simp only [frameBytes]
    rw [List.getElem_append_right (by simp)]
    simp
  · have hc : csum (le16 seq ++ le16 len ++ slice s.tx 12 len.toNat) =
        frameChecksum ((s.writeTx 0 [s.params.preambleByte, s.params.preambleByte,
          s.params.preambleByte, s.params.startByte]).writeTx 6
            ([dest, s.localAddr] ++ le16 seq ++ le16 len)).tx len := by
      unfold frameChecksum
      rw [slice_covered (seq := seq) (len := len)]
      · congr 2
        apply slice_congr
        intro j hj _
        rw [State.tx_writeTx, State.tx_writeTx, dif_neg, dif_neg] <;> simp <;> omega
      all_goals simp [State.tx_writeTx, le16]
    have hb : ∀ k : Fin 12, (s.buildFrame dest seq len).tx k =
        (frameBytes s.params dest s.localAddr seq len (slice s.tx 12 len.toNat))[k.val]'(by
          rw [frameBytes_length]; omega) := by
      intro k
      simp only [State.buildFrame, frameBytes, hc]
      fin_cases k <;> simp [State.tx_writeTx, le16]
    exact hb ⟨i, by omega⟩

/-- The span of a frame just built is the frame. -/
theorem State.buildFrame_slice (s : State) (dest : Byte) (seq len : Half) :
    slice (s.buildFrame dest seq len).tx 0 (12 + len.toNat) =
      frameBytes s.params dest s.localAddr seq len (slice s.tx 12 len.toNat) := by
  have h := slice_eq_of_holds (s.buildFrame_holds dest seq len)
  rwa [frameBytes_length, slice_length] at h

end Sys2Proof.Machine
end

