-- ==== Sys2Proof/Laws/Checksum.lean ====
section
/-! SUPPORT. What the parts of the checksum unit compute: the carry fold, the 16-bit words and their sum
(40_checksum.md R110 to R112). -/

namespace Sys2Proof.Machine

/-- The carry fold of R110, with fuel enough: 0 stays 0, every other sum becomes the representative of its class
modulo 0xFFFF in 1 to 0xFFFF. -/
theorem foldCarries_eq {fuel acc : Nat} (h : acc ≤ fuel) :
    foldCarries fuel acc = if acc = 0 then 0 else 1 + (acc - 1) % 0xFFFF := by
  induction fuel generalizing acc with
  | zero =>
    have : acc = 0 := by omega
    subst this
    rfl
  | succ fuel ih =>
    unfold foldCarries
    by_cases hs : acc ≤ 0xFFFF
    · rw [if_pos hs]
      split <;> omega
    · rw [if_neg hs, ih (by omega), if_neg (by omega), if_neg (by omega)]
      omega

/-- A 16-bit word is its low byte and 256 times its high byte. -/
theorem half_toNat (lo hi : Byte) : (half lo hi).toNat = lo.toNat + 256 * hi.toNat := by
  have := lo.isLt
  unfold half
  rw [BitVec.toNat_append, ← Nat.shiftLeft_add_eq_or_of_lt (by simpa using this), Nat.shiftLeft_eq]
  omega

/-- The sum is the sum of the words, whether or not the last one is half a word. -/
theorem sumWords_eq_sum (bs : List Byte) : sumWords bs = ((wordsOf bs).map BitVec.toNat).sum := by
  induction bs using sumWords.induct with
  | case1 => rfl
  | case2 b =>
    change b.toNat = (half b 0).toNat + 0
    rw [half_toNat]
    simp
  | case3 lo hi rest ih => simp [sumWords, wordsOf, half, ih]

/-- The words of the bytes of words are those words. -/
theorem wordsOf_flatMap_le16 (ws : List Half) : wordsOf (ws.flatMap le16) = ws := by
  induction ws with
  | nil => rfl
  | cons w ws ih =>
    have := half_le16 w
    unfold half at this
    simp [le16, wordsOf, ih, this]

/-- The sum of the words whose bytes are listed is the sum of the words. -/
theorem sumWords_flatMap_le16 (ws : List Half) :
    sumWords (ws.flatMap le16) = (ws.map BitVec.toNat).sum := by
  rw [sumWords_eq_sum, wordsOf_flatMap_le16]

/-- Putting another byte in a place changes the sum by the difference, 256-fold in an odd place. -/
theorem sumWords_set {bs : List Byte} {i : Nat} (h : i < bs.length) (v : Byte) :
    sumWords (bs.set i v) + (if i % 2 = 0 then 1 else 256) * bs[i].toNat =
      sumWords bs + (if i % 2 = 0 then 1 else 256) * v.toNat := by
  induction bs using sumWords.induct generalizing i with
  | case1 => simp at h
  | case2 b =>
    have : i = 0 := by simpa using h
    subst this
    simp [sumWords]
    omega
  | case3 a b r ih =>
    match i with
    | 0 => simp [sumWords, half_toNat]; omega
    | 1 => simp [sumWords, half_toNat]; omega
    | i + 2 =>
      simp at h
      have := ih (i := i) (by omega)
      rw [Nat.add_mod_right]
      simp only [List.set_cons_succ, sumWords, List.getElem_cons_succ]
      omega

end Sys2Proof.Machine
end

