-- ==== Sys2Proof/Laws/PerInstr.lean ====
section
/-! SUPPORT. What holds of every instruction as syntax: the four bits every decoder reads first are the opcode of
the instruction the word was made from (30_encoding.md R90, R97). -/

namespace Sys2Proof.Laws.OpcodeField

/-- The word of a well-formed instruction carries its opcode in `w[3:0]`, and the instruction it decodes to is
well-formed and of the same opcode. -/
def Statement (i : Instr) : Prop :=
  i.wf = true → opField (encode i) = i.op ∧ (decode (encode i)).op = i.op

/-- A decoded instruction has the opcode of its word. -/
theorem decode_op (w : Word) : (decode w).op = opField w := by
  unfold decode
  split_ifs <;> simp_all [Instr.op]

theorem init (role : Role) (localAddr peerAddr : Byte) :
    Statement (.init role localAddr peerAddr) := by
  intro _
  rw [decode_op, and_self]
  apply BitVec.eq_of_getLsbD_eq
  intro j hj
  simp only [opField, encode]
  interval_cases j <;> simp

theorem send (dest : Byte) (len : Half) : Statement (.send dest len) := by
  intro _
  rw [decode_op, and_self]
  apply BitVec.eq_of_getLsbD_eq
  intro j hj
  simp only [opField, encode]
  interval_cases j <;> simp

theorem checkRx : Statement .checkRx := fun _ => by decide

theorem pollAck : Statement .pollAck := fun _ => by decide

theorem reserved (op : BitVec 4) : Statement (.reserved op) := by
  intro _
  rw [decode_op, and_self]
  apply BitVec.eq_of_getLsbD_eq
  intro j hj
  simp only [opField, encode]
  interval_cases j <;> simp

end Sys2Proof.Laws.OpcodeField
end

