-- ==== Sys2Proof/Laws/Step.lean ====
section
/-! SUPPORT. What each command and each step can do, said once: a proof about every step cites `step_cases` and
`exec_cases` and unfolds neither `step` nor `exec`. -/

namespace Sys2Proof.Machine

/-! ### The equations of the commands -/

theorem exec_init (role : Role) (localAddr peerAddr : Byte) (s : State) :
    exec (.init role localAddr peerAddr) s =
      .next ((s.initialized role localAddr peerAddr).finish 0) := rfl

theorem exec_reserved (op : BitVec 4) (s : State) :
    exec (.reserved op) s = .next (s.raise .badop) := rfl

theorem exec_send_uninitialized {s : State} (h : s.initDone = false) (dest : Byte) (len : Half) :
    exec (.send dest len) s = .next (s.raise .noinit) := by
  simp [exec, execSend, State.whenInitialized, h]

theorem exec_send_illegal {s : State} {len : Half} (h : s.initDone = true)
    (hl : legalLen s.params len = false) (dest : Byte) :
    exec (.send dest len) s = .next (s.raise .badarg) := by
  simp [exec, execSend, State.whenInitialized, h, hl]

theorem exec_send_legal {s : State} {len : Half} (h : s.initDone = true)
    (hl : legalLen s.params len = true) (dest : Byte) :
    exec (.send dest len) s = .next (s.sendNew dest len) := by
  simp [exec, execSend, State.whenInitialized, h, hl]

theorem exec_checkRx_uninitialized {s : State} (h : s.initDone = false) :
    exec .checkRx s = .next (s.raise .noinit) := by
  simp [exec, execCheckRx, State.whenInitialized, h]

theorem exec_checkRx_initialized {s : State} (h : s.initDone = true) :
    exec .checkRx s = .next s.checkFrame := by
  simp [exec, execCheckRx, State.whenInitialized, h]

theorem exec_pollAck_uninitialized {s : State} (h : s.initDone = false) :
    exec .pollAck s = .next (s.raise .noinit) := by
  simp [exec, execPollAck, State.whenInitialized, h]

theorem exec_pollAck_initialized {s : State} (h : s.initDone = true) :
    exec .pollAck s = .next s.pollTimeout := by
  simp [exec, execPollAck, State.whenInitialized, h]

/-- What a command can do: INIT, the three commands that ran, or a command error. -/
theorem exec_cases {i : Instr} {s t : State} (h : exec i s = .next t) :
    (∃ role localAddr peerAddr, i = .init role localAddr peerAddr ∧
      t = (s.initialized role localAddr peerAddr).finish 0) ∨
    (∃ dest len, i = .send dest len ∧ s.initDone = true ∧ legalLen s.params len = true ∧
      t = s.sendNew dest len) ∨
    (i = .checkRx ∧ s.initDone = true ∧ t = s.checkFrame) ∨
    (i = .pollAck ∧ s.initDone = true ∧ t = s.pollTimeout) ∨
    ((∃ op, i = .reserved op) ∧ t = s.raise .badop) ∨
    ((i = .checkRx ∨ i = .pollAck ∨ ∃ dest len, i = .send dest len) ∧ s.initDone = false ∧
      t = s.raise .noinit) ∨
    (∃ dest len, i = .send dest len ∧ s.initDone = true ∧ legalLen s.params len = false ∧
      t = s.raise .badarg) := by
  cases i with
  | init role localAddr peerAddr =>
    rw [exec_init] at h
    injection h with h
    exact .inl ⟨_, _, _, rfl, h.symm⟩
  | send dest len =>
    by_cases hi : s.initDone = true
    · by_cases hl : legalLen s.params len = true
      · rw [exec_send_legal hi hl] at h
        injection h with h
        exact .inr (.inl ⟨_, _, rfl, hi, hl, h.symm⟩)
      · rw [Bool.not_eq_true] at hl
        rw [exec_send_illegal hi hl] at h
        injection h with h
        exact .inr (.inr (.inr (.inr (.inr (.inr ⟨_, _, rfl, hi, hl, h.symm⟩)))))
    · rw [Bool.not_eq_true] at hi
      rw [exec_send_uninitialized hi] at h
      injection h with h
      exact .inr (.inr (.inr (.inr (.inr (.inl ⟨.inr (.inr ⟨_, _, rfl⟩), hi, h.symm⟩)))))
  | checkRx =>
    by_cases hi : s.initDone = true
    · rw [exec_checkRx_initialized hi] at h
      injection h with h
      exact .inr (.inr (.inl ⟨rfl, hi, h.symm⟩))
    · rw [Bool.not_eq_true] at hi
      rw [exec_checkRx_uninitialized hi] at h
      injection h with h
      exact .inr (.inr (.inr (.inr (.inr (.inl ⟨.inl rfl, hi, h.symm⟩)))))
  | pollAck =>
    by_cases hi : s.initDone = true
    · rw [exec_pollAck_initialized hi] at h
      injection h with h
      exact .inr (.inr (.inr (.inl ⟨rfl, hi, h.symm⟩)))
    · rw [Bool.not_eq_true] at hi
      rw [exec_pollAck_uninitialized hi] at h
      injection h with h
      exact .inr (.inr (.inr (.inr (.inr (.inl ⟨.inr (.inl rfl), hi, h.symm⟩)))))
  | reserved op =>
    rw [exec_reserved] at h
    injection h with h
    exact .inr (.inr (.inr (.inr (.inl ⟨⟨_, rfl⟩, h.symm⟩))))

/-- No command touches the parameters, CMD, DELAY_CFG, the time input, the replies, what the host will do or
the count of power-on resets. -/
theorem exec_keeps {i : Instr} {s t : State} (h : exec i s = .next t) :
    t.params = s.params ∧ t.cmd = s.cmd ∧ t.delayCfg = s.delayCfg ∧ t.now = s.now ∧
      t.reads = s.reads ∧ t.pending = s.pending ∧ t.powerOns = s.powerOns := by
  rcases exec_cases h with ⟨_, _, _, _, rfl⟩ | ⟨_, _, _, _, _, rfl⟩ | ⟨_, _, rfl⟩ | ⟨_, _, rfl⟩ |
    ⟨_, rfl⟩ | ⟨_, _, rfl⟩ | ⟨_, _, _, _, _, rfl⟩ <;> simp

/-! ### The shared operations of SEND, CHECK_RX and POLL_ACK -/

theorem State.tx_congr {s t : State} (h : s.mem = t.mem) : s.tx = t.tx := by
  funext i
  simp [State.tx, h]

theorem State.rx_congr {s t : State} (h : s.mem = t.mem) : s.rx = t.rx := by
  funext i
  simp [State.rx, h]

theorem State.sendNew_master {s : State} (h : s.role = .master) (dest : Byte) (len : Half) :
    s.sendNew dest len =
      { s with
        mem := (s.buildFrame dest (nextSeq s.txSeq) len).mem
        txSeq := nextSeq s.txSeq
        ackPending := true
        tSend := s.now
        lastDest := dest
        txLen := len
        stats := s.stats.bump .txNew
        spans := s.spans ++ [frameBytes s.params dest s.localAddr (nextSeq s.txSeq) len
          (slice s.tx 12 len.toNat)]
        result := 0
        cmdErr := .ok } := by
  have hs := s.buildFrame_slice dest (nextSeq s.txSeq) len
  apply State.ext <;>
    simp [State.sendNew, State.sendDest, State.sendSeq, State.recordSend, State.txSpan, Config.hdr, h, hs]

theorem State.sendNew_slave {s : State} (h : s.role = .slave) (dest : Byte) (len : Half) :
    s.sendNew dest len =
      { s with
        mem := (s.buildFrame s.peerAddr s.rxSeq len).mem
        txLen := len
        stats := s.stats.bump .txNew
        spans := s.spans ++ [frameBytes s.params s.peerAddr s.localAddr s.rxSeq len
          (slice s.tx 12 len.toNat)]
        result := 0
        cmdErr := .ok } := by
  have hs := s.buildFrame_slice s.peerAddr s.rxSeq len
  apply State.ext <;>
    simp [State.sendNew, State.sendDest, State.sendSeq, State.recordSend, State.txSpan, Config.hdr, h, hs]

/-- What CHECK_RX can do with INIT_DONE = 1: reject, answer a duplicate, or accept for its role. -/
theorem State.checkFrame_cases (s : State) :
    (s.classify ≠ .newValid ∧ s.classify ≠ .duplicate ∧
      s.checkFrame = { s with
        stats := s.stats.bump s.classify.counter
        result := s.classify.code.setWidth 32
        cmdErr := .ok }) ∨
    (s.classify = .duplicate ∧ s.role = .slave ∧
      s.checkFrame = { s with
        stats := (s.stats.bump .rxDup).bump .txResend
        spans := s.spans ++ [s.sentBytes]
        result := 1
        cmdErr := .ok }) ∨
    (s.classify = .newValid ∧ s.role = .master ∧
      s.checkFrame = { s with
        stats := s.stats.bump .rxNew
        ackPending := false
        retry := 0
        result := 0
        cmdErr := .ok }) ∨
    (s.classify = .newValid ∧ s.role = .slave ∧
      s.checkFrame = { s with
        stats := s.stats.bump .rxNew
        rxSeq := frameSeq s.rx
        result := 0
        cmdErr := .ok }) := by
  have hd : s.classify = .duplicate → s.role = .slave := by
    intro h
    cases hr : s.role with
    | slave => rfl
    | master =>
      have hf : s.isDuplicate = false := by simp [State.isDuplicate, hr]
      unfold State.classify at h
      rw [hf] at h
      split_ifs at h
      simp_all
  unfold State.checkFrame
  cases hc : s.classify with
  | duplicate =>
    refine .inr (.inl ⟨rfl, hd hc, ?_⟩)
    apply State.ext <;>
      simp [State.react, RxOutcome.counter, RxOutcome.code, State.txSpan, State.sentBytes, Config.hdr]
  | newValid =>
    cases hr : s.role with
    | master =>
      refine .inr (.inr (.inl ⟨rfl, rfl, ?_⟩))
      apply State.ext <;> simp [State.react, State.acceptFrame, hr, RxOutcome.counter, RxOutcome.code]
    | slave =>
      refine .inr (.inr (.inr ⟨rfl, rfl, ?_⟩))
      apply State.ext <;> simp [State.react, State.acceptFrame, hr, RxOutcome.counter, RxOutcome.code]
  | preambleErr => exact .inl ⟨by decide, by decide, rfl⟩
  | startErr => exact .inl ⟨by decide, by decide, rfl⟩
  | destErr => exact .inl ⟨by decide, by decide, rfl⟩
  | srcErr => exact .inl ⟨by decide, by decide, rfl⟩
  | seqErr => exact .inl ⟨by decide, by decide, rfl⟩
  | lenErr => exact .inl ⟨by decide, by decide, rfl⟩
  | csumErr => exact .inl ⟨by decide, by decide, rfl⟩

/-- What POLL_ACK can do with INIT_DONE = 1. -/
theorem State.pollTimeout_cases (s : State) :
    (s.timedOut = true ∧ s.pollTimeout = { s with
      retry := s.retry + 1
      stats := s.stats.bump .txResend
      spans := s.spans ++ [s.sentBytes]
      tSend := if s.params.restampOnResend then s.now else s.tSend
      result := s.retry + 1
      cmdErr := .ok }) ∨
    (s.timedOut = false ∧ s.pollTimeout = { s with result := s.retry, cmdErr := .ok }) := by
  cases h : s.timedOut with
  | false =>
    refine .inr ⟨rfl, ?_⟩
    simp [State.pollTimeout, h, State.finish]
  | true =>
    refine .inl ⟨rfl, ?_⟩
    apply State.ext <;> simp [State.pollTimeout, h, State.txSpan, State.sentBytes, Config.hdr]
    rfl

/-! ### Bus accesses -/

theorem regAt_eq_some {a : Nat} {r : Reg} (h : Reg.at? a = some r) : r.offset = a := by
  have := List.find?_some h
  simpa using this

theorem Reg.offset_injective {r r' : Reg} (h : r.offset = r'.offset) : r = r' := by
  have key : ∀ a ∈ allRegs, ∀ b ∈ allRegs, a.offset = b.offset → a = b := by decide
  have mem : ∀ r : Reg, r ∈ allRegs := by
    intro r
    cases r with
    | stat c => cases c <;> decide
    | _ => decide
  exact key r (mem r) r' (mem r') h

/-- What a write access can do: start a command, set DELAY_CFG, store window bytes, or nothing. -/
theorem busWrite_cases (addr : BitVec 16) (width : Nat) (v : Word) (s : State) :
    (addr = 0 ∧ width = 4 ∧ busWrite addr width v s = runCommand v s) ∨
    (addr = 0x000C ∧ width = 4 ∧ busWrite addr width v s = .next { s with delayCfg := v }) ∨
    (0x1000 ≤ addr.toNat ∧ addr.toNat < 0x3000 ∧ windowAccess addr.toNat width = true ∧
      busWrite addr width v s = .next (s.storeBytes addr.toNat (lowBytes v width))) ∨
    (¬(addr = 0 ∧ width = 4) ∧
      ¬(0x1000 ≤ addr.toNat ∧ addr.toNat < 0x3000 ∧ windowAccess addr.toNat width = true) ∧
      busWrite addr width v s = .next s) := by
  have ext : ∀ n : Nat, n < 2 ^ 16 → addr.toNat = n → addr = BitVec.ofNat 16 n := by
    intro n hn h
    apply BitVec.eq_of_toNat_eq
    rw [h, BitVec.toNat_ofNat, Nat.mod_eq_of_lt hn]
  unfold busWrite Target.of txBase
  by_cases h1 : addr.toNat < 0x1000
  · have hw : ¬(0x1000 ≤ addr.toNat ∧ addr.toNat < 0x3000 ∧
        windowAccess addr.toNat width = true) := by omega
    simp only [h1, if_true]
    by_cases hr : regAccess addr.toNat width = true
    · have hwidth : width = 4 := by
        simp [regAccess] at hr
        exact hr.1
      simp only [hr, if_true]
      cases hat : Reg.at? addr.toNat with
      | none =>
        refine .inr (.inr (.inr ⟨?_, hw, rfl⟩))
        rintro ⟨rfl, -⟩
        exact absurd hat (by decide)
      | some r =>
        have ho := regAt_eq_some hat
        by_cases hcmd : r = .cmd
        · subst hcmd
          exact .inl ⟨ext 0 (by decide) ho.symm, hwidth, rfl⟩
        · by_cases hdel : r = .delayCfg
          · subst hdel
            exact .inr (.inl ⟨ext 0xC (by decide) ho.symm, hwidth, rfl⟩)
          · refine .inr (.inr (.inr ⟨?_, hw, ?_⟩))
            · rintro ⟨rfl, -⟩
              exact hcmd (Reg.offset_injective (r' := .cmd) ho)
            · cases r <;> first | rfl | exact absurd rfl hcmd | exact absurd rfl hdel
    · refine .inr (.inr (.inr ⟨?_, hw, ?_⟩))
      · rintro ⟨rfl, rfl⟩
        exact hr (by decide)
      · simp [hr]
  · have hz : ¬(addr = 0 ∧ width = 4) := by
      rintro ⟨rfl, -⟩
      exact h1 (by decide)
    simp only [h1, if_false]
    by_cases h2 : addr.toNat < 0x3000
    · simp only [h2, if_true]
      by_cases hr : windowAccess addr.toNat width = true
      · exact .inr (.inr (.inl ⟨by omega, trivial, hr, by simp [hr]⟩))
      · exact .inr (.inr (.inr ⟨hz, by tauto, by simp [hr]⟩))
    · exact .inr (.inr (.inr ⟨hz, by omega, by simp [h2]⟩))

theorem State.storeBytes_eq_mem (s : State) (a : Nat) (bs : List Byte) :
    s.storeBytes a bs = { s with mem := (s.storeBytes a bs).mem } := by
  induction bs generalizing s a with
  | nil => rfl
  | cons b bs ih =>
    rw [State.storeBytes, ih]
    unfold State.storeByte
    split <;> rfl

/-- What a window store leaves in memory: the stored bytes below BUF_CAP, every other byte as before. -/
theorem State.read_storeBytes (s : State) (a x : Nat) (bs : List Byte) :
    (s.storeBytes a bs).mem.read x =
      if h : (a ≤ x ∧ x - a < bs.length) ∧ inBuffer s.params x = true
      then bs[x - a]'h.1.2 else s.mem.read x := by
  induction bs generalizing s a with
  | nil => simp [State.storeBytes]
  | cons b bs ih =>
    rw [State.storeBytes, ih]
    have hp : (s.storeByte a b).params = s.params := State.storeByte_params s a b
    by_cases h1 : (a + 1 ≤ x ∧ x - (a + 1) < bs.length) ∧ inBuffer s.params x = true
    · have h2 : (a ≤ x ∧ x - a < (b :: bs).length) ∧ inBuffer s.params x = true := by
        simp
        refine ⟨by omega, h1.2⟩
      have h3 : x - a = (x - (a + 1)) + 1 := by omega
      rw [dif_pos (by rw [hp]; exact h1), dif_pos h2]
      simp [h3]
    · rw [dif_neg (by rw [hp]; exact h1)]
      unfold State.storeByte
      by_cases hx : x = a
      · subst hx
        by_cases hb : inBuffer s.params x = true <;> simp [hb]
      · have h3 : ¬((a ≤ x ∧ x - a < (b :: bs).length) ∧ inBuffer s.params x = true) := by
          simp at h1 ⊢
          intro h4 h5
          exact h1 (by omega) (by omega)
        rw [dif_neg h3]
        split
        · exact Memory.read_write_other _ _ hx
        · rfl

@[simp] theorem lowBytes_length (v : Word) (n : Nat) : (lowBytes v n).length = n := by
  induction n generalizing v with
  | zero => rfl
  | succ n ih => simp [lowBytes, ih]

@[simp] theorem lowBytes_getElem (v : Word) (n i : Nat) (h : i < (lowBytes v n).length) :
    (lowBytes v n)[i] = v.extractLsb' (8 * i) 8 := by
  induction n generalizing v i with
  | zero => simp [lowBytes] at h
  | succ n ih =>
    cases i with
    | zero => rfl
    | succ i =>
      simp only [lowBytes, List.getElem_cons_succ]
      rw [ih]
      apply BitVec.eq_of_getLsbD_eq
      intro j hj
      simp [hj]
      congr 1
      omega

/-! ### Steps -/

/-- What a step can do: nothing to come, a read, a command, DELAY_CFG, a window store, an ignored write, a
power-on reset. In each case the transaction is taken off the host's list first. -/
theorem step_cases {s t : State} (h : step s = .next t) :
    (s.pending = [] ∧ t = s) ∨
    ∃ op now rest, s.pending = { op := op, now := now } :: rest ∧
      let s' := s.accept { op := op, now := now } rest
      ((∃ addr width, op = .read addr width ∧ t = s'.reply (s'.busRead addr width)) ∨
       (∃ w, op = .write 0 4 w ∧ exec (decode w) (s'.storeCmd w) = .next t) ∨
       (∃ v, op = .write 0x000C 4 v ∧ t = { s' with delayCfg := v }) ∨
       (∃ addr width v, op = .write addr width v ∧ 0x1000 ≤ addr.toNat ∧ addr.toNat < 0x3000 ∧
         windowAccess addr.toNat width = true ∧ t = s'.storeBytes addr.toNat (lowBytes v width)) ∨
       (∃ addr width v, op = .write addr width v ∧ ¬(addr = 0 ∧ width = 4) ∧ t = s') ∨
       (op = .powerOn ∧ t = s'.powerOnReset)) := by
  unfold step advance at h
  cases hp : s.pending with
  | nil =>
    rw [hp] at h
    injection h with h
    exact .inl ⟨rfl, h.symm⟩
  | cons tr rest =>
    obtain ⟨op, now⟩ := tr
    rw [hp] at h
    refine .inr ⟨op, now, rest, rfl, ?_⟩
    simp only at h ⊢
    cases op with
    | read addr width =>
      injection h with h
      exact .inl ⟨addr, width, rfl, h.symm⟩
    | powerOn =>
      injection h with h
      exact .inr (.inr (.inr (.inr (.inr ⟨rfl, h.symm⟩))))
    | write addr width v =>
      change busWrite addr width v _ = _ at h
      rcases busWrite_cases addr width v (s.accept { op := .write addr width v, now := now } rest)
        with ⟨rfl, rfl, e⟩ | ⟨rfl, rfl, e⟩ | ⟨h1, h2, h3, e⟩ | ⟨h1, -, e⟩ <;> rw [e] at h
      · exact .inr (.inl ⟨v, rfl, h⟩)
      · injection h with h
        exact .inr (.inr (.inl ⟨v, rfl, h.symm⟩))
      · injection h with h
        exact .inr (.inr (.inr (.inl ⟨addr, width, v, rfl, h1, h2, h3, h.symm⟩)))
      · injection h with h
        exact .inr (.inr (.inr (.inr (.inl ⟨addr, width, v, rfl, h1, h.symm⟩))))

/-- `withFetchWord` makes the very next step run the word (log entry 1). -/
theorem step_withFetchWord (s : State) (w : Word) :
    step (s.withFetchWord 32 w.toNat) = exec (decode w) (s.storeCmd w) := by
  have hw : tableWord 32 w.toNat = w := by
    unfold tableWord
    rw [Nat.mod_eq_of_lt w.isLt]
    simp
  unfold State.withFetchWord
  rw [hw]
  rfl

end Sys2Proof.Machine
end

