-- ==== Sys2Proof/Laws/Receive.lean ====
section
/-! SUPPORT. What CHECK_RX's verdict says in the terms of Safety.lean, and what counting an event does to each
counter. -/

namespace Sys2Proof.Machine

/-- A counter's value after an event: its own one rises by 1, every other stays. -/
theorem Stats.get_bump (st : Stats) (c d : Counter) :
    (st.bump c).get d = if d = c then st.get d + 1 else st.get d := by
  cases c <;> cases d <;> rfl

theorem State.preambleOk_iff (s : State) : s.preambleOk = true ↔ s.rxPreamble := by
  simp [State.preambleOk, State.rxPreamble, and_assoc]

theorem State.frameSrc_iff (s : State) : frameSrc s.rx = s.expectedSrc ↔ s.rxSrc := by
  unfold State.rxSrc State.expectedSrc frameSrc
  cases s.role <;> simp

theorem State.seqOk_iff (s : State) : s.seqOk = true ↔ s.rxInSequence := by
  unfold State.seqOk State.rxInSequence frameSeq rd16 half State.rxSeqField
  cases s.role <;> simp

theorem State.isDuplicate_iff (s : State) : s.isDuplicate = true ↔ s.rxRepeats := by
  unfold State.isDuplicate State.rxRepeats frameSeq rd16 half State.rxSeqField
  cases s.role <;> simp

/-- The first failing check of a chain of seven, and then whether the frame repeats. -/
theorem firstFailure_eq_iff (a b c d e f g h : Prop) [Decidable a] [Decidable b] [Decidable c]
    [Decidable d] [Decidable e] [Decidable f] [Decidable g] [Decidable h] (o : RxOutcome) :
    (if ¬a then RxOutcome.preambleErr else if ¬b then .startErr else if ¬c then .destErr
      else if ¬d then .srcErr else if ¬e then .seqErr else if ¬f then .lenErr
      else if ¬g then .csumErr else if h then .duplicate else .newValid) = o ↔
      match o with
      | .preambleErr => ¬a
      | .startErr => a ∧ ¬b
      | .destErr => a ∧ b ∧ ¬c
      | .srcErr => (a ∧ b ∧ c) ∧ ¬d
      | .seqErr => (a ∧ b ∧ c) ∧ d ∧ ¬e
      | .lenErr => (a ∧ b ∧ c) ∧ d ∧ e ∧ ¬f
      | .csumErr => (a ∧ b ∧ c) ∧ d ∧ e ∧ f ∧ ¬g
      | .duplicate => ((a ∧ b ∧ c) ∧ d ∧ e ∧ f ∧ g) ∧ h
      | .newValid => ((a ∧ b ∧ c) ∧ d ∧ e ∧ f ∧ g) ∧ ¬h := by
  by_cases ha : a
  · by_cases hb : b
    · by_cases hc : c
      · by_cases hd : d
        · by_cases he : e
          · by_cases hf : f
            · by_cases hg : g
              · by_cases hh : h <;> cases o <;> simp [ha, hb, hc, hd, he, hf, hg, hh]
              · cases o <;> simp [ha, hb, hc, hd, he, hf, hg]
            · cases o <;> simp [ha, hb, hc, hd, he, hf]
          · cases o <;> simp [ha, hb, hc, hd, he]
        · cases o <;> simp [ha, hb, hc, hd]
      · cases o <;> simp [ha, hb, hc]
    · cases o <;> simp [ha, hb]
  · cases o <;> simp [ha]

/-- The verdict, said once: each outcome is returned exactly when the checks before its own pass and its own
fails. -/
theorem State.classify_eq_iff (s : State) (o : RxOutcome) :
    s.classify = o ↔
      match o with
      | .preambleErr => ¬s.rxPreamble
      | .startErr => s.rxPreamble ∧ ¬s.rxStart
      | .destErr => s.rxPreamble ∧ s.rxStart ∧ ¬s.rxDest
      | .srcErr => s.rxFramed ∧ ¬s.rxSrc
      | .seqErr => s.rxFramed ∧ s.rxSrc ∧ ¬s.rxInSequence
      | .lenErr => s.rxFramed ∧ s.rxSrc ∧ s.rxInSequence ∧ ¬s.rxLen
      | .csumErr => s.rxFramed ∧ s.rxSrc ∧ s.rxInSequence ∧ s.rxLen ∧ ¬s.rxCsum
      | .duplicate => s.rxValid ∧ s.rxRepeats
      | .newValid => s.rxValid ∧ ¬s.rxRepeats := by
  classical
  refine Iff.trans ?_ ((firstFailure_eq_iff s.rxPreamble s.rxStart s.rxDest s.rxSrc s.rxInSequence
    s.rxLen s.rxCsum s.rxRepeats o).trans (by cases o <;> exact Iff.rfl))
  have h2 : (s.rx 3 = s.params.startByte) = s.rxStart := rfl
  have h3 : (frameDest s.rx = s.localAddr) = s.rxDest := rfl
  have h6 : legalLen s.params (frameLen s.rx) = true ↔ s.rxLen := legalLen_iff _ _
  have h7 : (frameCsum s.rx = frameChecksum s.rx (frameLen s.rx)) = s.rxCsum := rfl
  simp only [State.classify, Bool.not_eq_true', ← Bool.not_eq_true, ne_eq, s.preambleOk_iff, h2, h3,
    s.frameSrc_iff, s.seqOk_iff, h6, h7, s.isDuplicate_iff]

/-- A CHECK_RX whose verdict is an error leaves what `State.rejected` says. -/
theorem exec_checkRx_rejected {s : State} (hi : s.initDone = true) {o : RxOutcome} (h : s.classify = o)
    (hn : o ≠ .newValid) (hd : o ≠ .duplicate) :
    exec .checkRx s = .next (s.rejected o.counter o.code.toNat) := by
  rw [exec_checkRx_initialized hi]
  rcases s.checkFrame_cases with ⟨_, _, e⟩ | ⟨e, _⟩ | ⟨e, _⟩ | ⟨e, _⟩
  · rw [e, h]
    unfold State.rejected
    congr 2
    cases o <;> rfl
  all_goals exact absurd (h.symm.trans e) (by assumption)

end Sys2Proof.Machine
end

