-- ==== Sys2Proof/Laws/Shape.lean ====
section
/-! SUPPORT. Every state a step can answer, as one inductive predicate: a statement about every step is proved by
cases on it, with no meaning unfolded. -/

namespace Sys2Proof.Machine

/-- Two window stores of the same bytes leave the same buffers when they start from the same ones. -/
theorem State.storeBytes_congr {s t : State} (hm : s.mem = t.mem) (hp : s.params = t.params) (a : Nat)
    (bs : List Byte) : (s.storeBytes a bs).mem = (t.storeBytes a bs).mem := by
  induction bs generalizing s t a with
  | nil => exact hm
  | cons b bs ih =>
    rw [State.storeBytes, State.storeBytes]
    refine ih ?_ (by simp [hp]) _
    unfold State.storeByte
    rw [hp]
    split
    · simp [hm]
    · exact hm

/-- What a step can answer from `s`, with the event that took place. -/
inductive Moved (s : State) : State → Prop where
  /-- nothing to come -/
  | idle : Moved s s
  /-- a read, or a write the map ignores: at most a reply -/
  | quiet (now : Word) (rest : List Transaction) (reads : List Word) :
    Moved s { s with now := now, pending := rest, reads := reads }
  /-- a write to DELAY_CFG -/
  | delay (now : Word) (rest : List Transaction) (v : Word) (kind : s.nextIsDelayWrite = true) :
    Moved s { s with now := now, pending := rest, delayCfg := v }
  /-- a window write -/
  | window (now : Word) (rest : List Transaction) (addr : BitVec 16) (v : Word) (width : Nat)
    (kind : s.nextIsWindowWrite = true) (low : 0x1000 ≤ addr.toNat) (high : addr.toNat < 0x3000)
    (access : windowAccess addr.toNat width = true) :
    Moved s { s with now := now, pending := rest,
                     mem := (s.storeBytes addr.toNat (lowBytes v width)).mem }
  /-- a power-on reset -/
  | power (now : Word) (rest : List Transaction) (kind : s.nextIsPowerOn = true) :
    Moved s { s with now := now, pending := rest : State }.powerOnReset
  /-- an INIT -/
  | init (now : Word) (rest : List Transaction) (w : Word) (role : Role) (localAddr peerAddr : Byte)
    (kind : s.nextIsInit = true) :
    Moved s { s with
      now := now, pending := rest, cmd := w, role := role, localAddr := localAddr,
      peerAddr := peerAddr, maxDelay := s.delayCfg, mem := .zeroed, txSeq := 0, rxSeq := 0,
      ackPending := false, tSend := 0, retry := 0, lastDest := 0, txLen := 0, stats := {},
      initDone := true, result := 0, cmdErr := .ok }
  /-- a command error: its code and nothing else -/
  | failed (now : Word) (rest : List Transaction) (w : Word) (code : CmdErr)
    (kind : s.nextCommand = some (decode w)) (other : s.nextIsInit = false) (bad : code ≠ .ok) :
    Moved s { s with now := now, pending := rest, cmd := w, cmdErr := code }
  /-- a master's SEND -/
  | sentMaster (now : Word) (rest : List Transaction) (w : Word) (dest : Byte) (len : Half)
    (kind : s.nextIsSend = true) (ready : s.initDone = true) (role : s.role = .master)
    (legal : legalLen s.params len = true) :
    Moved s { s with
      now := now, pending := rest, cmd := w,
      mem := (s.buildFrame dest (nextSeq s.txSeq) len).mem, txSeq := nextSeq s.txSeq,
      ackPending := true, tSend := now, lastDest := dest, txLen := len,
      stats := s.stats.bump .txNew,
      spans := s.spans ++ [frameBytes s.params dest s.localAddr (nextSeq s.txSeq) len
        (slice s.tx 12 len.toNat)],
      result := 0, cmdErr := .ok }
  /-- a slave's SEND -/
  | sentSlave (now : Word) (rest : List Transaction) (w : Word) (len : Half)
    (kind : s.nextIsSend = true) (ready : s.initDone = true) (role : s.role = .slave)
    (legal : legalLen s.params len = true) :
    Moved s { s with
      now := now, pending := rest, cmd := w,
      mem := (s.buildFrame s.peerAddr s.rxSeq len).mem, txLen := len,
      stats := s.stats.bump .txNew,
      spans := s.spans ++ [frameBytes s.params s.peerAddr s.localAddr s.rxSeq len
        (slice s.tx 12 len.toNat)],
      result := 0, cmdErr := .ok }
  /-- a CHECK_RX that finds an error in the frame -/
  | rejected (now : Word) (rest : List Transaction) (w : Word) (kind : s.nextIsCheckRx = true)
    (ready : s.initDone = true) (notNew : s.classify ≠ .newValid) (notDup : s.classify ≠ .duplicate) :
    Moved s { s with
      now := now, pending := rest, cmd := w, stats := s.stats.bump s.classify.counter,
      result := s.classify.code.setWidth 32, cmdErr := .ok }
  /-- a CHECK_RX that finds a duplicate -/
  | repeated (now : Word) (rest : List Transaction) (w : Word) (kind : s.nextIsCheckRx = true)
    (ready : s.initDone = true) (role : s.role = .slave) :
    Moved s { s with
      now := now, pending := rest, cmd := w, stats := (s.stats.bump .rxDup).bump .txResend,
      spans := s.spans ++ [s.sentBytes], result := 1, cmdErr := .ok }
  /-- a master's CHECK_RX that accepts the frame -/
  | answered (now : Word) (rest : List Transaction) (w : Word) (kind : s.nextIsCheckRx = true)
    (ready : s.initDone = true) (role : s.role = .master) :
    Moved s { s with
      now := now, pending := rest, cmd := w, stats := s.stats.bump .rxNew, ackPending := false,
      retry := 0, result := 0, cmdErr := .ok }
  /-- a slave's CHECK_RX that accepts the frame -/
  | requested (now : Word) (rest : List Transaction) (w : Word) (kind : s.nextIsCheckRx = true)
    (ready : s.initDone = true) (role : s.role = .slave) :
    Moved s { s with
      now := now, pending := rest, cmd := w, stats := s.stats.bump .rxNew, rxSeq := frameSeq s.rx,
      result := 0, cmdErr := .ok }
  /-- a POLL_ACK that times out -/
  | timedOut (now : Word) (rest : List Transaction) (w : Word) (kind : s.nextIsPollAck = true)
    (ready : s.initDone = true) (waiting : s.ackPending = true) :
    Moved s { s with
      now := now, pending := rest, cmd := w, retry := s.retry + 1,
      stats := s.stats.bump .txResend, spans := s.spans ++ [s.sentBytes],
      tSend := if s.params.restampOnResend then now else s.tSend,
      result := s.retry + 1, cmdErr := .ok }
  /-- a POLL_ACK that does not -/
  | polled (now : Word) (rest : List Transaction) (w : Word) (kind : s.nextIsPollAck = true)
    (ready : s.initDone = true) :
    Moved s { s with now := now, pending := rest, cmd := w, result := s.retry, cmdErr := .ok }

theorem step_moved {s t : State} (h : step s = .next t) : Moved s t := by
  rcases step_cases h with ⟨-, rfl⟩ | ⟨op, now, rest, hp, h'⟩
  · exact .idle
  simp only at h'
  rcases h' with ⟨_, _, -, rfl⟩ | ⟨w, rfl, he⟩ | ⟨_, rfl, rfl⟩ | ⟨a, width, v, rfl, h1, h2, h3, rfl⟩ |
    ⟨_, _, _, -, -, rfl⟩ | ⟨rfl, rfl⟩
  · exact .quiet _ _ _
  · have hc : s.nextCommand = some (decode w) := by simp [State.nextCommand, hp]
    generalize hs : (s.accept { op := .write 0 4 w, now := now } rest).storeCmd w = s' at he
    rcases exec_cases he with ⟨r, l, p, e, rfl⟩ | ⟨d, len, e, hi, hl, rfl⟩ | ⟨e, hi, rfl⟩ |
      ⟨e, hi, rfl⟩ | ⟨⟨_, e⟩, rfl⟩ | ⟨e, -, rfl⟩ | ⟨_, _, e, -, -, rfl⟩
    · subst hs
      exact .init now rest w r l p (by simp [State.nextIsInit, hc, e])
    · have hk : s.nextIsSend = true := by simp [State.nextIsSend, hc, e]
      cases hr : s'.role with
      | master =>
        rw [State.sendNew_master hr]
        subst hs
        exact .sentMaster now rest w d len hk hi hr hl
      | slave =>
        rw [State.sendNew_slave hr]
        subst hs
        exact .sentSlave now rest w len hk hi hr hl
    · have hk : s.nextIsCheckRx = true := by simp [State.nextIsCheckRx, hc, e]
      rcases s'.checkFrame_cases with ⟨e1, e2, e⟩ | ⟨-, e2, e⟩ | ⟨-, e2, e⟩ | ⟨-, e2, e⟩ <;>
        rw [e] <;> subst hs
      · exact .rejected now rest w hk hi e1 e2
      · exact .repeated now rest w hk hi e2
      · exact .answered now rest w hk hi e2
      · exact .requested now rest w hk hi e2
    · have hk : s.nextIsPollAck = true := by simp [State.nextIsPollAck, hc, e]
      rcases s'.pollTimeout_cases with ⟨e1, e⟩ | ⟨-, e⟩ <;> rw [e]
      · simp only [State.timedOut, Bool.and_eq_true] at e1
        have hw := e1.1
        subst hs
        exact .timedOut now rest w hk hi hw
      · subst hs
        exact .polled now rest w hk hi
    · subst hs
      exact .failed now rest w .badop hc (by simp [State.nextIsInit, hc, e]) (by decide)
    · subst hs
      refine .failed now rest w .noinit hc ?_ (by decide)
      rcases e with e | e | ⟨_, _, e⟩ <;> simp [State.nextIsInit, hc, e]
    · subst hs
      exact .failed now rest w .badarg hc (by simp [State.nextIsInit, hc, e]) (by decide)
  · exact .delay _ _ _ (by simp [State.nextIsDelayWrite, hp])
  · rw [State.storeBytes_eq_mem,
      State.storeBytes_congr (s := s.accept { op := .write a width v, now := now } rest) (t := s) rfl rfl]
    exact .window now rest a v width (by simp [State.nextIsWindowWrite, hp, h1, h2, h3]) h1 h2 h3
  · exact .quiet now rest s.reads
  · exact .power now rest (by simp [State.nextIsPowerOn, hp])

end Sys2Proof.Machine
end

