-- ==== Sys2Proof/Machine/HostScript.lean ====
section
/-! DEFINITION. The host-program notation of 30_encoding.md R102 and R103, as the transactions it stands for. A
script is what the host will do; putting it into `State.pending` is the host's act, not the engine's. -/

namespace Sys2Proof.HostScript

open Sys2Proof Sys2Proof.Machine

/-- `WR reg, v` -/
def wr (r : Reg) (v : Word) : HostOp := .write (BitVec.ofNat 16 r.offset) 4 v

/-- `RD reg` -/
def rd (r : Reg) : HostOp := .read (BitVec.ofNat 16 r.offset) 4

/-- `WRB TX[o], b` -/
def wrbTx (o : Nat) (b : Byte) : HostOp := .write (BitVec.ofNat 16 (txBase + o)) 1 (b.setWidth 32)

/-- `WRB RX[o], b` -/
def wrbRx (o : Nat) (b : Byte) : HostOp := .write (BitVec.ofNat 16 (rxBase + o)) 1 (b.setWidth 32)

/-- `RDB TX[o]` -/
def rdbTx (o : Nat) : HostOp := .read (BitVec.ofNat 16 (txBase + o)) 1

/-- `RDB RX[o]` -/
def rdbRx (o : Nat) : HostOp := .read (BitVec.ofNat 16 (rxBase + o)) 1

/-- `INIT M, local, peer`, `INIT S, local, peer`, `SEND dest, len`, `CHECK_RX` or `POLL_ACK`. -/
def command (i : Instr) : HostOp := wr .cmd (encode i)

/-- `CFGDELAY d` -/
def cfgDelay (d : Word) : HostOp := wr .delayCfg d

/-- `LOADTX o, b0 b1 ... bk` -/
def loadTx (o : Nat) : List Byte → List HostOp
  | [] => []
  | b :: bs => wrbTx o b :: loadTx (o + 1) bs

/-- `LOADRX o, b0 b1 ... bk` -/
def loadRx (o : Nat) : List Byte → List HostOp
  | [] => []
  | b :: bs => wrbRx o b :: loadRx (o + 1) bs

/-- `PAYLOAD b0 ... bk` -/
def payload (bs : List Byte) : List HostOp := loadTx Config.hdr bs

/-- `@t`: the transactions take place while the `now` input has the level `t`. -/
def at_ (t : Word) (ops : List HostOp) : List Transaction := ops.map fun op => { op := op, now := t }

/-- The host adds transactions to the end of what it will do. -/
def enqueue (s : State) (ts : List Transaction) : State := { s with pending := s.pending ++ ts }

/-- `DELIVER A -> B`: the host will write the last span A emitted to B's RX buffer (00_scope.md R8). -/
def deliver (a b : State) : State :=
  enqueue b (at_ b.now (loadRx 0 (a.spans.getLast?.getD [])))

/-- The boot sequence (70_reset_and_hazards.md R255): delay, INIT, and a look at STATUS. -/
def boot (delay : Word) (role : Role) (localAddr peerAddr : Byte) : List HostOp :=
  [cfgDelay delay, command (.init role localAddr peerAddr), rd .status]

end Sys2Proof.HostScript
end

