-- ==== Sys2Proof/Tests/Slice0.lean ====
section
/-! SUPPORT. Small tests: the smoke test of WellFormed, words written out from 30_encoding.md, single commands
with the results that 95_test_vectors.md gives, and for each statement with hypotheses a named theorem that
shows all of them met together. -/

namespace Sys2Proof.Tests

open Sys2Proof Sys2Proof.Machine

/-! ### Helpers -/

/-- The example parameters of 95_test_vectors.md section 0: BUF_CAP 64, 0xAA, 0x7E, no restamping. -/
def params : Params := ⟨51, 0xAA, 0x7E, false⟩

/-- An engine right after INIT with a delay of 50, at time 1000. -/
def ready (role : Role) (localAddr peerAddr : Byte) : State :=
  { State.reset with
    params := params, now := 1000, initDone := true, role := role, localAddr := localAddr,
    peerAddr := peerAddr, delayCfg := 50, maxDelay := 50, mem := .zeroed }

/-- The buffers with bytes stored at a bus address. -/
def stored (s : State) (a : Nat) (bs : List Byte) : State := { s with mem := s.mem.writeBytes a bs }

/-- A result is a next state with a property. -/
def answers (r : Result) (p : State → Bool) : Bool :=
  match r with
  | .next t => p t
  | .fault _ => false
  | .refused _ => false

/-- The payload HELLO. -/
def hello : List Byte := [0x48, 0x45, 0x4C, 0x4C, 0x4F]

/-- The request of program P1. -/
def request : List Byte := [0xAA, 0xAA, 0xAA, 0x7E, 0x16, 0x6E, 0x66, 0x64, 1, 0, 5, 0] ++ hello

/-- The reply of program P1. -/
def replyFrame : List Byte := [0xAA, 0xAA, 0xAA, 0x7E, 0xAD, 0xB4, 0x64, 0x66, 1, 0, 2, 0, 0x4F, 0x4B]

/-- Program P1's master before its SEND. -/
def sender : State := stored (ready .master 100 0) 0x100C hello

/-- Program P1's slave with the request in RX. -/
def receiver : State := stored (ready .slave 102 100) rxBase request

/-- The master of 95_test_vectors.md section 2.6: waiting, two timeouts behind it, the frame given in RX. -/
def waiting (frame : List Byte) : State :=
  stored { ready .master 100 0 with
    txSeq := 1, ackPending := true, retry := 2, tSend := 1000, lastDest := 102, txLen := 5 } rxBase frame

/-! ### WellFormed -/

theorem test_wf_refuses_opcodes_of_other_rows :
    (Instr.reserved 0x1).wf = false ∧ (Instr.reserved 0x2).wf = false ∧
      (Instr.reserved 0x3).wf = false ∧ (Instr.reserved 0x4).wf = false := by decide

theorem test_wf_accepts_reserved_opcodes :
    (Instr.reserved 0x0).wf = true ∧ (Instr.reserved 0x5).wf = true ∧
      (Instr.reserved 0xF).wf = true := by decide

/-! ### Decoding: the words of 95_test_vectors.md section 2, bit by bit from 30_encoding.md R91 -/

theorem test_decode_init_master : decode 0b00000000000000000110010000000001#32 = .init .master 100 0 := by
  decide

theorem test_decode_init_slave : decode 0b00000000011001000110011000010001#32 = .init .slave 102 100 := by
  decide

theorem test_decode_send : decode 0b00000000000001010110011000000010#32 = .send 102 5 := by decide

theorem test_decode_checkRx : decode 0b00000000000000000000000000000011#32 = .checkRx := by decide

theorem test_decode_pollAck : decode 0b00000000000000000000000000000100#32 = .pollAck := by decide

theorem test_decode_reserved :
    decode 0b00000000000000000000000000000000#32 = .reserved 0x0 ∧
      decode 0b11111111111111111111111111110101#32 = .reserved 0x5 := by decide

theorem test_decode_ignored_bits : decode 0x12345671 = .init .slave 0x56 0x34 := by decide

theorem test_encode_program_words :
    encode (.init .slave 102 100) = 0x00646611 ∧ encode (.send 102 5) = 0x00056602 := by decide

theorem test_decodeTableWord :
    decodeTableWord 32 0x00056602 = some (.send 102 5) ∧ decodeTableWord 8 0x3 = some .checkRx ∧
      decodeTableWord 40 0x3 = none := by decide

theorem test_decodeBytes_rejects_a_short_word :
    decodeBytes [0x03, 0, 0] = .error .truncatedWord := by rfl

/-! ### The checksum unit and NEXT_SEQ (95_test_vectors.md sections 2.1 and 2.2) -/

theorem test_csum_corners :
    csum [] = 0xFFFF ∧ csum [0x01] = 0xFFFE ∧ csum [0xFF, 0xFF] = 0x0000 ∧
      csum [0x00, 0x80, 0x00, 0x80] = 0xFFFE ∧ csum [0x01, 0x02, 0x03] = 0xFDFB := by decide

theorem test_csum_request : csum ([1, 0, 5, 0] ++ hello) = 0x6E16 := by decide

theorem test_nextSeq :
    nextSeq 0 = 1 ∧ nextSeq 0x7FFF = 0x8000 ∧ nextSeq 0xFFFE = 0xFFFF ∧ nextSeq 0xFFFF = 1 := by decide

/-! ### INIT (95_test_vectors.md section 2.3) -/

theorem test_init_from_a_waiting_master :
    answers (exec (.init .slave 102 100) (waiting replyFrame)) fun t =>
      t.status == 0x003 && t.localAddr == 102 && t.peerAddr == 100 && t.retry == 0 && t.rx 0 == 0 := by
  decide

theorem test_init_takes_delayCfg :
    answers (exec (.init .master 5 5) { ready .slave 1 2 with delayCfg := 7, maxDelay := 50 }) fun t =>
      t.maxDelay == 7 && t.delayCfg == 7 && t.localAddr == 5 && t.peerAddr == 5 := by decide

/-! ### SEND (95_test_vectors.md section 2.4) -/

theorem test_send_master :
    answers (exec (.send 102 5) sender) fun t =>
      t.spans == [request] && t.txSeq == 1 && t.tSend == 1000 && t.lastDest == 102 && t.status == 0x005 := by
  decide

theorem test_send_slave_ignores_dest :
    answers (exec (.send 55 2) (stored { ready .slave 102 100 with rxSeq := 1 } 0x100C [0x4F, 0x4B]))
      fun t => t.spans == [replyFrame] && t.txLen == 2 && !t.ackPending && t.txSeq == 0 && t.tSend == 0 := by
  decide

/-! ### CHECK_RX (95_test_vectors.md sections 2.5 and 2.6) -/

theorem test_checkRx_slave_new_then_flipped_bit :
    (answers (exec .checkRx receiver) fun t => t.result == 0 && t.rxSeq == 1 && t.stats.rxNew == 1) ∧
      answers (exec .checkRx (stored receiver 0x2010 [0x4E])) fun t =>
        t.result == 8 && t.rxSeq == 0 && t.stats.errCsum == 1 := by decide

theorem test_checkRx_master_reply_and_foreign_source :
    (answers (exec .checkRx (waiting replyFrame)) fun t =>
      t.result == 0 && t.retry == 0 && !t.ackPending) ∧
      answers (exec .checkRx (stored (waiting replyFrame) 0x2007 [0x65])) fun t =>
        t.result == 5 && t.retry == 2 && t.ackPending := by decide

/-! ### POLL_ACK (95_test_vectors.md section 2.7) -/

theorem test_pollAck_boundary :
    (answers (exec .pollAck { waiting [] with now := 1049 }) fun t => t.result == 2 && t.spans == []) ∧
      answers (exec .pollAck { waiting [] with now := 1050 }) fun t =>
        t.result == 3 && t.spans.length == 1 && t.tSend == 1000 && t.stats.txResend == 1 := by decide

theorem test_pollAck_restamps :
    answers (exec .pollAck { waiting [] with params := ⟨51, 0xAA, 0x7E, true⟩, now := 999 }) fun t =>
      t.result == 3 && t.tSend == 999 := by decide

/-! ### Reserved opcodes and the bus (95_test_vectors.md sections 2.8 and 2.9) -/

theorem test_reserved_word_after_init :
    answers (runCommand 0x00000005 { ready .slave 102 100 with result := 7 }) fun t =>
      t.status == 0x103 && t.result == 7 && t.cmd == 5 := by decide

theorem test_reserved_beats_noinit :
    answers (runCommand 0x00000000 State.reset) (fun t => t.status == 0x100) ∧
      answers (runCommand 0x00000003 State.reset) (fun t => t.status == 0x200) := by decide

theorem test_bus_reads :
    receiver.busRead 0x2008 4 = 0x00050001 ∧ receiver.busRead 0x2009 2 = 0 ∧
      receiver.busRead 0x2040 1 = 0 ∧ receiver.busRead 0x0006 2 = 0 ∧
      receiver.busRead 0x0034 4 = 0x7EAA0040 ∧ receiver.busRead 0x3000 4 = 0 := by decide

theorem test_bus_writes :
    (answers (busWrite 0x2000 4 0x7EAAAAAA (ready .slave 102 100)) fun t =>
      t.rx 0 == 0xAA && t.rx 2 == 0xAA && t.rx 3 == 0x7E && t.mem.wf) ∧
      answers (busWrite 0x0002 2 0x0003 receiver) (fun t => t == receiver) := by decide

/-! ### A word from reset -/

theorem test_step_runs_the_placed_word :
    answers (step (State.reset.withFetchWord 32 0x00646611)) fun t =>
      t.status == 0x003 && t.localAddr == 102 && t.cmd == 0x00646611 && t.pending == [] := by decide

/-! ### Witnesses: states and operands that meet the hypotheses of the statements -/

/-- A test that a result is a next state with a property, as the statements say it. -/
theorem next_of_answers {r : Result} {p : State → Prop} [DecidablePred p]
    (h : answers r (fun t => decide (p t)) = true) : ∃ t, r = .next t ∧ p t := by
  cases r with
  | next t => exact ⟨t, rfl, of_decide_eq_true h⟩
  | fault f => cases f
  | refused _ => simp [answers] at h

/-- A slave whose last accepted request was the one in RX. -/
def answered : State := { receiver with rxSeq := 1, txLen := 2 }

theorem test_witness_IgnoredBitsDoNotAffectTheCommand :
    (0x12345671 : Word).extractLsb' 0 4 = 0x1 ∧ (0xFFFF00F2 : Word).extractLsb' 0 4 = 0x2 ∧
      (0x00000000 : Word).extractLsb' 0 4 ∉ [(0x1 : BitVec 4), 0x2, 0x3, 0x4] ∧
      (0x00000005 : Word).extractLsb' 0 4 ∉ [(0x1 : BitVec 4), 0x2, 0x3, 0x4] ∧
      (0xFFFFFFFF : Word).extractLsb' 0 4 ∉ [(0x1 : BitVec 4), 0x2, 0x3, 0x4] ∧
      ∃ t, runCommand 0xFFFFFFF3 receiver = .next t ∧ t.result = 0 :=
  ⟨by decide, by decide, by decide, by decide, by decide, next_of_answers (by decide)⟩

theorem test_witness_DecodeOfEncodeIsTheInstruction :
    (Instr.init .slave 0xFF 0xFF).wf = true ∧ (Instr.send 0xFF 0xFFFF).wf = true ∧
      (Instr.reserved 0x0).wf = true ∧ (Instr.reserved 0xF).wf = true := by decide

theorem test_witness_StepRunsTheWordWrittenToCmd :
    (receiver.withCommand 3).pending = { op := .write 0x0000 4 3, now := 1000 } :: [] ∧
      ∃ t, step (receiver.withCommand 3) = .next t ∧ t.nextCommand = none ∧ t.nextIsPowerOn = false ∧
        ∃ u, step t = .next u := ⟨rfl, _, rfl, rfl, rfl, _, rfl⟩

theorem test_witness_StepAlwaysAnswersNext : State.reset.pending = [] := rfl

theorem test_witness_UninitializedCommandsEndNoinit :
    State.reset.initDone = false ∧
      (∃ t, step { receiver with pending := [{ op := .powerOn, now := 0 }] } = .next t ∧
        t.initDone = false) ∧ receiver.initDone = true ∧
      ∃ t, exec (.init .slave 1 2) State.reset = .next t ∧ t.initDone = true :=
  ⟨rfl, ⟨_, rfl, rfl⟩, rfl, ⟨_, rfl, rfl⟩⟩

theorem test_witness_SendOfIllegalLengthEndsBadarg :
    sender.initDone = true ∧ sender.params.maxLen = 52 ∧ 52 < (53 : Half).toNat ∧
      (∃ t, exec (.send 102 53) sender = .next t ∧ t.cmdErr = .badarg) ∧
      ∃ t, exec (.send 102 0) sender = .next t ∧ t.cmdErr = .badarg :=
  ⟨rfl, rfl, by decide, next_of_answers (by decide), next_of_answers (by decide)⟩

theorem test_witness_CommandErrorPriority :
    (∃ t, runCommand 0x0000000F State.reset = .next t ∧ t.cmdErr = .badop) ∧
      (∃ t, runCommand 0x00000001 State.reset = .next t ∧ t.cmdErr = .ok) ∧
      (∃ t, runCommand 0x00000002 State.reset = .next t ∧ t.cmdErr = .noinit) ∧
      (∃ t, runCommand 0x00350002 sender = .next t ∧ t.cmdErr = .badarg) ∧
      ∃ t, runCommand 0x00340002 sender = .next t ∧ t.cmdErr = .ok :=
  ⟨next_of_answers (by decide), next_of_answers (by decide), next_of_answers (by decide),
    next_of_answers (by decide), next_of_answers (by decide)⟩

theorem test_witness_CommandErrorChangesOnlyCmdErr :
    ∃ t, exec .pollAck State.reset = .next t ∧ t.cmdErr ≠ .ok := next_of_answers (by decide)

theorem test_witness_InitLoadsConfigurationAndClearsAll :
    (0x12345671 : Word).extractLsb' 0 4 = 0x1 ∧ 0 < receiver.params.bufCap ∧ 63 < receiver.params.bufCap := by decide

theorem test_witness_DelayCfgTakesEffectAtInit :
    (∃ t, exec (.init .master 1 0) { sender with delayCfg := 99 } = .next t ∧ t.maxDelay = 99) ∧
      (∃ t, step ({ sender with delayCfg := 99 }.withCommand 0x00000101) = .next t ∧
        t.maxDelay ≠ sender.maxDelay) ∧
      (∀ role localAddr peerAddr, Instr.pollAck ≠ .init role localAddr peerAddr) ∧
      ∃ t, exec .pollAck sender = .next t :=
  ⟨next_of_answers (by decide), next_of_answers (by decide), by simp, _, rfl⟩

theorem test_witness_MasterSendBuildsFrameAndWaits :
    sender.initDone = true ∧ sender.role = .master ∧ 1 ≤ (1 : Half).toNat ∧ 1 ≤ (52 : Half).toNat ∧
      (52 : Half).toNat ≤ sender.params.maxLen ∧ txBase + 12 ≤ 0x100C ∧ 0x0FFF < txBase := by decide

theorem test_witness_SlaveSendEchoesTheWatermark :
    answered.initDone = true ∧ answered.role = .slave ∧ 1 ≤ (1 : Half).toNat ∧ 1 ≤ (52 : Half).toNat ∧
      (52 : Half).toNat ≤ answered.params.maxLen := by decide

theorem test_witness_NextSeqIsACycleThatSkipsZero :
    (0xFFFE : Half) ≠ 0xFFFF ∧ (1 : Half) ≠ 0 ∧ (0xFFFF : Half) ≠ 0 := by decide

theorem test_witness_ConsecutiveSendsCarryConsecutiveNumbers :
    sender.role = .master ∧
      ∃ t, exec (.send 102 5) sender = .next t ∧ t.cmdErr = .ok ∧ t.role = .master ∧
        ∃ u, exec (.send 103 1) t = .next u ∧ u.cmdErr = .ok :=
  ⟨rfl, _, rfl, rfl, rfl, next_of_answers (by decide)⟩

/-- The reply of P1 arrives late: its master has sent another request meanwhile, and CHECK_RX runs at another
time, with its own word in CMD. -/
def late : State := { (waiting replyFrame).sendNew 102 1 with cmd := 3, now := 2000 }

theorem test_witness_AbandonedRequestsLateReplyIsSeqErr :
    (waiting replyFrame).initDone = true ∧ (waiting replyFrame).role = .master ∧
      (waiting replyFrame).ackPending = true ∧
      (∃ t, exec (.send 102 1) (waiting replyFrame) = .next t ∧ t.cmdErr = .ok ∧
        late.initDone = t.initDone ∧ late.role = t.role ∧ late.params = t.params ∧
        late.localAddr = t.localAddr ∧ late.txSeq = t.txSeq ∧ late.lastDest = t.lastDest) ∧
      late.rxFramed ∧ late.rxSrc ∧ late.rxSeqField = (waiting replyFrame).txSeq := by
  have h := (late.classify_eq_iff .seqErr).1 (by decide)
  exact ⟨rfl, rfl, rfl, next_of_answers (by decide), h.1, h.2.1, by decide⟩

/-- The frame of 95_test_vectors.md section 2.5 whose checksum field is 0xFFFF. -/
def allOnes : State :=
  stored (ready .slave 102 100) rxBase
    [0xAA, 0xAA, 0xAA, 0x7E, 0xFF, 0xFF, 0x66, 0x64, 0xFE, 0xFF, 1, 0, 0]

theorem test_witness_ChecksumIsNeverAllOnes :
    (∃ t, exec (.send 102 5) sender = .next t ∧ t.cmdErr = .ok) ∧
      allOnes.initDone = true ∧ allOnes.rxFramed ∧ allOnes.rxSrc ∧ allOnes.rxInSequence ∧
      allOnes.rxLen ∧ allOnes.rxCsumField = 0xFFFF := by
  have h := (allOnes.classify_eq_iff .csumErr).1 (by decide)
  exact ⟨⟨_, rfl, rfl⟩, rfl, h.1, h.2.1, h.2.2.1, h.2.2.2.1, by decide⟩

theorem test_witness_OtherAccumulatorsConform :
    ([] : List Byte).length ≤ 4100 ∧ (List.replicate 4100 (0xFF : Byte)).length ≤ 4100 :=
  ⟨by decide, by rw [List.length_replicate]⟩

theorem test_witness_OneFlippedBitChangesTheChecksum :
    0 < ([0x01, 0x80] : List Byte).length ∧ 1 < ([0x01, 0x80] : List Byte).length ∧ 0 < 8 ∧ 7 < 8 := by
  decide

/-- Ranges of either parity: the bytes 1 0 2 and 2 0 1 have the words 1 and 2 in the two orders. -/
theorem test_witness_ChecksumBlindSpots :
    (wordsOf [1, 0, 2]).Perm (wordsOf [2, 0, 1]) ∧ (wordsOf [1, 0, 2, 0]).Perm (wordsOf [2, 0, 1]) ∧
      ([1, 2] : List Half).Perm [2, 1] ∧ ([] : List Byte).length ≤ 1 ∧ ([7] : List Byte).length ≤ 1 ∧
      (∃ w ∈ ([1] : List Half) ++ [], w ≠ 0) ∧ (∃ b ∈ ([7] : List Byte), b ≠ 0) ∧
      ∀ i, 8 ≤ i → (fun _ : Nat => (0 : Byte)) i = (fun j : Nat => if j < 8 then (1 : Byte) else 0) i := by
  refine ⟨.swap 2 1 [], .swap 2 1 [], .swap 2 1 [], by decide, by decide, ⟨1, by decide, by decide⟩,
    ⟨7, by decide, by decide⟩, fun i hi => ?_⟩
  simp [Nat.not_lt.2 hi]

theorem test_witness_CheckRxRejectsBadFraming :
    receiver.initDone = true ∧ ¬(stored receiver 0x2001 [0xAB]).rxPreamble ∧
      ((stored receiver 0x2003 [0x7F]).rxPreamble ∧ ¬(stored receiver 0x2003 [0x7F]).rxStart) ∧
      (stored receiver 0x2006 [0x67]).rxPreamble ∧ (stored receiver 0x2006 [0x67]).rxStart ∧
      ¬(stored receiver 0x2006 [0x67]).rxDest :=
  ⟨rfl, ((stored receiver 0x2001 [0xAB]).classify_eq_iff .preambleErr).1 (by decide),
    ((stored receiver 0x2003 [0x7F]).classify_eq_iff .startErr).1 (by decide),
    ((stored receiver 0x2006 [0x67]).classify_eq_iff .destErr).1 (by decide)⟩

theorem test_witness_CheckRxRejectsWrongPeer :
    ((stored (waiting replyFrame) 0x2007 [0x65]).rxFramed ∧
      (stored (waiting replyFrame) 0x2007 [0x65]).rx 7 ≠ (waiting replyFrame).lastDest) ∧
      ((stored (waiting replyFrame) 0x2008 [3]).rxFramed ∧
        (stored (waiting replyFrame) 0x2008 [3]).rx 7 = (waiting replyFrame).lastDest ∧
        (stored (waiting replyFrame) 0x2008 [3]).rxSeqField ≠ (waiting replyFrame).txSeq) ∧
      ((stored receiver 0x2007 [0x65]).rxFramed ∧
        (stored receiver 0x2007 [0x65]).rx 7 ≠ receiver.peerAddr) ∧ receiver.rxFramed := by
  refine ⟨⟨?_, by decide⟩, ⟨?_, by decide, by decide⟩, ⟨?_, by decide⟩, ?_⟩
  · exact (((stored (waiting replyFrame) 0x2007 [0x65]).classify_eq_iff .srcErr).1 (by decide)).1
  · exact (((stored (waiting replyFrame) 0x2008 [3]).classify_eq_iff .seqErr).1 (by decide)).1
  · exact (((stored receiver 0x2007 [0x65]).classify_eq_iff .srcErr).1 (by decide)).1
  · exact ((receiver.classify_eq_iff .newValid).1 (by decide)).1.1

theorem test_witness_CheckRxRejectsBadContent :
    ((stored receiver 0x200A [0, 0]).rxFramed ∧ (stored receiver 0x200A [0, 0]).rxSrc ∧
      (stored receiver 0x200A [0, 0]).rxInSequence ∧ ¬(stored receiver 0x200A [0, 0]).rxLen) ∧
      ((stored receiver 0x200A [53]).rxFramed ∧ (stored receiver 0x200A [53]).rxSrc ∧
        (stored receiver 0x200A [53]).rxInSequence ∧ ¬(stored receiver 0x200A [53]).rxLen) ∧
      ((stored receiver 0x2010 [0x4E]).rxFramed ∧ (stored receiver 0x2010 [0x4E]).rxSrc ∧
        (stored receiver 0x2010 [0x4E]).rxInSequence ∧ (stored receiver 0x2010 [0x4E]).rxLen ∧
        ¬(stored receiver 0x2010 [0x4E]).rxCsum) ∧
      (stored receiver 0x200A [52]).rxLen ∧ ¬(stored receiver 0x200A [52]).rxCsum := by
  have h := ((stored receiver 0x200A [52]).classify_eq_iff .csumErr).1 (by decide)
  exact ⟨((stored receiver 0x200A [0, 0]).classify_eq_iff .lenErr).1 (by decide),
    ((stored receiver 0x200A [53]).classify_eq_iff .lenErr).1 (by decide),
    ((stored receiver 0x2010 [0x4E]).classify_eq_iff .csumErr).1 (by decide), h.2.2.2⟩

theorem test_witness_SlaveDuplicateResendsTheReply :
    answered.initDone = true ∧ answered.rxValid ∧ answered.role = .slave ∧
      answered.rxSeqField = answered.rxSeq ∧ (waiting replyFrame).initDone = true ∧
      (waiting replyFrame).role = .master := by
  have h := (answered.classify_eq_iff .duplicate).1 (by decide)
  exact ⟨rfl, h.1, h.2.1, h.2.2, rfl, rfl⟩

theorem test_witness_NewValidFrameIsAccepted :
    ((waiting replyFrame).initDone = true ∧ (waiting replyFrame).rxValid ∧
      (waiting replyFrame).role = .master) ∧
      receiver.initDone = true ∧ receiver.rxValid ∧ receiver.role = .slave ∧
      receiver.rxSeqField ≠ receiver.rxSeq :=
  ⟨⟨rfl, (((waiting replyFrame).classify_eq_iff .newValid).1 (by decide)).1, rfl⟩,
    rfl, ((receiver.classify_eq_iff .newValid).1 (by decide)).1, rfl, by decide⟩

theorem test_witness_CheckRxCountsExactlyOneOutcome :
    (∃ t, exec .checkRx receiver = .next t ∧ t.cmdErr = .ok) ∧
      ∃ t, exec .checkRx answered = .next t ∧ t.cmdErr = .ok ∧ t.result = 1 :=
  ⟨next_of_answers (by decide), next_of_answers (by decide)⟩

theorem test_witness_OutcomesReachablePerRole :
    RxOutcome.seqErr ≠ .duplicate ∧ RxOutcome.duplicate ≠ .seqErr ∧
      (∃ t, exec .checkRx (waiting replyFrame) = .next t ∧ t.cmdErr = .ok) ∧
      ∃ t, exec .checkRx receiver = .next t ∧ t.cmdErr = .ok :=
  ⟨by decide, by decide, next_of_answers (by decide), next_of_answers (by decide)⟩

theorem test_witness_SecondCheckRxIsDuplicate :
    receiver.initDone = true ∧ receiver.role = .slave ∧
      ∃ t, exec .checkRx receiver = .next t ∧ t.result = 0 :=
  ⟨rfl, rfl, next_of_answers (by decide)⟩

/-- The last vector of 95_test_vectors.md section 2.6: a master before any SEND. -/
def neverSent : State :=
  stored (ready .master 100 0) rxBase
    [0xAA, 0xAA, 0xAA, 0x7E, 0xFE, 0xFF, 0x64, 0, 0, 0, 1, 0, 0]

theorem test_witness_MasterAcceptsARepeatedReply :
    (waiting replyFrame).initDone = true ∧ (waiting replyFrame).role = .master ∧
      (∃ t, exec .checkRx (waiting replyFrame) = .next t ∧ t.result = 0) ∧
      neverSent.initDone = true ∧ neverSent.role = .master ∧ neverSent.lastDest = 0 ∧
      neverSent.txSeq = 0 ∧ neverSent.rxFramed ∧ neverSent.rx 7 = 0 ∧ neverSent.rxSeqField = 0 ∧
      neverSent.rxLen ∧ neverSent.rxCsum := by
  have h := ((neverSent.classify_eq_iff .newValid).1 (by decide)).1
  exact ⟨rfl, rfl, next_of_answers (by decide), rfl, rfl, rfl, rfl, h.1, by decide, by decide,
    h.2.2.2.1, h.2.2.2.2⟩

/-- RX byte 17 is the first one past the request of P1, and it does change. -/
theorem test_witness_BytesPastTheFrameDoNotMatter :
    (∀ i, i < 12 ∨ (answered.rxLen ∧ i < 12 + answered.rxLenField.toNat) →
      (answered.mem.write 0x2011 0x55).read (rxBase + i) = answered.rx i) ∧
      (∀ i, i < 12 + answered.txLen.toNat →
        (answered.mem.write 0x2011 0x55).read (txBase + i) = answered.tx i) ∧
      (∃ t, exec .checkRx answered = .next t ∧ t.result = 1) ∧ answered.rx 17 ≠ 0x55 := by
  have hl : answered.rxLenField.toNat = 5 := by decide
  have ht : answered.txLen.toNat = 2 := by decide
  refine ⟨fun i hi => ?_, fun i hi => ?_, next_of_answers (by decide), by decide⟩
  · rw [hl] at hi
    exact Memory.read_write_other _ _ (by unfold rxBase; omega)
  · rw [ht] at hi
    exact Memory.read_write_other _ _ (by unfold txBase; omega)

theorem test_witness_OneFlippedBitIsCaughtAtTheReceiver :
    receiver.initDone = true ∧ receiver.rxValid ∧ (0 < 8 ∧ 7 < 8) ∧
      (12 ≤ 12 ∧ 16 < 12 + receiver.rxLenField.toNat) ∧ receiver.role = .slave :=
  ⟨rfl, ((receiver.classify_eq_iff .newValid).1 (by decide)).1, by decide, by decide, rfl⟩

theorem test_witness_PollAckResendsOnTimeout :
    let late : State := { waiting [] with now := 1050 }
    let early : State := { waiting [] with now := 1049 }
    (late.initDone = true ∧ late.ackPending = true ∧
      late.maxDelay.toNat ≤ (late.now - late.tSend).toNat) ∧
      (early.initDone = true ∧ (early.now - early.tSend).toNat < early.maxDelay.toNat) ∧
      sender.ackPending = false := by decide

theorem test_witness_TimeoutBoundary :
    (waiting []).initDone = true ∧ (waiting []).ackPending = true ∧ (waiting []).maxDelay ≠ 0 ∧
      { waiting [] with maxDelay := 0 : State }.maxDelay = 0 ∧
      (1 < 2 ^ 32 ∧ (waiting []).maxDelay.toNat ≤ 2 ^ 32 - 1) ∧
      2 ^ 32 - 2 < { waiting [] with maxDelay := 0xFFFFFFFF : State }.maxDelay.toNat := by decide

theorem test_witness_PollOnASlaveReturnsZero :
    receiver.RoleUse ∧ receiver.initDone = true ∧ receiver.role = .slave :=
  ⟨⟨by decide, by decide⟩, rfl, rfl⟩

theorem test_witness_ResendIsVerbatim :
    sender.initDone = true ∧ sender.role = .master ∧
      ∃ t, exec (.send 102 5) sender = .next t ∧ t.cmdErr = .ok ∧
        t.maxDelay.toNat ≤ ((1050 : Word) - t.tSend).toNat :=
  ⟨rfl, rfl, next_of_answers (by decide)⟩

theorem test_witness_ResendSendsTheBufferAsItStands :
    0 < 12 + (waiting []).txLen.toNat ∧ 16 < 12 + (waiting []).txLen.toNat ∧
      (waiting []).txLen.toNat ≤ (waiting []).params.maxLen := by decide

theorem test_witness_ResendBeforeAnySend :
    receiver.txLen = 0 ∧
      ∃ t, exec (.init .slave 102 100) sender = .next t ∧ t.txLen = t.txLen ∧
        ∀ i, i < 12 → t.tx i = t.tx i := ⟨rfl, _, rfl, rfl, fun _ _ => rfl⟩

/-- Steps that change the registers which the clauses speak of. -/
theorem test_witness_RegistersAreWrittenOnlyByTheirRows :
    (∃ t, step (State.reset.withCommand 0x00646611) = .next t ∧ t.cmd ≠ 0 ∧ t.initDone ≠ false ∧
      t.role ≠ .master) ∧
      (∃ t, step (sender.withCommand 0x00056602) = .next t ∧ t.ackPending ≠ false ∧ t.txSeq ≠ 0 ∧
        t.tSend ≠ 0 ∧ t.txLen ≠ 0) ∧
      (∃ t, step (receiver.withCommand 3) = .next t ∧ t.rxSeq ≠ receiver.rxSeq) ∧
      (∃ t, step ((waiting replyFrame).withCommand 3) = .next t ∧ t.retry ≠ 2 ∧ t.ackPending ≠ true) ∧
      ∃ t, step ({ waiting [] with params := ⟨51, 0xAA, 0x7E, true⟩, now := 1050 }.withCommand 4) =
        .next t ∧ t.tSend ≠ 1000 ∧ t.retry ≠ 2 ∧ t.result ≠ 0 ∧ t.cmdErr = .ok :=
  ⟨next_of_answers (by decide), next_of_answers (by decide), next_of_answers (by decide),
    next_of_answers (by decide), next_of_answers (by decide)⟩

theorem test_witness_RegistersAreWrittenOnlyByTheirRows_delayCfg :
    (∃ t, step { sender with pending := [{ op := .write 0x000C 4 99, now := 0 }] } = .next t ∧
      t.delayCfg ≠ sender.delayCfg) ∧
      ∃ t, step { sender with pending := [{ op := .powerOn, now := 0 }] } = .next t ∧
        t.delayCfg ≠ sender.delayCfg :=
  ⟨next_of_answers (by decide), next_of_answers (by decide)⟩

theorem test_witness_BuffersChangeOnlyByTheirWriters :
    (∃ t, step (sender.withCommand 0x00056602) = .next t ∧ t.mem.read 0x1000 ≠ sender.mem.read 0x1000 ∧
      t.mem.read 0x100B = 0) ∧
      (∃ t, step { sender with pending := [{ op := .write 0x200F 1 7, now := 0 }] } = .next t ∧
        t.mem.read 0x200F ≠ sender.mem.read 0x200F) ∧
      ∃ t, step (receiver.withCommand 0x00000001) = .next t ∧
        t.mem.read 0x2000 ≠ receiver.mem.read 0x2000 :=
  ⟨next_of_answers (by decide), next_of_answers (by decide), next_of_answers (by decide)⟩

theorem test_witness_OnlyAReplyOrARestartEndsTheWait :
    (waiting replyFrame).ackPending = true ∧
      (∃ t, step ((waiting replyFrame).withCommand 3) = .next t ∧ t.ackPending = false) ∧
      ∃ t, step ((waiting replyFrame).withCommand 0x00006401) = .next t ∧ t.ackPending = false :=
  ⟨rfl, next_of_answers (by decide), next_of_answers (by decide)⟩

theorem test_witness_CountersMoveOnlyOnTheirEvents :
    ∃ t, step (answered.withCommand 3) = .next t ∧ t.stats.get .rxDup = 1 ∧ t.stats.get .txResend = 1 ∧
      t.stats.get .rxNew = 0 := next_of_answers (by decide)

theorem test_witness_StepEmitsAtMostOneSpan :
    ∃ t, step (answered.withCommand 3) = .next t ∧ t.spans = [t.sentBytes] := next_of_answers (by decide)

/-- The invariants hold together in states where each of them says something. -/
theorem test_witness_StepKeepsTheInvariants :
    receiver.MemOk ∧ (waiting replyFrame).RoleUse ∧ answered.RoleUse ∧
      { answered with stats := { txResend := 3, rxDup := 3 } : State }.CountersOk ∧
      (waiting replyFrame).SentOk ∧ State.reset.BootOk ∧
      (∃ t, step (receiver.withCommand 3) = .next t) ∧ ∃ t, step (State.reset.withCommand 3) = .next t :=
  ⟨⟨by decide, by decide, by decide⟩, ⟨by decide, by decide⟩, ⟨by decide, by decide⟩,
    ⟨by decide, by decide⟩, ⟨by decide, by decide⟩, fun _ => by decide, ⟨_, rfl⟩, ⟨_, rfl⟩⟩

theorem test_witness_TxSeqFollowsTheNumberOfSends :
    sender.SendsSoFar 0 ∧
      { sender with txSeq := 1, stats := { txNew := 65536 } : State }.SendsSoFar 65536 ∧
      ((sender.withCommand 0x00056602).nextRestarts = false ∧
        ∃ t, step (sender.withCommand 0x00056602) = .next t ∧ t.cmdErr = .ok) ∧
      ((sender.withCommand 3).nextRestarts = false ∧ (sender.withCommand 3).nextIsSend = false) ∧
      (sender.withCommand 1).nextRestarts = true :=
  ⟨⟨rfl, rfl, rfl⟩, ⟨rfl, rfl, rfl⟩, ⟨rfl, next_of_answers (by decide)⟩, ⟨rfl, rfl⟩, rfl⟩

/-- One address for each alternative, at the ends of its range. -/
theorem test_witness_UnsupportedAccessesReadZeroAndWriteNothing :
    (0x0000 < 0x1000 ∧ 2 ≠ 4) ∧ 0x0002 % 4 ≠ 0 ∧ 0x006C ≤ 0x0FFC ∧
      (0x1000 ≤ 0x1001 ∧ 0x2FFF < 0x3000 ∧ 0x1001 % 2 ≠ 0 ∧ (8 ≠ 1 ∧ 8 ≠ 2 ∧ 8 ≠ 4)) ∧
      0x3000 ≤ (0xFFFF : BitVec 16).toNat ∧ (0x0004 ≠ 0x000 ∧ 0x0004 ≠ 0x00C) := by decide

theorem test_witness_WindowAccessesAreLittleEndian :
    (0x1000 ≤ (0x1000 : BitVec 16).toNat ∧ (0x1000 : BitVec 16).toNat % 4 = 0) ∧
      ((0x2FFF : BitVec 16).toNat < 0x3000 ∧ (0x2FFF : BitVec 16).toNat % 1 = 0) ∧
      4 ∈ [1, 2, 4] ∧ 1 ∈ [1, 2, 4] := by decide

theorem test_witness_OnlyAWriteToCmdHasASideEffect :
    (∃ s : State, s.pending = { op := .read 0x1000 4, now := 1 } :: []) ∧
      (∃ s : State, s.pending = { op := .write 0x000C 4 9, now := 1 } :: []) ∧
      ¬((0x000C : BitVec 16) = 0 ∧ 4 = 4) ∧ ¬((0x0000 : BitVec 16) = 0 ∧ 2 = 4) :=
  ⟨⟨{ State.reset with pending := [{ op := .read 0x1000 4, now := 1 }] }, rfl⟩,
    ⟨{ State.reset with pending := [{ op := .write 0x000C 4 9, now := 1 }] }, rfl⟩, by decide, by decide⟩

theorem test_witness_PowerOnResetClearsTheRegisters :
    Reg.cmd ≠ .param0 ∧ Reg.stat .errCsum ≠ .param1 ∧
      { receiver with pending := [{ op := .powerOn, now := 3 }] : State }.pending =
        { op := .powerOn, now := 3 } :: [] := by decide

theorem holds_of_slice {buf : Nat → Byte} {bs : List Byte} (h : slice buf 0 bs.length = bs) :
    Holds buf bs := by
  intro i hi
  have := slice_getElem buf 0 bs.length i (by simpa using hi)
  simp only [h, Nat.zero_add] at this
  exact this.symm

theorem test_witness_SlaveAcceptsWhatItsMasterSends :
    (∃ m', exec (.send receiver.localAddr 5) sender = .next m' ∧ m'.cmdErr = .ok ∧
      m'.spans = [request] ∧ receiver.rxSeq ≠ m'.txSeq) ∧
      sender.initDone = true ∧ sender.role = .master ∧ receiver.initDone = true ∧
      receiver.role = .slave ∧ receiver.peerAddr = sender.localAddr ∧
      receiver.params = sender.params ∧ (5 : Half).toNat ≤ receiver.params.maxLen ∧
      Holds receiver.rx request :=
  ⟨next_of_answers (by decide), rfl, rfl, rfl, rfl, rfl, rfl, by decide, holds_of_slice (by decide)⟩

/-- The slave of P1 with its reply payload in TX. -/
def replier : State := stored answered 0x100C [0x4F, 0x4B]

theorem test_witness_MasterAcceptsTheReplyItAskedFor :
    (∃ s', exec (.send 0 2) replier = .next s' ∧ s'.cmdErr = .ok ∧ s'.spans = [replyFrame]) ∧
      replier.initDone = true ∧ replier.role = .slave ∧ (waiting replyFrame).initDone = true ∧
      (waiting replyFrame).role = .master ∧ replier.peerAddr = (waiting replyFrame).localAddr ∧
      replier.rxSeq = (waiting replyFrame).txSeq ∧ replier.params = (waiting replyFrame).params ∧
      (2 : Half).toNat ≤ (waiting replyFrame).params.maxLen ∧ Holds (waiting replyFrame).rx replyFrame ∧
      (waiting replyFrame).lastDest = replier.localAddr ∧
      { waiting replyFrame with lastDest := 101 : State }.lastDest ≠ replier.localAddr :=
  ⟨next_of_answers (by decide), rfl, rfl, rfl, rfl, rfl, rfl, rfl, by decide, holds_of_slice (by decide),
    rfl, by decide⟩

theorem test_witness_ResetLeavesEveryRegisterZero :
    Reg.status ≠ .param0 ∧ Reg.stat .errCsum ≠ .param1 ∧
      (∃ t, exec .checkRx State.reset = .next t ∧ t.cmdErr ≠ .ok) ∧
      ∃ t, exec (.init .slave 1 2) State.reset = .next t ∧ t.cmdErr = .ok :=
  ⟨by decide, by decide, next_of_answers (by decide), _, rfl, rfl⟩

end Sys2Proof.Tests
end

/-! PROOFS. DELAY_CFG (10_state.md R27): its two bus accesses, what lets MAX_DELAY move, and that each command but
INIT commutes with a change of DELAY_CFG. -/

namespace Sys2Proof.Machine

/-! ### The register and its bus accesses -/

/-- The same state with another value in DELAY_CFG: what a host write to it leaves (`busWrite_delayCfg`). -/
def State.withDelayCfg (s : State) (v : Word) : State := { s with delayCfg := v }

theorem regAt_delayCfg : Reg.at? 0x00C = some .delayCfg := by decide

theorem busWrite_delayCfg (s : State) (v : Word) : busWrite 0x000C 4 v s = .next (s.withDelayCfg v) := by
  simp [busWrite, Target.of, txBase, regAccess, regAt_delayCfg, writeReg, State.withDelayCfg]

theorem State.busRead_delayCfg (s : State) : s.busRead 0x000C 4 = s.delayCfg := by
  simp [State.busRead, Target.of, txBase, regAccess, regAt_delayCfg, State.readReg]

/-! ### MAX_DELAY over a step -/

/-- Only INIT and a power-on reset write MAX_DELAY (10_state.md R26, R27). -/
theorem Moved.maxDelay_eq_or_nextRestarts {s t : State} (h : Moved s t) :
    t.maxDelay = s.maxDelay ∨ s.nextRestarts = true := by
  cases h with
  | power _ _ kind => exact .inr (by simp [State.nextRestarts, kind])
  | init _ _ _ _ _ _ kind => exact .inr (by simp [State.nextRestarts, kind])
  | _ => exact .inl rfl

/-! ### No command but INIT reads DELAY_CFG -/

theorem State.sendNew_withDelayCfg (s : State) (v : Word) (dest : Byte) (len : Half) :
    (s.withDelayCfg v).sendNew dest len = (s.sendNew dest len).withDelayCfg v := by
  cases h : s.role with
  | master =>
    have h' : (s.withDelayCfg v).role = .master := h
    rw [State.sendNew_master h, State.sendNew_master h']
    rfl
  | slave =>
    have h' : (s.withDelayCfg v).role = .slave := h
    rw [State.sendNew_slave h, State.sendNew_slave h']
    rfl

theorem State.acceptFrame_withDelayCfg (s : State) (v : Word) :
    (s.withDelayCfg v).acceptFrame = s.acceptFrame.withDelayCfg v := by
  have hr : (s.withDelayCfg v).role = s.role := rfl
  unfold State.acceptFrame
  rw [hr]
  cases s.role <;> rfl

theorem State.react_withDelayCfg (s : State) (v : Word) (o : RxOutcome) :
    (s.withDelayCfg v).react o = (s.react o).withDelayCfg v := by
  cases o with
  | newValid => exact s.acceptFrame_withDelayCfg v
  | _ => rfl

theorem State.checkFrame_withDelayCfg (s : State) (v : Word) :
    (s.withDelayCfg v).checkFrame = s.checkFrame.withDelayCfg v := by
  have hr := (s.count s.classify.counter).react_withDelayCfg v s.classify
  exact congrArg (State.finish · (s.classify.code.setWidth 32)) hr

theorem State.restamp_withDelayCfg (s : State) (v : Word) :
    (s.withDelayCfg v).restamp = s.restamp.withDelayCfg v := by
  have hp : (s.withDelayCfg v).params = s.params := rfl
  unfold State.restamp
  rw [hp]
  split <;> rfl

theorem State.pollTimeout_withDelayCfg (s : State) (v : Word) :
    (s.withDelayCfg v).pollTimeout = s.pollTimeout.withDelayCfg v := by
  have ht : (s.withDelayCfg v).timedOut = s.timedOut := rfl
  unfold State.pollTimeout
  rw [ht]
  cases s.timedOut with
  | true =>
    have hresent := s.countRetry.resend.restamp_withDelayCfg v
    exact congrArg (fun polled => polled.finish polled.retry) hresent
  | false => rfl

/-- The NOINIT check does not read DELAY_CFG, so a command behind it reads it only if its own effect does. -/
theorem State.whenInitialized_withDelayCfg {run : State → State} {v : Word}
    (hrun : ∀ s : State, run (s.withDelayCfg v) = (run s).withDelayCfg v) (s : State) :
    (s.withDelayCfg v).whenInitialized run = (s.whenInitialized run).withDelayCfg v := by
  have hi : (s.withDelayCfg v).initDone = s.initDone := rfl
  unfold State.whenInitialized
  rw [hi]
  split
  · exact hrun s
  · rfl

theorem exec_withDelayCfg {i : Instr} {s t : State}
    (hi : ∀ role localAddr peerAddr, i ≠ .init role localAddr peerAddr) (h : exec i s = .next t)
    (v : Word) : exec i (s.withDelayCfg v) = .next (t.withDelayCfg v) := by
  cases i with
  | init role localAddr peerAddr => exact absurd rfl (hi role localAddr peerAddr)
  | send dest len =>
    cases h
    refine congrArg Host.Outcome.next (State.whenInitialized_withDelayCfg (fun s => ?_) s)
    have hp : (s.withDelayCfg v).params = s.params := rfl
    rw [hp]
    split
    · exact s.sendNew_withDelayCfg v dest len
    · rfl
  | checkRx =>
    cases h
    exact congrArg Host.Outcome.next
      (State.whenInitialized_withDelayCfg (State.checkFrame_withDelayCfg · v) s)
  | pollAck =>
    cases h
    exact congrArg Host.Outcome.next
      (State.whenInitialized_withDelayCfg (State.pollTimeout_withDelayCfg · v) s)
  | reserved op =>
    cases h
    rfl

/-- Settles O12: the register's own accesses, INIT's copy, the steps that move MAX_DELAY, and one commutation
lemma per command that is not INIT. -/
theorem delayCfgTakesEffectAtInit : Obligations.DelayCfgTakesEffectAtInit := by
  refine ⟨busWrite_delayCfg, State.busRead_delayCfg, ?copied, ?moved, ?unread⟩
  case copied =>
    intro role localAddr peerAddr s t h
    rw [exec_init] at h
    cases h
    simp
  case moved =>
    intro s t h hne
    exact (step_moved h).maxDelay_eq_or_nextRestarts.resolve_left hne
  case unread =>
    intro i s t v hi h
    exact exec_withDelayCfg hi h v

end Sys2Proof.Machine

/-! PROOFS. Window accesses (20_memory.md R66): the word made of the bytes read, and what one aligned access of 1, 2
or 4 bytes does. -/

namespace Sys2Proof.Machine

/-! ### The word of the bytes read -/

/-- Byte `i` of the word is byte `i` of the list: the first byte read is the least significant. -/
theorem wordOfLowBytes_byte {bs : List Byte} {i : Nat} (hi : i < bs.length) (h4 : i < 4) :
    (wordOfLowBytes bs).extractLsb' (8 * i) 8 = bs[i] := by
  induction bs generalizing i with
  | nil => exact absurd hi (Nat.not_lt_zero i)
  | cons b bs ih =>
    cases i with
    | zero =>
      apply BitVec.eq_of_getLsbD_eq
      intro j hj
      have hword : j < 32 := by omega
      simp [wordOfLowBytes, hj, hword]
    | succ i =>
      rw [List.getElem_cons_succ, ← ih (Nat.lt_of_succ_lt_succ hi) (by omega)]
      apply BitVec.eq_of_getLsbD_eq
      intro j hj
      have hbit : 8 * (i + 1) + j = 8 * i + j + 8 := by omega
      have hword : 8 * i + j + 8 < 32 := by omega
      simp [wordOfLowBytes, hj, hbit, hword, BitVec.getLsbD_eq_getElem (show 8 * i + j < 32 by omega)]

/-- The word has no bit above its bytes. -/
theorem wordOfLowBytes_lt (bs : List Byte) : (wordOfLowBytes bs).toNat < 2 ^ (8 * bs.length) := by
  induction bs with
  | nil => decide
  | cons b bs ih =>
    have hsplit : 2 ^ (8 * (b :: bs).length) = 2 ^ (8 * bs.length) * 2 ^ 8 := by
      rw [List.length_cons, Nat.mul_succ, Nat.pow_add]
    have hb : b.toNat % 2 ^ 32 < 2 ^ (8 * (b :: bs).length) := by
      have hpos := Nat.two_pow_pos (8 * bs.length)
      have hbyte := b.isLt
      omega
    have hrest : (wordOfLowBytes bs).toNat <<< 8 % 2 ^ 32 < 2 ^ (8 * (b :: bs).length) := by
      rw [Nat.shiftLeft_eq]
      omega
    rw [wordOfLowBytes, BitVec.toNat_or, BitVec.toNat_shiftLeft, BitVec.toNat_setWidth]
    exact Nat.or_lt_two_pow hrest hb

/-! ### One aligned access -/

theorem windowAccess_iff (a width : Nat) :
    windowAccess a width = true ↔ width ∈ [1, 2, 4] ∧ a % width = 0 := by
  simp [windowAccess, or_assoc]

theorem targetOf_window {a : Nat} (hlo : 0x1000 ≤ a) (hhi : a < 0x3000) : Target.of a = .window := by
  simp [Target.of, txBase, hhi, Nat.not_lt.mpr hlo]

section
variable {addr : BitVec 16} {width : Nat}

theorem busWrite_window (hlo : 0x1000 ≤ addr.toNat) (hhi : addr.toNat < 0x3000)
    (haccess : windowAccess addr.toNat width = true) (v : Word) (s : State) :
    busWrite addr width v s = .next (s.storeBytes addr.toNat (lowBytes v width)) := by
  simp [busWrite, targetOf_window hlo hhi, haccess]

theorem State.busRead_window (hlo : 0x1000 ≤ addr.toNat) (hhi : addr.toNat < 0x3000)
    (haccess : windowAccess addr.toNat width = true) (s : State) :
    s.busRead addr width = wordOfLowBytes (slice s.windowByte addr.toNat width) := by
  simp [State.busRead, targetOf_window hlo hhi, haccess]

end

theorem State.storeBytes_frame (s : State) (a : Nat) (bs : List Byte) :
    { s.storeBytes a bs with mem := s.mem } = s := by
  rw [State.storeBytes_eq_mem]

/-- A window store of the low bytes of a word, said by the address of the byte read back. -/
theorem State.read_storeBytes_lowBytes (s : State) (a x width : Nat) (v : Word) :
    (s.storeBytes a (lowBytes v width)).mem.read x =
      if a ≤ x ∧ x < a + width ∧ x % 0x1000 < s.params.bufCap
      then v.extractLsb' (8 * (x - a)) 8 else s.mem.read x := by
  have hcond : ((a ≤ x ∧ x - a < (lowBytes v width).length) ∧ inBuffer s.params x = true) ↔
      (a ≤ x ∧ x < a + width ∧ x % 0x1000 < s.params.bufCap) := by
    rw [lowBytes_length, inBuffer, decide_eq_true_iff]
    omega
  simp only [State.read_storeBytes, hcond, lowBytes_getElem, dite_eq_ite]

/-! ### The statement -/

/-- Settles O55: the store by its effect on one byte and its frame, the read by the two facts about
`wordOfLowBytes`. -/
theorem windowAccessesAreLittleEndian : Obligations.WindowAccessesAreLittleEndian := by
  intro s addr width v hlo hhi hwidth haligned
  have haccess := (windowAccess_iff addr.toNat width).mpr ⟨hwidth, haligned⟩
  have hle : width ≤ 4 := by
    simp at hwidth
    omega
  refine ⟨⟨_, busWrite_window hlo hhi haccess v s, s.storeBytes_frame _ _, fun x =>
    s.read_storeBytes_lowBytes addr.toNat x width v⟩, ?bytes, ?above⟩
  case bytes =>
    intro i hi
    rw [State.busRead_window hlo hhi haccess, wordOfLowBytes_byte (by simpa using hi) (by omega),
      slice_getElem, State.windowByte]
    simp only [inBuffer, decide_eq_true_eq]
  case above =>
    rw [State.busRead_window hlo hhi haccess]
    simpa using wordOfLowBytes_lt (slice s.windowByte addr.toNat width)

end Sys2Proof.Machine

/-! PROOFS. The command word (30_encoding.md R90 to R95): what the decoder answers for each opcode, which bits its
operand fields are, and a read of CMD after a command. -/

namespace Sys2Proof

/-! ### The instruction of an opcode -/

theorem decode_of_init {w : Word} (h : opField w = 0x1) :
    decode w = .init (roleField w) (addrField w) (peerField w) := by
  simp [decode, h]

theorem decode_of_send {w : Word} (h : opField w = 0x2) :
    decode w = .send (addrField w) (lenField w) := by
  simp [decode, h]

theorem decode_of_reserved {w : Word} (h : opField w ∉ [(0x1 : BitVec 4), 0x2, 0x3, 0x4]) :
    decode w = .reserved (opField w) := by
  simp only [List.mem_cons, List.not_mem_nil, or_false, not_or] at h
  obtain ⟨hinit, hsend, hcheck, hpoll⟩ := h
  rw [decode, if_neg hinit, if_neg hsend, if_neg hcheck, if_neg hpoll]

/-! ### The operand fields as spans of bits -/

/-- The role is the bit R itself: no value of the bit is lost. -/
theorem roleField_bit (w : Word) : (roleField w).bit = w.extractLsb' 4 1 := by
  unfold roleField
  rcases BitVec.eq_zero_or_eq_one (w.extractLsb' 4 1) with h | h <;> rw [h] <;> rfl

theorem role_bit_eq_iff {r r' : Role} : r.bit = r'.bit ↔ r = r' := by
  cases r <;> cases r' <;> decide

theorem roleField_eq_iff (w w' : Word) :
    roleField w = roleField w' ↔ w.extractLsb' 4 1 = w'.extractLsb' 4 1 := by
  rw [← role_bit_eq_iff, roleField_bit, roleField_bit]

/-- INIT's two addresses stand side by side in `w[23:8]`. -/
theorem peerField_append_addrField (w : Word) : peerField w ++ addrField w = w.extractLsb' 8 16 :=
  BitVec.extractLsb'_append_extractLsb'_eq_extractLsb' rfl

/-- SEND's length and destination stand side by side in `w[31:8]`. -/
theorem lenField_append_addrField (w : Word) : lenField w ++ addrField w = w.extractLsb' 8 24 :=
  BitVec.extractLsb'_append_extractLsb'_eq_extractLsb' rfl

theorem append_eq_append_iff {m n : Nat} {hi hi' : BitVec m} {lo lo' : BitVec n} :
    hi ++ lo = hi' ++ lo' ↔ lo = lo' ∧ hi = hi' := by
  constructor
  · intro h
    have hlo := congrArg (BitVec.extractLsb' 0 n) h
    have hhi := congrArg (BitVec.extractLsb' n m) h
    rw [BitVec.extractLsb'_append_eq_right, BitVec.extractLsb'_append_eq_right] at hlo
    rw [BitVec.extractLsb'_append_eq_left, BitVec.extractLsb'_append_eq_left] at hhi
    exact ⟨hlo, hhi⟩
  · rintro ⟨rfl, rfl⟩
    rfl

/-! ### When two words are the same command -/

/-- Bits `w[7:5]` and `w[31:24]` of an INIT are ignored (30_encoding.md R92, R95). -/
theorem decode_init_eq_iff {w w' : Word} (h : opField w = 0x1) (h' : opField w' = 0x1) :
    decode w = decode w' ↔
      w.extractLsb' 4 1 = w'.extractLsb' 4 1 ∧ w.extractLsb' 8 16 = w'.extractLsb' 8 16 := by
  rw [decode_of_init h, decode_of_init h', Instr.init.injEq, roleField_eq_iff,
    ← peerField_append_addrField, ← peerField_append_addrField, append_eq_append_iff]

/-- Bits `w[7:4]` of a SEND are ignored (30_encoding.md R93, R95). -/
theorem decode_send_eq_iff {w w' : Word} (h : opField w = 0x2) (h' : opField w' = 0x2) :
    decode w = decode w' ↔ w.extractLsb' 8 24 = w'.extractLsb' 8 24 := by
  rw [decode_of_send h, decode_of_send h', Instr.send.injEq,
    ← lenField_append_addrField, ← lenField_append_addrField, append_eq_append_iff]

/-- A word that is no INIT and no SEND is told by its opcode alone (30_encoding.md R94, R95). -/
theorem decode_eq_of_opField_eq {w w' : Word} (hop : opField w = opField w') (hinit : opField w ≠ 0x1)
    (hsend : opField w ≠ 0x2) : decode w = decode w' := by
  rw [decode, decode, ← hop, if_neg hinit, if_neg hsend, if_neg hinit, if_neg hsend]

theorem opField_eq_of_decode_eq {w w' : Word} (h : decode w = decode w') : opField w = opField w' := by
  rw [← Laws.OpcodeField.decode_op, h, Laws.OpcodeField.decode_op]

theorem decode_eq_iff (w w' : Word) :
    decode w = decode w' ↔
      opField w = opField w' ∧
      (opField w = 0x1 →
        w.extractLsb' 4 1 = w'.extractLsb' 4 1 ∧ w.extractLsb' 8 16 = w'.extractLsb' 8 16) ∧
      (opField w = 0x2 → w.extractLsb' 8 24 = w'.extractLsb' 8 24) := by
  constructor
  · intro h
    have hop := opField_eq_of_decode_eq h
    exact ⟨hop, fun hinit => (decode_init_eq_iff hinit (hop ▸ hinit)).mp h,
      fun hsend => (decode_send_eq_iff hsend (hop ▸ hsend)).mp h⟩
  · rintro ⟨hop, hinitBits, hsendBits⟩
    by_cases hinit : opField w = 0x1
    · exact (decode_init_eq_iff hinit (hop ▸ hinit)).mpr (hinitBits hinit)
    · by_cases hsend : opField w = 0x2
      · exact (decode_send_eq_iff hsend (hop ▸ hsend)).mpr (hsendBits hsend)
      · exact decode_eq_of_opField_eq hop hinit hsend

end Sys2Proof

namespace Sys2Proof.Machine

/-! ### CMD over a command -/

theorem regAt_cmd : Reg.at? 0x000 = some .cmd := by decide

theorem State.busRead_cmd (s : State) : s.busRead 0x0000 4 = s.cmd := by
  simp [State.busRead, Target.of, txBase, regAccess, regAt_cmd, State.readReg]

/-- The word is stored before the command runs and no command writes CMD (30_encoding.md R90). -/
theorem runCommand_cmd {w : Word} {s t : State} (h : runCommand w s = .next t) : t.cmd = w := by
  obtain ⟨-, hcmd, -⟩ := exec_keeps h
  rw [hcmd, State.storeCmd_cmd]

theorem runCommand_reserved {w : Word} (h : opField w ∉ [(0x1 : BitVec 4), 0x2, 0x3, 0x4]) (s : State) :
    runCommand w s = .next ((s.storeCmd w).raise .badop) := by
  rw [runCommand, decode_of_reserved h, exec_reserved]

/-! ### The statement -/

/-- Settles O3: the operand fields of each format are spans of the word's bits, CMD is stored before the command
and kept by it, and a reserved opcode raises BADOP. -/
theorem ignoredBitsDoNotAffectTheCommand : Obligations.IgnoredBitsDoNotAffectTheCommand := by
  refine ⟨decode_eq_iff, ?readBack, fun w s h => runCommand_reserved h s⟩
  case readBack =>
    intro w s t h
    rw [State.busRead_cmd, runCommand_cmd h]

end Sys2Proof.Machine

/-! PROOFS. The checksum (40_checksum.md R111, R117, R118, R120): its value as a function of the sum of the words
alone, from which follow its closed form, the one sum that gives 0xFFFF, and what it does not detect. -/

namespace Sys2Proof.Machine

/-! ### The sum of the words -/

theorem half_toNat_eq_zero_iff (lo hi : Byte) : (half lo hi).toNat = 0 ↔ lo = 0 ∧ hi = 0 := by
  have hzero : ∀ b : Byte, b = 0 ↔ b.toNat = 0 := fun b => BitVec.toNat_eq
  rw [half_toNat, hzero, hzero]
  omega

theorem sumWords_eq_zero_iff (bs : List Byte) : sumWords bs = 0 ↔ ∀ b ∈ bs, b = 0 := by
  induction bs using sumWords.induct with
  | case1 => simp [sumWords]
  | case2 b => simpa [sumWords] using (BitVec.toNat_eq (x := b) (y := 0)).symm
  | case3 lo hi rest ih =>
    rw [sumWords, Nat.add_eq_zero_iff, half_toNat_eq_zero_iff, ih]
    simp [and_assoc]

theorem sumWords_le16_append (w : Half) (bs : List Byte) :
    sumWords (le16 w ++ bs) = w.toNat + sumWords bs := by
  simp [le16, sumWords]

/-- Whole words come first in the sum, whatever bytes follow them. -/
theorem sumWords_flatMap_le16_append (ws : List Half) (bs : List Byte) :
    sumWords (ws.flatMap le16 ++ bs) = (ws.map BitVec.toNat).sum + sumWords bs := by
  induction ws with
  | nil => simp
  | cons w ws ih =>
    rw [List.flatMap_cons, List.append_assoc, sumWords_le16_append, ih, List.map_cons, List.sum_cons,
      Nat.add_assoc]

/-- One word can be taken out of its place in the sum. -/
theorem sumWords_word_between (pre post : List Half) (w : Half) (bs : List Byte) :
    sumWords ((pre ++ w :: post).flatMap le16 ++ bs) =
      w.toNat + sumWords ((pre ++ post).flatMap le16 ++ bs) := by
  rw [sumWords_flatMap_le16_append, sumWords_flatMap_le16_append,
    (List.perm_middle.map BitVec.toNat).sum_eq, List.map_cons, List.sum_cons, Nat.add_assoc]

theorem sumWords_flatMap_le16_append_eq_zero_iff (ws : List Half) (bs : List Byte) :
    sumWords (ws.flatMap le16 ++ bs) = 0 ↔ (∀ w ∈ ws, w = 0) ∧ ∀ b ∈ bs, b = 0 := by
  rw [sumWords_flatMap_le16_append, Nat.add_eq_zero_iff, sumWords_eq_zero_iff, List.sum_eq_zero_iff]
  simp [BitVec.toNat_eq]

/-- The covered bytes are the sequence number, the length and the payload (40_checksum.md R114). -/
theorem sumWords_covered (buf : Nat → Byte) (n : Nat) :
    sumWords (slice buf 8 (4 + n)) =
      (half (buf 8) (buf 9)).toNat + ((half (buf 10) (buf 11)).toNat + sumWords (slice buf 12 n)) := by
  rw [Nat.add_comm 4 n]
  rfl

/-! ### The checksum by the sum -/

theorem csum_toNat (bs : List Byte) :
    (csum bs).toNat =
      0xFFFF - (if sumWords bs = 0 then 0 else 1 + (sumWords bs - 1) % 0xFFFF) := by
  have hfold : (if sumWords bs = 0 then 0 else 1 + (sumWords bs - 1) % 0xFFFF) < 2 ^ 16 := by
    split <;> omega
  rw [csum, BitVec.toNat_not, foldCarries_eq le_rfl, BitVec.toNat_ofNat, Nat.mod_eq_of_lt hfold]

/-- Of a nonzero sum the checksum is 0xFFFF minus a fold between 1 and 0xFFFF. -/
theorem csum_toNat_of_ne_zero {bs : List Byte} (h : sumWords bs ≠ 0) :
    (csum bs).toNat = 0xFFFE - (sumWords bs - 1) % 0xFFFF := by
  rw [csum_toNat, if_neg h]
  omega

theorem csum_eq_of_sumWords_eq {bs bs' : List Byte} (h : sumWords bs = sumWords bs') :
    csum bs = csum bs' := by
  rw [csum, csum, h]

/-- Nonzero sums that agree modulo 0xFFFF have the same checksum. -/
theorem csum_eq_of_sumWords_eq_add {bs bs' : List Byte} (h0 : sumWords bs ≠ 0)
    (h : sumWords bs' = sumWords bs + 0xFFFF) : csum bs = csum bs' := by
  apply BitVec.eq_of_toNat_eq
  rw [csum_toNat_of_ne_zero h0, csum_toNat_of_ne_zero (by omega), h]
  omega

theorem csum_eq_allOnes_iff (bs : List Byte) : csum bs = 0xFFFF ↔ sumWords bs = 0 := by
  rw [BitVec.toNat_eq]
  by_cases h0 : sumWords bs = 0
  · simp [csum_toNat, h0]
  · have hc := csum_toNat_of_ne_zero h0
    have hones : (0xFFFF : Half).toNat = 0xFFFF := rfl
    omega

/-! ### A frame's checksum -/

/-- A covered range whose length word is not zero has another checksum than 0xFFFF. -/
theorem csum_covered_ne_allOnes {buf : Nat → Byte} (h : 1 ≤ (half (buf 10) (buf 11)).toNat) (n : Nat) :
    csum (slice buf 8 (4 + n)) ≠ 0xFFFF := by
  rw [Ne, csum_eq_allOnes_iff, sumWords_covered]
  omega

theorem State.sendNew_mem (s : State) (dest : Byte) (len : Half) :
    (s.sendNew dest len).mem = (s.buildFrame (s.sendDest dest) s.sendSeq len).mem := by
  simp [State.sendNew]

/-- What SEND stores in the checksum field (42_send.md R140). -/
theorem State.buildFrame_csumField (s : State) (dest : Byte) (seq len : Half) :
    half ((s.buildFrame dest seq len).tx 4) ((s.buildFrame dest seq len).tx 5) =
      csum (le16 seq ++ le16 len ++ slice s.tx 12 len.toNat) := by
  have hframe := s.buildFrame_holds dest seq len
  rw [hframe 4 (by simp [frameBytes_length]; omega), hframe 5 (by simp [frameBytes_length]; omega)]
  exact half_le16 _

/-- A frame with a payload is not built with the checksum 0xFFFF. -/
theorem State.buildFrame_csumField_ne_allOnes (s : State) (dest : Byte) (seq : Half) {len : Half}
    (h : 1 ≤ len.toNat) :
    half ((s.buildFrame dest seq len).tx 4) ((s.buildFrame dest seq len).tx 5) ≠ 0xFFFF := by
  rw [State.buildFrame_csumField, Ne, csum_eq_allOnes_iff, List.append_assoc, sumWords_le16_append,
    sumWords_le16_append]
  omega

/-- A SEND that ends with OK has passed its checks and has built its frame (60_exceptions.md R225). -/
theorem exec_send_ok {dest : Byte} {len : Half} {s t : State} (h : exec (.send dest len) s = .next t)
    (hok : t.cmdErr = .ok) :
    s.initDone = true ∧ legalLen s.params len = true ∧ t = s.sendNew dest len := by
  rcases exec_cases h with ⟨_, _, _, hinit, _⟩ | ⟨_, _, hsend, hi, hl, ht⟩ | ⟨hcheck, _⟩ | ⟨hpoll, _⟩ |
    ⟨⟨_, hreserved⟩, _⟩ | ⟨_, _, rfl⟩ | ⟨_, _, _, _, _, rfl⟩
  case inr.inl =>
    cases hsend
    exact ⟨hi, hl, ht⟩
  case inr.inr.inr.inr.inr.inl | inr.inr.inr.inr.inr.inr => cases hok
  all_goals contradiction

/-! ### The statements -/

/-- Settles O19: the closed form is `csum_toNat`, and the sum of the words is 0 exactly when every byte is. -/
theorem csumClosedForm : Obligations.CsumClosedForm := fun bs =>
  ⟨csum_toNat bs, (csum_eq_allOnes_iff bs).trans (sumWords_eq_zero_iff bs)⟩

/-- Settles O20: a sum of 0 meets the checksum 0xFFFF, every other sum is completed to a multiple of 0xFFFF. -/
theorem sumPlusChecksumFoldsToAllOnes : Obligations.SumPlusChecksumFoldsToAllOnes := by
  intro bs
  by_cases h0 : sumWords bs = 0
  · have hc : (csum bs).toNat = 0xFFFF := by rw [(csum_eq_allOnes_iff bs).mpr h0]; rfl
    omega
  · have hc := csum_toNat_of_ne_zero h0
    omega

/-- Settles O18: the length word of a frame with a legal length keeps the sum of its words from being 0, both in
the frame a SEND builds and in the one a CHECK_RX compares with its checksum field. -/
theorem checksumIsNeverAllOnes : Obligations.ChecksumIsNeverAllOnes := by
  refine ⟨?sent, ?received⟩
  case sent =>
    intro dest len s t h hok
    obtain ⟨-, hlegal, rfl⟩ := exec_send_ok h hok
    have hlen := ((legalLen_iff s.params len).mp hlegal).1
    rw [State.tx_congr (s.sendNew_mem dest len)]
    exact s.buildFrame_csumField_ne_allOnes _ _ hlen
  case received =>
    intro s hinit hframed hsrc hseq hlen hfield
    have hcsum : ¬s.rxCsum := fun heq =>
      csum_covered_ne_allOnes hlen.1 s.rxLenField.toNat (heq.symm.trans hfield)
    have hverdict := (s.classify_eq_iff .csumErr).mpr ⟨hframed, hsrc, hseq, hlen, hcsum⟩
    exact exec_checkRx_rejected hinit hverdict (by decide) (by decide)

/-- Settles O23: a permutation keeps the sum, a word 0xFFFF in place of 0x0000 adds 0xFFFF to a sum that is not 0,
and the covered range starts at offset 8. -/
theorem checksumBlindSpots : Obligations.ChecksumBlindSpots := by
  refine ⟨?reordered, ?reorderedBeforeLast, ?zeroForAllOnes, ?uncovered⟩
  case reordered =>
    intro bs bs' hperm
    apply csum_eq_of_sumWords_eq
    rw [sumWords_eq_sum, sumWords_eq_sum, (hperm.map BitVec.toNat).sum_eq]
  case reorderedBeforeLast =>
    intro ws ws' last _ hperm
    apply csum_eq_of_sumWords_eq
    rw [sumWords_flatMap_le16_append, sumWords_flatMap_le16_append, (hperm.map BitVec.toNat).sum_eq]
  case zeroForAllOnes =>
    intro pre post last _ hne
    have hrest : sumWords ((pre ++ post).flatMap le16 ++ last) ≠ 0 := by
      rw [Ne, sumWords_flatMap_le16_append_eq_zero_iff]
      simpa only [not_and_or, not_forall, exists_prop] using hne
    have hzeros : _ = 0x0000 + _ := sumWords_word_between pre post 0x0000 last
    have hones : _ = 0xFFFF + _ := sumWords_word_between pre post 0xFFFF last
    exact csum_eq_of_sumWords_eq_add (by omega) (by omega)
  case uncovered =>
    intro buf buf' len hagree
    exact congrArg csum (slice_congr fun i hi _ => hagree i hi)

end Sys2Proof.Machine

/-! PROOFS. INIT (41_init.md R130): the registers it leaves, the buffers it leaves, and its operand fields. -/

namespace Sys2Proof.Machine

/-! ### What an initialized engine holds -/

section
variable (s : State) (role : Role) (localAddr peerAddr : Byte)

@[simp] theorem State.initialized_tx (i : Nat) : (s.initialized role localAddr peerAddr).tx i = 0 := by
  rw [State.tx, State.initialized_mem, Memory.zeroed_read]

@[simp] theorem State.initialized_rx (i : Nat) : (s.initialized role localAddr peerAddr).rx i = 0 := by
  rw [State.rx, State.initialized_mem, Memory.zeroed_read]

/-- The registers of 41_init.md R130, the buffers aside: what is not listed keeps its value. -/
theorem State.initialized_finish_registers :
    { (s.initialized role localAddr peerAddr).finish 0 with mem := s.mem } =
      { s with
        role := role, localAddr := localAddr, peerAddr := peerAddr, maxDelay := s.delayCfg,
        txSeq := 0, rxSeq := 0, ackPending := false, tSend := 0, retry := 0, lastDest := 0,
        txLen := 0, stats := {}, initDone := true, result := 0, cmdErr := .ok } := by
  apply State.ext <;> simp

end

/-! ### The statement -/

/-- Settles O11: `decode_of_init` gives the operands, `exec_init` the state INIT ends in, whose registers and
buffers the lemmas above say. -/
theorem initLoadsConfigurationAndClearsAll : Obligations.InitLoadsConfigurationAndClearsAll := by
  refine ⟨fun w hop => decode_of_init hop, fun role localAddr peerAddr s =>
    ⟨_, exec_init role localAddr peerAddr s, s.initialized_finish_registers role localAddr peerAddr, ?buffers⟩⟩
  case buffers =>
    intro i _
    rw [State.finish_tx, State.finish_rx]
    exact ⟨s.initialized_tx role localAddr peerAddr i, s.initialized_rx role localAddr peerAddr i⟩

end Sys2Proof.Machine

/-! PROOFS. SEND (42_send.md R141 to R144): the cycle of NEXT_SEQ, the frame a SEND leaves in TX, what it does for
each role, and the late reply to an abandoned request. -/

namespace Sys2Proof.Machine

/-! ### NEXT_SEQ as a number (42_send.md R144) -/

/-- The number after `n` is `n + 1` wrapped into 1 to 65535; 0, which no frame of a master carries, goes to 1. -/
theorem nextSeq_toNat (q : Half) : (nextSeq q).toNat = 1 + q.toNat % 65535 := by
  have hlt := q.isLt
  unfold nextSeq
  split
  case isTrue hlast => subst hlast; rfl
  case isFalse hne =>
    have hval : q.toNat ≠ 65535 := fun h => hne (BitVec.eq_of_toNat_eq h)
    bv_omega

theorem nextSeq_ne_zero (q : Half) : nextSeq q ≠ 0 := by
  have hpos : (nextSeq q).toNat ≠ 0 := by
    rw [nextSeq_toNat]
    omega
  exact fun h => hpos (congrArg BitVec.toNat h)

theorem nextSeq_ne_self (q : Half) : nextSeq q ≠ q := by
  intro h
  have hval := nextSeq_toNat q
  rw [h] at hval
  omega

/-- On the nonzero numbers, counted from 0, NEXT_SEQ adds 1 modulo 65535. -/
theorem nextSeq_iterate_toNat {q : Half} (hq : q ≠ 0) (k : Nat) :
    (nextSeq^[k] q).toNat = 1 + (q.toNat - 1 + k) % 65535 := by
  have hlt := q.isLt
  have hpos : q.toNat ≠ 0 := fun h => hq (BitVec.eq_of_toNat_eq h)
  induction k with
  | zero =>
    rw [Function.iterate_zero_apply]
    omega
  | succ k ih =>
    rw [Function.iterate_succ_apply', nextSeq_toNat, ih]
    omega

theorem nextSeq_iterate_eq_self_iff {q : Half} (hq : q ≠ 0) (k : Nat) :
    nextSeq^[k] q = q ↔ 65535 ∣ k := by
  have hlt := q.isLt
  have hpos : q.toNat ≠ 0 := fun h => hq (BitVec.eq_of_toNat_eq h)
  rw [← BitVec.toNat_inj, nextSeq_iterate_toNat hq]
  omega

/-! ### The number and the destination of each role -/

section
variable {s : State}

theorem State.sendSeq_master (h : s.role = .master) : s.sendSeq = nextSeq s.txSeq := by
  rw [State.sendSeq, h]

theorem State.sendSeq_slave (h : s.role = .slave) : s.sendSeq = s.rxSeq := by
  rw [State.sendSeq, h]

theorem State.sendDest_master (h : s.role = .master) (dest : Byte) : s.sendDest dest = dest := by
  rw [State.sendDest, h]

theorem State.sendDest_slave (h : s.role = .slave) (dest : Byte) : s.sendDest dest = s.peerAddr := by
  rw [State.sendDest, h]

end

/-! ### What a SEND leaves in memory, for either role (42_send.md R140) -/

theorem State.sendNew_holds (s : State) (dest : Byte) (len : Half) :
    Holds (s.sendNew dest len).tx
      (frameBytes s.params (s.sendDest dest) s.localAddr s.sendSeq len (slice s.tx 12 len.toNat)) := by
  rw [State.tx_congr (s.sendNew_mem dest len)]
  exact s.buildFrame_holds _ _ len

theorem State.read_sendNew_outside (s : State) (dest : Byte) (len : Half) {a : Nat}
    (h : a < txBase ∨ txBase + 12 ≤ a) : (s.sendNew dest len).mem.read a = s.mem.read a := by
  rw [State.sendNew_mem]
  exact s.read_buildFrame_outside _ _ len h

/-- A slave's SEND does not sample the time input (42_send.md R142). -/
theorem State.sendNew_now_of_slave {s : State} (h : s.role = .slave) (dest : Byte) (len : Half) (n : Word) :
    State.sendNew { s with now := n } dest len = { s.sendNew dest len with now := n } := by
  have h' : State.role { s with now := n } = .slave := h
  rw [State.sendNew_slave h, State.sendNew_slave h']
  rfl

/-! ### A reply that carries another number than the one awaited -/

/-- A master that awaits another number than the frame in RX carries rejects the frame, if its framing and source
pass (43_receive.md R164 (b)). -/
theorem exec_checkRx_seqErr {s : State} (hinit : s.initDone = true) (hrole : s.role = .master)
    (hframed : s.rxFramed) (hsrc : s.rxSrc) (hseq : s.rxSeqField ≠ s.txSeq) :
    exec .checkRx s = .next (s.rejected .errSeq 6) := by
  have hout : ¬s.rxInSequence := fun h => hseq (h hrole)
  have hverdict := (s.classify_eq_iff .seqErr).mpr ⟨hframed, hsrc, hout⟩
  exact exec_checkRx_rejected hinit hverdict (by decide) (by decide)

/-! ### The statements -/

/-- Settles O15: the values are NEXT_SEQ's definition, and the period is that of adding 1 modulo 65535. -/
theorem nextSeqIsACycleThatSkipsZero : Obligations.NextSeqIsACycleThatSkipsZero :=
  ⟨rfl, fun _ hne => if_neg hne, rfl, nextSeq_ne_zero, fun _ k hq => nextSeq_iterate_eq_self_iff hq k⟩

/-- Settles O13: a legal SEND is `State.sendNew`, whose registers `State.sendNew_master` says; the memory is what
any SEND leaves. -/
theorem masterSendBuildsFrameAndWaits : Obligations.MasterSendBuildsFrameAndWaits := by
  intro dest len s hinit hrole hmin hmax
  have hlegal := (legalLen_iff s.params len).mpr ⟨hmin, hmax⟩
  refine ⟨_, exec_send_legal hinit hlegal dest, ?registers, ?frame, fun a => s.read_sendNew_outside dest len⟩
  case registers =>
    rw [State.sendNew_master hrole]
    rfl
  case frame =>
    simpa only [State.sendDest_master hrole, State.sendSeq_master hrole] using s.sendNew_holds dest len

/-- Settles O14: as for a master, with the registers of `State.sendNew_slave`, in which neither the destination
operand nor the time input occurs. -/
theorem slaveSendEchoesTheWatermark : Obligations.SlaveSendEchoesTheWatermark := by
  intro dest len s hinit hrole hmin hmax
  have hlegal := (legalLen_iff s.params len).mpr ⟨hmin, hmax⟩
  refine ⟨_, exec_send_legal hinit hlegal dest, ?registers, ?frame,
    fun a => s.read_sendNew_outside dest len, ?unsampled⟩
  case registers =>
    rw [State.sendNew_slave hrole]
    rfl
  case frame =>
    simpa only [State.sendDest_slave hrole, State.sendSeq_slave hrole] using s.sendNew_holds dest len
  case unsampled =>
    intro n
    rw [← State.sendNew_now_of_slave hrole]
    exact exec_send_legal (s := { s with now := n }) hinit hlegal dest

/-- Settles O17: the SEND takes a number that differs from the one before it, so a reply that carries the old
number fails the sequence check. -/
theorem abandonedRequestsLateReplyIsSeqErr : Obligations.AbandonedRequestsLateReplyIsSeqErr := by
  intro dest len s t r _ hrole _ hsend hok
  obtain ⟨hinit, -, rfl⟩ := exec_send_ok hsend hok
  rw [State.sendNew_master hrole]
  refine ⟨rfl, rfl, rfl, rfl, rfl, ?lateReply⟩
  intro hrinit hrrole _ _ hrseq _ hframed hsrc hold
  refine exec_checkRx_seqErr (hrinit.trans hinit) (hrrole.trans hrole) hframed hsrc ?_
  rw [hold, hrseq]
  exact (nextSeq_ne_self s.txSeq).symm

end Sys2Proof.Machine

/-! PROOFS. CHECK_RX (43_receive.md R160 to R174): what it does for each verdict, which verdicts a role excludes, a
state for every verdict a role can return, and the bytes that the verdict reads. -/

namespace Sys2Proof.Machine

/-! ### What CHECK_RX does for each verdict

`exec_checkRx_rejected` says it for the errors; the verdict itself is `State.classify_eq_iff`. -/

section
variable {s t : State}

theorem exec_checkRx_duplicate (hinit : s.initDone = true) (hverdict : s.classify = .duplicate) :
    exec .checkRx s = .next { s with
      stats := (s.stats.bump .rxDup).bump .txResend
      spans := s.spans ++ [s.sentBytes]
      result := 1
      cmdErr := .ok } := by
  rw [exec_checkRx_initialized hinit]
  rcases s.checkFrame_cases with ⟨_, hne, _⟩ | ⟨_, _, e⟩ | ⟨hnew, _⟩ | ⟨hnew, _⟩
  · exact absurd hverdict hne
  · rw [e]
  all_goals exact absurd (hverdict.symm.trans hnew) (by decide)

theorem exec_checkRx_newValid_master (hinit : s.initDone = true) (hrole : s.role = .master)
    (hverdict : s.classify = .newValid) :
    exec .checkRx s = .next { s with
      ackPending := false
      retry := 0
      stats := s.stats.bump .rxNew
      result := 0
      cmdErr := .ok } := by
  rw [exec_checkRx_initialized hinit]
  rcases s.checkFrame_cases with ⟨hne, _⟩ | ⟨hdup, _⟩ | ⟨_, _, e⟩ | ⟨_, hslave, _⟩
  · exact absurd hverdict hne
  · exact absurd (hverdict.symm.trans hdup) (by decide)
  · rw [e]
  · exact absurd (hrole.symm.trans hslave) (by decide)

theorem exec_checkRx_newValid_slave (hinit : s.initDone = true) (hrole : s.role = .slave)
    (hverdict : s.classify = .newValid) :
    exec .checkRx s = .next { s with
      rxSeq := s.rxSeqField
      stats := s.stats.bump .rxNew
      result := 0
      cmdErr := .ok } := by
  rw [exec_checkRx_initialized hinit]
  rcases s.checkFrame_cases with ⟨hne, _⟩ | ⟨hdup, _⟩ | ⟨_, hmaster, _⟩ | ⟨_, _, e⟩
  · exact absurd hverdict hne
  · exact absurd (hverdict.symm.trans hdup) (by decide)
  · exact absurd (hrole.symm.trans hmaster) (by decide)
  · rw [e]
    rfl

/-- A source that is not the one the role asks for is SRC_ERR, once the framing passes. -/
theorem exec_checkRx_srcErr (hinit : s.initDone = true) (hframed : s.rxFramed)
    (hsrc : ¬s.rxSrc) : exec .checkRx s = .next (s.rejected .errSrc 5) :=
  exec_checkRx_rejected hinit ((s.classify_eq_iff .srcErr).mpr ⟨hframed, hsrc⟩) (by decide) (by decide)

/-- CHECK_RX runs on an initialized engine and ends with NOINIT on any other. -/
theorem exec_checkRx_cases (h : exec .checkRx s = .next t) :
    (s.initDone = true ∧ t = s.checkFrame) ∨ (s.initDone = false ∧ t = s.raise .noinit) := by
  cases hinit : s.initDone with
  | true =>
    rw [exec_checkRx_initialized hinit] at h
    cases h
    exact .inl ⟨rfl, rfl⟩
  | false =>
    rw [exec_checkRx_uninitialized hinit] at h
    cases h
    exact .inr ⟨rfl, rfl⟩

theorem exec_checkRx_ok (h : exec .checkRx s = .next t) (hok : t.cmdErr = .ok) :
    s.initDone = true ∧ t = s.checkFrame := by
  rcases exec_checkRx_cases h with hran | ⟨_, rfl⟩
  · exact hran
  · exact absurd hok (by simp)

/-- The counters after CHECK_RX: the outcome's own, and the resend of a duplicate (43_receive.md R170). -/
theorem State.checkFrame_stats (s : State) :
    s.checkFrame.stats =
      if s.classify = .duplicate then (s.stats.bump .rxDup).bump .txResend
      else s.stats.bump s.classify.counter := by
  rcases s.checkFrame_cases with ⟨_, hne, e⟩ | ⟨hdup, _, e⟩ | ⟨hnew, _, e⟩ | ⟨hnew, _, e⟩ <;> rw [e]
  · rw [if_neg hne]
  · rw [if_pos hdup]
  all_goals
    rw [hnew]
    rfl

/-! ### The outcome code tells the verdict -/

theorem RxOutcome.word_eq_iff (o o' : RxOutcome) :
    o.code.setWidth 32 = o'.code.setWidth 32 ↔ o = o' := by
  cases o <;> cases o' <;> decide

theorem exec_checkRx_result_eq_iff (hinit : s.initDone = true) (h : exec .checkRx s = .next t)
    (o : RxOutcome) : t.result = o.code.setWidth 32 ↔ s.classify = o := by
  rw [exec_checkRx_initialized hinit] at h
  cases h
  rw [State.checkFrame_result, RxOutcome.word_eq_iff]

/-! ### What the role excludes (43_receive.md R165, R168, R171) -/

theorem State.classify_ne_duplicate_of_master (hrole : s.role = .master) : s.classify ≠ .duplicate := by
  intro h
  obtain ⟨_, hslave, _⟩ := (s.classify_eq_iff .duplicate).mp h
  exact absurd (hrole.symm.trans hslave) (by decide)

theorem State.classify_ne_seqErr_of_slave (hrole : s.role = .slave) : s.classify ≠ .seqErr := by
  intro h
  obtain ⟨_, _, hout⟩ := (s.classify_eq_iff .seqErr).mp h
  exact hout fun hmaster => absurd (hrole.symm.trans hmaster) (by decide)

theorem State.classify_newValid_of_master (hrole : s.role = .master) (hvalid : s.rxValid) :
    s.classify = .newValid := by
  refine (s.classify_eq_iff .newValid).mpr ⟨hvalid, fun ⟨hslave, _⟩ => ?_⟩
  exact absurd (hrole.symm.trans hslave) (by decide)

end

/-! ### A state for every verdict (43_receive.md R171) -/

namespace Inspection

/-- BUF_CAP 64 and the marker bytes of 95_test_vectors.md section 0. -/
def params : Params := ⟨51, 0xAA, 0x7E, false⟩

/-- The frame with payload byte 7 for participant 100 from participant 0. -/
def frame (seq : Half) : List Byte := frameBytes params 100 0 seq 1 [7]

/-- A frame on which an engine right after INIT, with LOCAL_ADDR 100 and every other address and number 0, returns
the given outcome: number 0 is the last one a slave has seen and the one a master awaits. -/
def frameFor : Role → RxOutcome → List Byte
  | .master, .newValid => frame 0
  | .slave, .newValid => frame 1
  | _, .duplicate => frame 0
  | _, .preambleErr => (frame 0).set 2 0xAB
  | _, .startErr => (frame 0).set 3 0x7F
  | _, .destErr => (frame 0).set 6 101
  | _, .srcErr => (frame 0).set 7 1
  | _, .seqErr => frame 1
  | _, .lenErr => (frame 0).set 10 53
  | _, .csumErr => (frame 0).set 12 8

/-- The engine of the given role right after INIT, with that frame in RX. -/
def state (role : Role) (o : RxOutcome) : State :=
  { State.initialized { State.reset with params := params } role 100 0 with
    mem := Memory.zeroed.writeBytes rxBase (frameFor role o) }

theorem frameFor_length (role : Role) (o : RxOutcome) : (frameFor role o).length = 13 := by
  cases role <;> cases o <;> rfl

theorem state_memOk (role : Role) (o : RxOutcome) : (state role o).MemOk where
  canonical := Memory.writeBytes_wf Memory.zeroed_wf _ _
  inBuffers := by
    intro c hc
    have hcap : (state role o).params.bufCap = 64 := rfl
    rcases Memory.mem_writeBytes hc with ⟨hlow, hhigh⟩ | hzeroed
    · rw [frameFor_length] at hhigh
      rw [hcap]
      unfold txBase
      unfold rxBase at hlow hhigh
      omega
    · exact absurd hzeroed List.not_mem_nil
  filled := by
    have hfill : (state role o).mem.fill = .zero := Memory.writeBytes_fill ..
    exact iff_of_true rfl hfill

theorem state_roleUse (role : Role) (o : RxOutcome) : (state role o).RoleUse where
  slave := fun _ => ⟨rfl, rfl, rfl, rfl, rfl⟩
  master := fun _ => rfl

theorem state_sentOk (role : Role) (o : RxOutcome) : (state role o).SentOk where
  fits := Nat.zero_le _
  waiting := fun hwait => absurd hwait Bool.false_ne_true

theorem state_countersOk (role : Role) (o : RxOutcome) : (state role o).CountersOk where
  slave := fun _ => ⟨rfl, rfl⟩
  master := fun _ => rfl

theorem classify_master {o : RxOutcome} (ho : o ≠ .duplicate) : (state .master o).classify = o := by
  cases o with
  | duplicate => exact absurd rfl ho
  | _ => decide

theorem classify_slave {o : RxOutcome} (ho : o ≠ .seqErr) : (state .slave o).classify = o := by
  cases o with
  | seqErr => exact absurd rfl ho
  | _ => decide

/-- A role returns every outcome that its verdict on the frame above is. -/
theorem outcome_returned {role : Role} {o : RxOutcome} (hverdict : (state role o).classify = o) :
    ∃ s t : State, s.MemOk ∧ s.RoleUse ∧ s.SentOk ∧ s.CountersOk ∧ s.role = role ∧
      exec .checkRx s = .next t ∧ t.cmdErr = .ok ∧ t.result = o.code.setWidth 32 := by
  have hexec := exec_checkRx_initialized (s := state role o) rfl
  exact ⟨_, _, state_memOk role o, state_roleUse role o, state_sentOk role o, state_countersOk role o, rfl,
    hexec, State.checkFrame_cmdErr _, (exec_checkRx_result_eq_iff rfl hexec o).mpr hverdict⟩

end Inspection

/-! ### The bytes CHECK_RX reads (43_receive.md R174) -/

section
variable {s t : State} {m : Memory}

/-- The same state with other buffers. -/
def State.withMem (s : State) (m : Memory) : State := { s with mem := m }

/-- A memory agrees with RX on the header and, where the length is legal, on the payload. -/
def State.SameFrame (s : State) (m : Memory) : Prop :=
  ∀ i, i < 12 ∨ (s.rxLen ∧ i < 12 + s.rxLenField.toNat) → (s.withMem m).rx i = s.rx i

/-- The verdict depends on the checks alone, and on the checksum only where the length is legal. -/
theorem State.classify_congr (hpre : t.rxPreamble ↔ s.rxPreamble) (hstart : t.rxStart ↔ s.rxStart)
    (hdest : t.rxDest ↔ s.rxDest) (hsrc : t.rxSrc ↔ s.rxSrc) (hseq : t.rxInSequence ↔ s.rxInSequence)
    (hlen : t.rxLen ↔ s.rxLen) (hcsum : s.rxLen → (t.rxCsum ↔ s.rxCsum))
    (hrep : t.rxRepeats ↔ s.rxRepeats) : t.classify = s.classify := by
  have hframed : t.rxFramed ↔ s.rxFramed := and_congr hpre (and_congr hstart hdest)
  have hcontent : t.rxLen ∧ t.rxCsum ↔ s.rxLen ∧ s.rxCsum := by
    rw [hlen]
    exact and_congr_right hcsum
  have hbad : t.rxLen ∧ ¬t.rxCsum ↔ s.rxLen ∧ ¬s.rxCsum := by
    rw [hlen]
    exact and_congr_right fun hlegal => not_congr (hcsum hlegal)
  have hvalid : t.rxValid ↔ s.rxValid :=
    and_congr hframed (and_congr hsrc (and_congr hseq hcontent))
  have hs := (s.classify_eq_iff s.classify).mp rfl
  refine (t.classify_eq_iff s.classify).mpr ?_
  generalize s.classify = o at hs ⊢
  cases o with
  | newValid => exact (and_congr hvalid (not_congr hrep)).mpr hs
  | duplicate => exact (and_congr hvalid hrep).mpr hs
  | preambleErr => exact (not_congr hpre).mpr hs
  | startErr => exact (and_congr hpre (not_congr hstart)).mpr hs
  | destErr => exact (and_congr hpre (and_congr hstart (not_congr hdest))).mpr hs
  | srcErr => exact (and_congr hframed (not_congr hsrc)).mpr hs
  | seqErr => exact (and_congr hframed (and_congr hsrc (not_congr hseq))).mpr hs
  | lenErr => exact (and_congr hframed (and_congr hsrc (and_congr hseq (not_congr hlen)))).mpr hs
  | csumErr => exact (and_congr hframed (and_congr hsrc (and_congr hseq hbad))).mpr hs

theorem State.SameFrame.header (h : s.SameFrame m) {i : Nat} (hi : i < 12) :
    (s.withMem m).rx i = s.rx i := h i (.inl hi)

theorem State.SameFrame.rxSeqField (h : s.SameFrame m) :
    (s.withMem m).rxSeqField = s.rxSeqField := by
  rw [State.rxSeqField, h.header (i := 9) (by decide), h.header (i := 8) (by decide)]
  rfl

theorem State.SameFrame.rxLenField (h : s.SameFrame m) :
    (s.withMem m).rxLenField = s.rxLenField := by
  rw [State.rxLenField, h.header (i := 11) (by decide), h.header (i := 10) (by decide)]
  rfl

theorem State.SameFrame.rxCsumField (h : s.SameFrame m) :
    (s.withMem m).rxCsumField = s.rxCsumField := by
  rw [State.rxCsumField, h.header (i := 5) (by decide), h.header (i := 4) (by decide)]
  rfl

/-- Where the length is legal, the checksum covers only bytes on which the two agree. -/
theorem State.SameFrame.rxCsum_iff (h : s.SameFrame m) (hlen : s.rxLen) :
    (s.withMem m).rxCsum ↔ s.rxCsum := by
  have hcovered : slice (s.withMem m).rx 8 (4 + s.rxLenField.toNat) =
      slice s.rx 8 (4 + s.rxLenField.toNat) :=
    slice_congr fun i _ hi => h i (.inr ⟨hlen, by omega⟩)
  rw [State.rxCsum, h.rxCsumField, h.rxLenField, hcovered]
  rfl

theorem State.SameFrame.classify_eq (h : s.SameFrame m) : (s.withMem m).classify = s.classify := by
  refine State.classify_congr ?pre ?start ?dest ?src ?seq ?len h.rxCsum_iff ?rep
  case pre =>
    rw [State.rxPreamble, h.header (i := 0) (by decide), h.header (i := 1) (by decide),
      h.header (i := 2) (by decide)]
    rfl
  case start =>
    rw [State.rxStart, h.header (by decide)]
    rfl
  case dest =>
    rw [State.rxDest, h.header (by decide)]
    rfl
  case src =>
    rw [State.rxSrc, h.header (by decide)]
    rfl
  case seq =>
    rw [State.rxInSequence, h.rxSeqField]
    rfl
  case len =>
    rw [State.rxLen, h.rxLenField]
    rfl
  case rep =>
    rw [State.rxRepeats, h.rxSeqField]
    rfl

/-- Beside the verdict CHECK_RX reads the buffers only for the bytes it resends and the number it accepts. -/
theorem State.SameFrame.exec_checkRx (hframe : s.SameFrame m)
    (hsent : (s.withMem m).sentBytes = s.sentBytes) (hinit : s.initDone = true)
    (h : exec .checkRx s = .next t) : exec .checkRx (s.withMem m) = .next (t.withMem m) := by
  have hinit' : (s.withMem m).initDone = true := hinit
  have hverdict := hframe.classify_eq
  by_cases hdup : s.classify = .duplicate
  · rw [exec_checkRx_duplicate hinit hdup] at h
    cases h
    rw [exec_checkRx_duplicate hinit' (hverdict.trans hdup), hsent]
    rfl
  by_cases hnew : s.classify = .newValid
  · cases hrole : s.role with
    | master =>
      rw [exec_checkRx_newValid_master hinit hrole hnew] at h
      cases h
      exact exec_checkRx_newValid_master hinit' hrole (hverdict.trans hnew)
    | slave =>
      rw [exec_checkRx_newValid_slave hinit hrole hnew] at h
      cases h
      rw [exec_checkRx_newValid_slave hinit' hrole (hverdict.trans hnew), hframe.rxSeqField]
      rfl
  · rw [exec_checkRx_rejected hinit rfl hnew hdup] at h
    cases h
    exact exec_checkRx_rejected hinit' hverdict hnew hdup

end

/-! ### The statements -/

/-- Settles O24: each clause is the verdict of `State.classify_eq_iff` for its error. -/
theorem checkRxRejectsBadFraming : Obligations.CheckRxRejectsBadFraming := by
  intro s hinit
  refine ⟨?preamble, ?start, ?dest⟩
  case preamble =>
    intro hpre
    exact exec_checkRx_rejected hinit ((s.classify_eq_iff .preambleErr).mpr hpre) (by decide) (by decide)
  case start =>
    intro hpre hstart
    have hverdict := (s.classify_eq_iff .startErr).mpr ⟨hpre, hstart⟩
    exact exec_checkRx_rejected hinit hverdict (by decide) (by decide)
  case dest =>
    intro hpre hstart hdest
    have hverdict := (s.classify_eq_iff .destErr).mpr ⟨hpre, hstart, hdest⟩
    exact exec_checkRx_rejected hinit hverdict (by decide) (by decide)

/-- Settles O25: the source is the one `State.rxSrc` asks of the role; the number is compared on a master only. -/
theorem checkRxRejectsWrongPeer : Obligations.CheckRxRejectsWrongPeer := by
  intro s hinit hframed
  refine ⟨?masterSrc, ?masterSeq, ?slaveSrc, ?slaveSeq⟩
  case masterSrc =>
    intro hrole hne
    exact exec_checkRx_srcErr hinit hframed fun hsrc => hne (hsrc.1 hrole)
  case masterSeq =>
    intro hrole hlast hseq
    have hsrc : s.rxSrc := ⟨fun _ => hlast, fun hslave => absurd (hrole.symm.trans hslave) (by decide)⟩
    exact exec_checkRx_seqErr hinit hrole hframed hsrc hseq
  case slaveSrc =>
    intro hrole hne
    exact exec_checkRx_srcErr hinit hframed fun hsrc => hne (hsrc.2 hrole)
  case slaveSeq =>
    intro hrole t h hcode
    exact State.classify_ne_seqErr_of_slave hrole ((exec_checkRx_result_eq_iff hinit h .seqErr).mp hcode)

/-- Settles O26: as O24, for the length and then the checksum. -/
theorem checkRxRejectsBadContent : Obligations.CheckRxRejectsBadContent := by
  intro s hinit hframed hsrc hseq
  refine ⟨?len, ?csum⟩
  case len =>
    intro hillegal
    have hlen : ¬s.rxLen := fun ⟨hmin, hmax⟩ => by omega
    have hverdict := (s.classify_eq_iff .lenErr).mpr ⟨hframed, hsrc, hseq, hlen⟩
    exact exec_checkRx_rejected hinit hverdict (by decide) (by decide)
  case csum =>
    intro hmin hmax hcsum
    have hverdict := (s.classify_eq_iff .csumErr).mpr ⟨hframed, hsrc, hseq, ⟨hmin, hmax⟩, hcsum⟩
    exact exec_checkRx_rejected hinit hverdict (by decide) (by decide)

/-- Settles O27: a valid frame that repeats is the verdict DUPLICATE, which a master's frame never is. -/
theorem slaveDuplicateResendsTheReply : Obligations.SlaveDuplicateResendsTheReply := by
  refine ⟨?slave, ?master⟩
  case slave =>
    intro s hinit hvalid hrole hseq
    exact exec_checkRx_duplicate hinit ((s.classify_eq_iff .duplicate).mpr ⟨hvalid, hrole, hseq⟩)
  case master =>
    intro s t hinit hrole h hcode
    exact State.classify_ne_duplicate_of_master hrole
      ((exec_checkRx_result_eq_iff hinit h .duplicate).mp hcode)

/-- Settles O28: a valid frame that does not repeat is the verdict NEW_VALID. -/
theorem newValidFrameIsAccepted : Obligations.NewValidFrameIsAccepted := by
  intro s hinit hvalid
  refine ⟨?master, ?slave⟩
  case master =>
    intro hrole
    exact exec_checkRx_newValid_master hinit hrole (State.classify_newValid_of_master hrole hvalid)
  case slave =>
    intro hrole hne
    have hverdict := (s.classify_eq_iff .newValid).mpr ⟨hvalid, fun hrep => hne hrep.2⟩
    exact exec_checkRx_newValid_slave hinit hrole hverdict

/-- Settles O29: the outcome is the verdict, and `State.checkFrame_stats` says what it counts. -/
theorem checkRxCountsExactlyOneOutcome : Obligations.CheckRxCountsExactlyOneOutcome := by
  intro s t h hok
  obtain ⟨-, rfl⟩ := exec_checkRx_ok h hok
  refine ⟨s.classify, s.checkFrame_result, fun c => ?_⟩
  rw [s.checkFrame_stats]
  by_cases hdup : s.classify = .duplicate
  · rw [if_pos hdup, hdup, Stats.get_bump, Stats.get_bump]
    cases c <;> rfl
  · rw [if_neg hdup, Stats.get_bump]
    simp only [hdup, false_and, or_false]

/-- Settles O30: the states are `Inspection.state`; the excepted outcomes are excluded by the role. -/
theorem outcomesReachablePerRole : Obligations.OutcomesReachablePerRole := by
  refine ⟨fun o ho => Inspection.outcome_returned (Inspection.classify_master ho),
    fun o ho => Inspection.outcome_returned (Inspection.classify_slave ho), ?excluded⟩
  case excluded =>
    intro s t h hok
    obtain ⟨hinit, -⟩ := exec_checkRx_ok h hok
    have hcode := exec_checkRx_result_eq_iff hinit h
    exact ⟨fun hrole hdup => State.classify_ne_duplicate_of_master hrole ((hcode _).mp hdup),
      fun hrole hseq => State.classify_ne_seqErr_of_slave hrole ((hcode _).mp hseq)⟩

/-- Settles O31: an accepted frame is still valid in the state after, where it carries RX_SEQ. -/
theorem secondCheckRxIsDuplicate : Obligations.SecondCheckRxIsDuplicate := by
  intro s t h
  refine ⟨?buffers, ?again⟩
  case buffers =>
    rcases exec_checkRx_cases h with ⟨-, rfl⟩ | ⟨-, rfl⟩
    · exact s.checkFrame_mem
    · rfl
  case again =>
    intro hinit hrole hnew
    have hverdict := (exec_checkRx_result_eq_iff hinit h .newValid).mp hnew
    obtain ⟨hvalid, -⟩ := (s.classify_eq_iff .newValid).mp hverdict
    rw [exec_checkRx_newValid_slave hinit hrole hverdict] at h
    cases h
    exact ⟨rfl, _, exec_checkRx_duplicate hinit ((State.classify_eq_iff _ .duplicate).mpr
      ⟨hvalid, hrole, rfl⟩), rfl, rfl, rfl, rfl, rfl⟩

/-- Settles O32: no check reads ACK_PENDING or anything an accepted frame changes on a master. -/
theorem masterAcceptsARepeatedReply : Obligations.MasterAcceptsARepeatedReply := by
  refine ⟨?neverSent, fun s t hinit hrole h => ⟨?again, ?unasked⟩⟩
  case neverSent =>
    intro s hinit hrole hlast htx hframed hsrc hseq hlen hcsum
    have hpeer : s.rxSrc :=
      ⟨fun _ => hsrc.trans hlast.symm, fun hslave => absurd (hrole.symm.trans hslave) (by decide)⟩
    have hvalid : s.rxValid := ⟨hframed, hpeer, fun _ => hseq.trans htx.symm, hlen, hcsum⟩
    exact ⟨_, exec_checkRx_newValid_master hinit hrole (State.classify_newValid_of_master hrole hvalid),
      rfl, rfl⟩
  case again =>
    intro hnew
    have hverdict := (exec_checkRx_result_eq_iff hinit h .newValid).mp hnew
    rw [exec_checkRx_newValid_master hinit hrole hverdict] at h
    cases h
    exact exec_checkRx_newValid_master hinit hrole hverdict
  case unasked =>
    intro pending
    rw [exec_checkRx_initialized hinit] at h
    cases h
    have hverdict : State.classify { s with ackPending := pending } = s.classify := rfl
    refine ⟨_, exec_checkRx_initialized hinit, ?_, ?_⟩
    · rw [State.checkFrame_result, State.checkFrame_result, hverdict]
    · rw [State.checkFrame_stats, State.checkFrame_stats, hverdict]

/-- Settles O33: the two memories give one verdict, so the lemma above applies; an engine that INIT has not run on
reads no buffer at all. -/
theorem bytesPastTheFrameDoNotMatter : Obligations.BytesPastTheFrameDoNotMatter := by
  intro s t m hrx htx h
  change exec .checkRx (s.withMem m) = .next (t.withMem m)
  have hframe : s.SameFrame m := hrx
  have hsent : (s.withMem m).sentBytes = s.sentBytes :=
    slice_congr fun i _ hi => htx i (hi.trans_eq (Nat.zero_add _))
  cases hinit : s.initDone with
  | true => exact hframe.exec_checkRx hsent hinit h
  | false =>
    rw [exec_checkRx_uninitialized hinit] at h
    cases h
    exact exec_checkRx_uninitialized hinit

end Sys2Proof.Machine

/-! PROOFS. POLL_ACK (44_timeout.md R190 to R196): when the time has run out, what a poll does in either case, and
the elapsed times of the boundary cases. -/

namespace Sys2Proof.Machine

section
variable {s : State}

/-! ### When the time has run out (44_timeout.md R190) -/

theorem State.timedOut_iff :
    s.timedOut = true ↔ s.ackPending = true ∧ s.maxDelay.toNat ≤ (s.now - s.tSend).toNat := by
  simp [State.timedOut, State.elapsed, BitVec.le_def]

theorem State.timedOut_eq_false_iff :
    s.timedOut = false ↔ s.ackPending = false ∨ (s.now - s.tSend).toNat < s.maxDelay.toNat := by
  rw [← Bool.not_eq_true, State.timedOut_iff, not_and_or, Bool.not_eq_true, not_le]

/-! ### What a poll does (44_timeout.md R191 to R193) -/

theorem exec_pollAck_timedOut (hinit : s.initDone = true) (hout : s.timedOut = true) :
    exec .pollAck s = .next
      { s with
        retry := s.retry + 1, spans := s.spans ++ [s.sentBytes],
        stats := { s.stats with txResend := s.stats.txResend + 1 },
        tSend := if s.params.restampOnResend = true then s.now else s.tSend,
        result := s.retry + 1, cmdErr := .ok } := by
  rw [exec_pollAck_initialized hinit]
  rcases s.pollTimeout_cases with ⟨-, heq⟩ | ⟨hnot, -⟩
  · rw [heq]
    rfl
  · exact absurd (hout.symm.trans hnot) (by decide)

theorem exec_pollAck_idle (hinit : s.initDone = true) (hnot : s.timedOut = false) :
    exec .pollAck s = .next { s with result := s.retry, cmdErr := .ok } := by
  rw [exec_pollAck_initialized hinit]
  rcases s.pollTimeout_cases with ⟨hout, -⟩ | ⟨-, heq⟩
  · exact absurd (hout.symm.trans hnot) (by decide)
  · rw [heq]

/-! ### A poll at a given time, while a reply is pending (44_timeout.md R195) -/

theorem exec_pollAck_resends_at (hinit : s.initDone = true) (hpending : s.ackPending = true) {n : Word}
    (hlate : s.maxDelay.toNat ≤ (n - s.tSend).toNat) :
    ∃ t, exec .pollAck { s with now := n } = .next t ∧
      t.retry = s.retry + 1 ∧ t.spans = s.spans ++ [s.sentBytes] := by
  have hout : State.timedOut { s with now := n } = true := State.timedOut_iff.mpr ⟨hpending, hlate⟩
  exact ⟨_, exec_pollAck_timedOut hinit hout, rfl, rfl⟩

theorem exec_pollAck_idles_at (hinit : s.initDone = true) {n : Word}
    (hearly : (n - s.tSend).toNat < s.maxDelay.toNat) :
    exec .pollAck { s with now := n } = .next { s with now := n, result := s.retry, cmdErr := .ok } :=
  exec_pollAck_idle hinit (State.timedOut_eq_false_iff.mpr (.inr hearly))

end

/-! ### Elapsed times, modulo 2^32 (44_timeout.md R195) -/

theorem elapsed_before_deadline (sent : Word) {delay : Word} (h : delay ≠ 0) :
    (sent + delay - 1 - sent).toNat < delay.toNat := by
  bv_omega

/-- A clock that went back by k. -/
theorem elapsed_backwards (sent : Word) {k : Nat} (hpos : 1 ≤ k) (hlt : k < 2 ^ 32) :
    (sent - BitVec.ofNat 32 k - sent).toNat = 2 ^ 32 - k := by
  bv_omega

/-! ### The statements -/

/-- Settles O35: the two clauses are the timeout condition and its negation. -/
theorem pollAckResendsOnTimeout : Obligations.PollAckResendsOnTimeout := by
  intro s hinit
  exact ⟨fun hlate => exec_pollAck_timedOut hinit (State.timedOut_iff.mpr hlate),
    fun hearly => exec_pollAck_idle hinit (State.timedOut_eq_false_iff.mpr hearly)⟩

/-- Settles O36: each poll by the time that has elapsed at it. -/
theorem timeoutBoundary : Obligations.TimeoutBoundary := by
  intro s hinit hpending resends idles
  refine ⟨fun hdelay => ⟨?before, ?deadline⟩, ?always, fun k hpos hlt => ⟨?back, ?backTooFar⟩⟩
  case before => exact exec_pollAck_idles_at hinit (elapsed_before_deadline s.tSend hdelay)
  case deadline =>
    refine exec_pollAck_resends_at hinit hpending ?_
    rw [add_sub_cancel_left]
  case always =>
    intro hzero n
    refine exec_pollAck_resends_at hinit hpending ?_
    rw [hzero]
    exact Nat.zero_le _
  case back =>
    intro hle
    refine exec_pollAck_resends_at hinit hpending ?_
    rwa [elapsed_backwards s.tSend hpos hlt]
  case backTooFar =>
    intro hgt
    refine exec_pollAck_idles_at hinit ?_
    rwa [elapsed_backwards s.tSend hpos hlt]

/-- Settles O37: a slave waits for no reply and its RETRY is 0 (10_state.md R44). -/
theorem pollOnASlaveReturnsZero : Obligations.PollOnASlaveReturnsZero := by
  intro s hrole hinit hslave
  obtain ⟨hpending, -, hretry, -⟩ := hrole.slave hslave
  rw [exec_pollAck_idle hinit (State.timedOut_eq_false_iff.mpr (.inl hpending)), hretry]

end Sys2Proof.Machine

/-! PROOFS. Command errors (60_exceptions.md R220 to R225): the code each command ends with, what a command that ends
with an error does, and what lets INIT_DONE fall. -/

namespace Sys2Proof

/-! ### The instruction of the two opcodes without operands -/

theorem decode_of_checkRx {w : Word} (h : opField w = 0x3) : decode w = .checkRx := by
  simp [decode, h]

theorem decode_of_pollAck {w : Word} (h : opField w = 0x4) : decode w = .pollAck := by
  simp [decode, h]

end Sys2Proof

namespace Sys2Proof.Machine

/-! ### The code a command ends with -/

theorem legalLen_eq_false_iff (p : Params) (len : Half) :
    legalLen p len = false ↔ len.toNat < 1 ∨ p.maxLen < len.toNat := by
  rw [← Bool.not_eq_true, legalLen_iff]
  omega

/-- The command-error code, by the checks of 60_exceptions.md R222 to R225: they read the operands, INIT_DONE and the
parameters alone. `exec_cmdErr` says that it is the code a command leaves. -/
def commandError (p : Params) (initDone : Bool) : Instr → CmdErr
  | .init _ _ _ => .ok
  | .send _ len => if initDone then (if legalLen p len then .ok else .badarg) else .noinit
  | .checkRx => if initDone then .ok else .noinit
  | .pollAck => if initDone then .ok else .noinit
  | .reserved _ => .badop

theorem exec_cmdErr {i : Instr} {s t : State} (h : exec i s = .next t) :
    t.cmdErr = commandError s.params s.initDone i := by
  rcases exec_cases h with ⟨_, _, _, rfl, rfl⟩ | ⟨_, _, rfl, hinit, hlegal, rfl⟩ | ⟨rfl, hinit, rfl⟩ |
    ⟨rfl, hinit, rfl⟩ | ⟨⟨_, rfl⟩, rfl⟩ | ⟨rfl | rfl | ⟨_, _, rfl⟩, hinit, rfl⟩ |
    ⟨_, _, rfl, hinit, hillegal, rfl⟩ <;> simp [commandError, *]

/-- A command that ends with an error raises it in the state it began in (60_exceptions.md R221). -/
theorem exec_eq_raise {i : Instr} {s : State} (h : commandError s.params s.initDone i ≠ .ok) :
    exec i s = .next (s.raise (commandError s.params s.initDone i)) := by
  cases i with
  | init role localAddr peerAddr => exact absurd rfl h
  | send dest len =>
    cases hinit : s.initDone with
    | false => exact exec_send_uninitialized hinit dest len
    | true =>
      cases hlegal : legalLen s.params len with
      | false => simpa [commandError, hlegal] using exec_send_illegal hinit hlegal dest
      | true => simp [commandError, hinit, hlegal] at h
  | checkRx =>
    cases hinit : s.initDone with
    | false => exact exec_checkRx_uninitialized hinit
    | true => simp [commandError, hinit] at h
  | pollAck =>
    cases hinit : s.initDone with
    | false => exact exec_pollAck_uninitialized hinit
    | true => simp [commandError, hinit] at h
  | reserved op => exact exec_reserved op s

/-- The checks of a command word, in their order (60_exceptions.md R225). -/
theorem commandError_decode (p : Params) (initDone : Bool) (w : Word) :
    commandError p initDone (decode w) =
      if opField w ∉ [(0x1 : BitVec 4), 0x2, 0x3, 0x4] then .badop
      else if opField w = 0x1 then .ok
      else if initDone = false then .noinit
      else if opField w = 0x2 ∧ ((lenField w).toNat < 1 ∨ p.maxLen < (lenField w).toNat) then .badarg
      else .ok := by
  by_cases hreserved : opField w ∉ [(0x1 : BitVec 4), 0x2, 0x3, 0x4]
  · rw [if_pos hreserved, decode_of_reserved hreserved]
    rfl
  · rw [if_neg hreserved]
    simp only [List.mem_cons, List.not_mem_nil, or_false, not_not] at hreserved
    rcases hreserved with hop | hop | hop | hop
    · rw [if_pos hop, decode_of_init hop]
      rfl
    · rw [decode_of_send hop]
      cases initDone with
      | false => simp [commandError, hop]
      | true =>
        simp only [commandError, hop, ← legalLen_eq_false_iff]
        cases legalLen p (lenField w) <;> rfl
    · rw [decode_of_checkRx hop]
      cases initDone <;> simp [commandError, hop]
    · rw [decode_of_pollAck hop]
      cases initDone <;> simp [commandError, hop]

/-! ### INIT_DONE over a step -/

/-- Only a power-on reset clears INIT_DONE (60_exceptions.md R223). -/
theorem Moved.initDone_of_initDone {s t : State} (h : Moved s t) (hinit : s.initDone = true) :
    t.initDone = true ∨ s.nextIsPowerOn = true := by
  cases h with
  | power _ _ kind => exact .inr kind
  | init => exact .inl rfl
  | _ => exact .inl hinit

/-! ### The statements -/

/-- Settles O7: the NOINIT check of the three commands, the one step that clears INIT_DONE, and INIT's effect. -/
theorem uninitializedCommandsEndNoinit : Obligations.UninitializedCommandsEndNoinit := by
  refine ⟨fun s hinit => ⟨exec_send_uninitialized hinit, exec_checkRx_uninitialized hinit,
    exec_pollAck_uninitialized hinit⟩, ?cleared, ?init⟩
  case cleared =>
    intro s t h hinit hcleared
    exact ((step_moved h).initDone_of_initDone hinit).resolve_left (by simp [hcleared])
  case init =>
    intro role localAddr peerAddr s t h
    rw [exec_init] at h
    cases h
    rfl

/-- Settles O8: the length check of SEND, and no other command has BADARG among its codes. -/
theorem sendOfIllegalLengthEndsBadarg : Obligations.SendOfIllegalLengthEndsBadarg := by
  refine ⟨?illegal, ?onlySend⟩
  case illegal =>
    intro s dest len hinit hlen
    have hrange : len.toNat < 1 ∨ s.params.maxLen < len.toNat := by
      refine hlen.imp_left fun hzero => ?_
      rw [hzero]
      decide
    exact exec_send_illegal hinit ((legalLen_eq_false_iff _ _).mpr hrange) dest
  case onlySend =>
    intro i s t h hbadarg
    rw [exec_cmdErr h] at hbadarg
    cases i with
    | send dest len => exact ⟨dest, len, rfl⟩
    | init role localAddr peerAddr => cases hbadarg
    | reserved op => cases hbadarg
    | checkRx | pollAck => cases hinit : s.initDone <;> simp [commandError, hinit] at hbadarg

/-- Settles O9: storing the word in CMD first changes nothing the checks read. -/
theorem commandErrorPriority : Obligations.CommandErrorPriority := fun w s _ h =>
  (exec_cmdErr h).trans (commandError_decode s.params s.initDone w)

/-- Settles O10: a command that ends with an error raises it, and the code is the same with any other level of
`now`, which no check reads. -/
theorem commandErrorChangesOnlyCmdErr : Obligations.CommandErrorChangesOnlyCmdErr := by
  intro i s t h hne
  have hcode := exec_cmdErr h
  rw [hcode] at hne ⊢
  refine ⟨?frame, fun n => exec_eq_raise (s := { s with now := n }) hne⟩
  case frame =>
    rw [exec_eq_raise hne] at h
    cases h
    rfl

end Sys2Proof.Machine

/-! PROOFS. Reset (70_reset_and_hazards.md R250): what each register reads after power-on reset, and which command can
succeed while INIT_DONE is 0. -/

namespace Sys2Proof.Machine

/-! ### The registers after power-on reset -/

theorem Stats.get_zeroed (c : Counter) : Stats.get {} c = 0 := by cases c <;> rfl

theorem State.status_reset : State.reset.status = 0 := by decide

theorem regAt_status : Reg.at? 0x004 = some .status := by decide

theorem State.busRead_status (s : State) : s.busRead 0x0004 4 = s.status := by
  simp [State.busRead, Target.of, txBase, regAccess, regAt_status, State.readReg]

/-- The reset column of 10_state.md R22, for every register that holds state: PARAM0 and PARAM1 show constants. -/
theorem State.readReg_reset {r : Reg} (h0 : r ≠ .param0) (h1 : r ≠ .param1) : State.reset.readReg r = 0 := by
  cases r with
  | status => exact State.status_reset
  | stat c => exact Stats.get_zeroed c
  | param0 => exact absurd rfl h0
  | param1 => exact absurd rfl h1
  | _ => rfl

/-! ### The commands while INIT_DONE is 0 -/

/-- Before the first INIT a reserved opcode ends with BADOP and SEND, CHECK_RX and POLL_ACK with NOINIT
(60_exceptions.md R222, R223). -/
theorem commandError_uninitialized_eq_ok_iff (p : Params) (i : Instr) :
    commandError p false i = .ok ↔ ∃ role localAddr peerAddr, i = .init role localAddr peerAddr := by
  cases i with
  | init role localAddr peerAddr => exact iff_of_true rfl ⟨role, localAddr, peerAddr, rfl⟩
  | _ => simp [commandError]

/-! ### The statement -/

/-- Settles O60: register by register, and by the code each command ends with where INIT_DONE is 0. -/
theorem resetLeavesEveryRegisterZero : Obligations.ResetLeavesEveryRegisterZero := by
  refine ⟨fun _ => State.readReg_reset, ?status, ?onlyInit⟩
  case status => rw [State.busRead_status, State.status_reset]
  case onlyInit =>
    intro i t h
    have hcode : t.cmdErr = commandError State.reset.params false i := exec_cmdErr h
    rw [hcode, commandError_uninitialized_eq_ok_iff]

end Sys2Proof.Machine

/-! PROOFS. Decode and encode agree (30_encoding.md R91 to R97): each operand field of an encoded word is the operand,
and every decoded instruction is well-formed. -/

namespace Sys2Proof

/-! ### The operand fields of an encoded word -/

section
variable (role : Role) (localAddr peerAddr dest : Byte) (len : Half)

theorem roleField_encode_init : roleField (encode (.init role localAddr peerAddr)) = role := by
  rw [← role_bit_eq_iff, roleField_bit]
  apply BitVec.eq_of_getLsbD_eq
  intro j hj
  simp only [encode]
  interval_cases j
  simp [Instr.op]

theorem addrField_encode_init : addrField (encode (.init role localAddr peerAddr)) = localAddr := by
  apply BitVec.eq_of_getLsbD_eq
  intro j hj
  simp only [addrField, encode]
  interval_cases j <;> simp [Instr.op]

theorem peerField_encode_init : peerField (encode (.init role localAddr peerAddr)) = peerAddr := by
  apply BitVec.eq_of_getLsbD_eq
  intro j hj
  simp only [peerField, encode]
  interval_cases j <;> simp [Instr.op]

theorem addrField_encode_send : addrField (encode (.send dest len)) = dest := by
  apply BitVec.eq_of_getLsbD_eq
  intro j hj
  simp only [addrField, encode]
  interval_cases j <;> simp [Instr.op]

theorem lenField_encode_send : lenField (encode (.send dest len)) = len := by
  apply BitVec.eq_of_getLsbD_eq
  intro j hj
  simp only [lenField, encode]
  interval_cases j <;> simp [Instr.op]

end

/-! ### The opcode of an encoded word -/

/-- The five opcode laws of Laws/PerInstr.lean as one, over the rows. -/
theorem opField_encode {i : Instr} (h : i.wf = true) : opField (encode i) = i.op := by
  cases i with
  | init role localAddr peerAddr => exact (Laws.OpcodeField.init role localAddr peerAddr h).1
  | send dest len => exact (Laws.OpcodeField.send dest len h).1
  | checkRx => exact (Laws.OpcodeField.checkRx h).1
  | pollAck => exact (Laws.OpcodeField.pollAck h).1
  | reserved op => exact (Laws.OpcodeField.reserved op h).1

theorem reservedOp_iff (op : BitVec 4) : reservedOp op = true ↔ op ∉ [(0x1 : BitVec 4), 0x2, 0x3, 0x4] := by
  simp [reservedOp, and_assoc]

theorem decode_encode {i : Instr} (h : i.wf = true) : decode (encode i) = i := by
  have hop := opField_encode h
  cases i with
  | init role localAddr peerAddr =>
    rw [decode_of_init hop, roleField_encode_init, addrField_encode_init, peerField_encode_init]
  | send dest len => rw [decode_of_send hop, addrField_encode_send, lenField_encode_send]
  | checkRx => exact decode_of_checkRx hop
  | pollAck => exact decode_of_pollAck hop
  | reserved op =>
    have hop' : opField (encode (.reserved op)) = op := hop
    rw [decode_of_reserved (by rw [hop']; exact (reservedOp_iff op).mp h), hop']

theorem decode_wf (w : Word) : (decode w).wf = true := by
  unfold decode
  split_ifs with hinit hsend hcheck hpoll
  case neg => simpa [Instr.wf, reservedOp_iff] using ⟨hinit, hsend, hcheck, hpoll⟩
  all_goals rfl

/-! ### The statements -/

/-- Settles O2: each row's operand fields come back from its word, and the decoder answers the reserved row for the
reserved opcodes alone. -/
theorem decodeOfEncodeIsTheInstruction : Obligations.DecodeOfEncodeIsTheInstruction :=
  ⟨fun _ => decode_encode, decode_wf⟩

/-- Settles O1: nine closed words, decoded by evaluation. -/
theorem specWordsDecode : Obligations.SpecWordsDecode := by
  unfold Obligations.SpecWordsDecode
  decide

end Sys2Proof

namespace Sys2Proof.Machine

/-- Settles O6: the reserved arm raises BADOP, and the decoder's last branch is the reserved row. -/
theorem reservedOpcodeEndsBadop : Obligations.ReservedOpcodeEndsBadop :=
  ⟨exec_reserved, fun _ => decode_of_reserved⟩

end Sys2Proof.Machine

/-! PROOFS. Steps (20_memory.md R70, R71; 30_encoding.md R90): what the step does for each kind of transaction at the
head of the host's list, what the tests of Safety.lean tell of that list, and the three statements that are about the
taking of a transaction. -/

namespace Sys2Proof.Machine

section
variable {s t : State} {op : HostOp} {now : Word} {rest : List Transaction}

/-! ### The step, by the transaction taken -/

/-- A step serves the transaction at the head of the list in the state that has taken it. -/
theorem step_eq_serve (hp : s.pending = { op := op, now := now } :: rest) :
    step s = serve op { s with pending := rest, now := now } := by
  rw [step, advance, hp]
  rfl

theorem step_idle (hp : s.pending = []) : step s = .next s := by
  rw [step, advance, hp]

/-- An aligned 4-byte write to CMD runs the command it decodes to, with the word stored (30_encoding.md R90). -/
theorem step_writeCmd {w : Word} (hp : s.pending = { op := .write 0x0000 4 w, now := now } :: rest) :
    step s = exec (decode w) { s with pending := rest, now := now, cmd := w } := by
  rw [step_eq_serve hp]
  rfl

/-! ### What `nextCommand` tells of the list -/

theorem State.pending_of_nextCommand {i : Instr} (h : s.nextCommand = some i) :
    ∃ w now rest, s.pending = { op := .write 0x0000 4 w, now := now } :: rest ∧ decode w = i := by
  unfold State.nextCommand at h
  split at h
  next addr width w now rest hp =>
    split_ifs at h with hcmd
    obtain ⟨rfl, rfl⟩ := hcmd
    exact ⟨w, now, rest, hp, Option.some.inj h⟩
  next => cases h

theorem step_of_nextCommand {i : Instr} (h : s.nextCommand = some i) :
    ∃ w now rest, step s = exec i { s with pending := rest, now := now, cmd := w } := by
  obtain ⟨w, now, rest, hp, rfl⟩ := State.pending_of_nextCommand h
  exact ⟨w, now, rest, step_writeCmd hp⟩

theorem State.nextIsInit_iff :
    s.nextIsInit = true ↔ ∃ role localAddr peerAddr, s.nextCommand = some (.init role localAddr peerAddr) := by
  unfold State.nextIsInit
  split <;> simp_all

theorem State.nextIsSend_iff : s.nextIsSend = true ↔ ∃ dest len, s.nextCommand = some (.send dest len) := by
  unfold State.nextIsSend
  split <;> simp_all

theorem State.nextIsCheckRx_iff : s.nextIsCheckRx = true ↔ s.nextCommand = some .checkRx := by
  simp [State.nextIsCheckRx]

theorem State.nextIsPollAck_iff : s.nextIsPollAck = true ↔ s.nextCommand = some .pollAck := by
  simp [State.nextIsPollAck]

theorem State.pending_of_nextIsPowerOn (h : s.nextIsPowerOn = true) :
    ∃ now rest, s.pending = { op := .powerOn, now := now } :: rest := by
  unfold State.nextIsPowerOn at h
  split at h
  next now rest hp => exact ⟨now, rest, hp⟩
  next => cases h

/-! ### Restarts -/

theorem State.nextRestarts_of_init (h : s.nextIsInit = true) : s.nextRestarts = true := by
  simp [State.nextRestarts, h]

theorem State.nextRestarts_of_powerOn (h : s.nextIsPowerOn = true) : s.nextRestarts = true := by
  simp [State.nextRestarts, h]

/-- A restart is an INIT or a power-on reset, and leaves what the one or the other does. -/
theorem step_of_nextRestarts (hr : s.nextRestarts = true) (h : step s = .next t) :
    (∃ (s' : State) (role : Role) (localAddr peerAddr : Byte),
      t = (s'.initialized role localAddr peerAddr).finish 0) ∨
    ∃ s' : State, t = s'.powerOnReset := by
  rw [State.nextRestarts, Bool.or_eq_true] at hr
  rcases hr with hinit | hpower
  · obtain ⟨role, localAddr, peerAddr, hcommand⟩ := State.nextIsInit_iff.mp hinit
    obtain ⟨w, now, rest, hstep⟩ := step_of_nextCommand hcommand
    rw [hstep, exec_init] at h
    cases h
    exact .inl ⟨_, role, localAddr, peerAddr, rfl⟩
  · obtain ⟨now, rest, hp⟩ := State.pending_of_nextIsPowerOn hpower
    rw [step_eq_serve hp] at h
    cases h
    exact .inr ⟨_, rfl⟩

/-! ### Commands -/

theorem State.isSome_of_init (h : s.nextIsInit = true) : s.nextCommand.isSome = true := by
  obtain ⟨_, _, _, hcommand⟩ := State.nextIsInit_iff.mp h
  simp [hcommand]

theorem State.isSome_of_send (h : s.nextIsSend = true) : s.nextCommand.isSome = true := by
  obtain ⟨_, _, hcommand⟩ := State.nextIsSend_iff.mp h
  simp [hcommand]

theorem State.isSome_of_checkRx (h : s.nextIsCheckRx = true) : s.nextCommand.isSome = true := by
  simp [State.nextIsCheckRx_iff.mp h]

theorem State.isSome_of_pollAck (h : s.nextIsPollAck = true) : s.nextCommand.isSome = true := by
  simp [State.nextIsPollAck_iff.mp h]

/-- Only a command and a power-on reset write CMD and CMD_ERR (10_state.md R37, R38). -/
theorem Moved.cmd_eq_or (h : Moved s t) :
    (t.cmd = s.cmd ∧ t.cmdErr = s.cmdErr) ∨ s.nextCommand.isSome = true ∨ s.nextIsPowerOn = true := by
  cases h with
  | idle | quiet | delay | window => exact .inl ⟨rfl, rfl⟩
  | power _ _ kind => exact .inr (.inr kind)
  | init _ _ _ _ _ _ kind => exact .inr (.inl (State.isSome_of_init kind))
  | failed _ _ _ _ kind => exact .inr (.inl (by simp [kind]))
  | sentMaster _ _ _ _ _ kind | sentSlave _ _ _ _ kind => exact .inr (.inl (State.isSome_of_send kind))
  | rejected _ _ _ kind | repeated _ _ _ kind | answered _ _ _ kind | requested _ _ _ kind =>
    exact .inr (.inl (State.isSome_of_checkRx kind))
  | timedOut _ _ _ kind | polled _ _ _ kind => exact .inr (.inl (State.isSome_of_pollAck kind))

/-- Every command answers a next state (60_exceptions.md R227). -/
theorem exec_next (i : Instr) (s : State) : ∃ t, exec i s = .next t := by
  cases i <;> exact ⟨_, rfl⟩

theorem busWrite_next (addr : BitVec 16) (width : Nat) (v : Word) (s : State) :
    ∃ t, busWrite addr width v s = .next t := by
  rcases busWrite_cases addr width v s with ⟨-, -, e⟩ | ⟨-, -, e⟩ | ⟨-, -, -, e⟩ | ⟨-, -, e⟩ <;> rw [e]
  · exact exec_next _ _
  all_goals exact ⟨_, rfl⟩

theorem serve_next (op : HostOp) (s : State) : ∃ t, serve op s = .next t := by
  cases op with
  | write addr width v => exact busWrite_next addr width v s
  | _ => exact ⟨_, rfl⟩

/-- No transaction looks at the ones after it: each leaves the list as it finds it. -/
theorem serve_pending {op : HostOp} (h : serve op s = .next t) : t.pending = s.pending := by
  cases op with
  | read addr width =>
    cases h
    rfl
  | powerOn =>
    cases h
    rfl
  | write addr width v =>
    change busWrite addr width v s = .next t at h
    rcases busWrite_cases addr width v s with ⟨-, -, e⟩ | ⟨-, -, e⟩ | ⟨-, -, -, e⟩ | ⟨-, -, e⟩ <;>
      rw [e] at h
    · obtain ⟨-, -, -, -, -, hpending, -⟩ := exec_keeps h
      exact hpending
    · cases h
      rfl
    · cases h
      rw [State.storeBytes_eq_mem]
    · cases h
      rfl

end

/-- PARAM0 and PARAM1 show constants; every other register is as after any reset (70_reset_and_hazards.md R250). -/
theorem State.readReg_powerOnReset (s : State) {r : Reg} (h0 : r ≠ .param0) (h1 : r ≠ .param1) :
    s.powerOnReset.readReg r = State.reset.readReg r := by
  cases r with
  | param0 => exact absurd rfl h0
  | param1 => exact absurd rfl h1
  | _ => rfl

/-! ### The statements -/

/-- Settles O4: the write to CMD by `step_writeCmd`, CMD kept by the command by `exec_keeps` and by every later step
that is neither a command nor a power-on reset by `Moved.cmd_eq_or`. -/
theorem stepRunsTheWordWrittenToCmd : Obligations.StepRunsTheWordWrittenToCmd := by
  intro s w now rest hp
  refine ⟨step_writeCmd hp, fun t ht => ?readBack⟩
  rw [step_writeCmd hp] at ht
  obtain ⟨-, hcmd, -⟩ := exec_keeps ht
  refine ⟨(State.busRead_cmd t).trans hcmd, fun u hu hnone hpower => ?_⟩
  rcases (step_moved hu).cmd_eq_or with ⟨hkept, -⟩ | hsome | hreset
  · rw [State.busRead_cmd, hkept]
    exact hcmd
  · simp [hnone] at hsome
  · simp [hpower] at hreset

/-- Settles O5: with a transaction to come the step serves it, which always answers and leaves the rest of the list;
with none it is idle. -/
theorem stepAlwaysAnswersNext : Obligations.StepAlwaysAnswersNext := by
  intro s
  cases hp : s.pending with
  | nil => exact ⟨s, step_idle hp, hp, fun _ => rfl⟩
  | cons tr rest =>
    obtain ⟨t, ht⟩ := serve_next tr.op { s with pending := rest, now := tr.now }
    exact ⟨t, (step_eq_serve hp).trans ht, serve_pending ht, by simp⟩

/-- Settles O57: the step is `State.powerOnReset`, whose registers are those of `State.reset`. -/
theorem powerOnResetClearsTheRegisters : Obligations.PowerOnResetClearsTheRegisters := by
  intro s now rest hp
  refine ⟨_, step_eq_serve hp, rfl, fun r h0 h1 => ?registers, fun i => ⟨rfl, rfl⟩⟩
  case registers => rw [State.readReg_powerOnReset _ h0 h1, State.readReg_reset h0 h1]

end Sys2Proof.Machine

/-! PROOFS. The invariants of a run (10_state.md R44; 42_send.md R145, R146; 45_statistics.md R203;
70_reset_and_hazards.md R250 to R253): each holds after reset and every kind of step keeps it. -/

namespace Sys2Proof.Machine

section
variable {s t : State}

/-! ### The buffers under a window store and under a SEND -/

theorem State.storeByte_wf (h : s.mem.wf = true) (a : Nat) (b : Byte) : (s.storeByte a b).mem.wf = true := by
  unfold State.storeByte
  split
  · exact Memory.write_wf h a b
  · exact h

theorem State.storeByte_fill (s : State) (a : Nat) (b : Byte) : (s.storeByte a b).mem.fill = s.mem.fill := by
  unfold State.storeByte
  split
  · exact Memory.write_fill s.mem a b
  · rfl

theorem State.mem_storeByte {a : Nat} {b : Byte} {c : Host.Cell} (h : c ∈ (s.storeByte a b).mem.cells) :
    (c.1 = a ∧ a % 0x1000 < s.params.bufCap) ∨ c ∈ s.mem.cells := by
  unfold State.storeByte at h
  split at h
  next hin =>
    rcases Memory.mem_write h with rfl | h
    · exact .inl ⟨rfl, of_decide_eq_true hin⟩
    · exact .inr h
  next => exact .inr h

theorem State.storeBytes_wf (h : s.mem.wf = true) (a : Nat) (bs : List Byte) :
    (s.storeBytes a bs).mem.wf = true := by
  induction bs generalizing s a with
  | nil => exact h
  | cons b bs ih => exact ih (State.storeByte_wf h a b) (a + 1)

theorem State.storeBytes_fill (s : State) (a : Nat) (bs : List Byte) :
    (s.storeBytes a bs).mem.fill = s.mem.fill := by
  induction bs generalizing s a with
  | nil => rfl
  | cons b bs ih => exact (ih (s.storeByte a b) (a + 1)).trans (s.storeByte_fill a b)

/-- A window store lists no address but those it stores to, and of those only the ones below BUF_CAP. -/
theorem State.mem_storeBytes {a : Nat} {bs : List Byte} {c : Host.Cell}
    (h : c ∈ (s.storeBytes a bs).mem.cells) :
    (a ≤ c.1 ∧ c.1 < a + bs.length ∧ c.1 % 0x1000 < s.params.bufCap) ∨ c ∈ s.mem.cells := by
  induction bs generalizing s a with
  | nil => exact .inr h
  | cons b bs ih =>
    rw [List.length_cons]
    rcases ih h with ⟨hlo, hhi, hcap⟩ | h
    · rw [State.storeByte_params] at hcap
      exact .inl ⟨by omega, by omega, hcap⟩
    · rcases State.mem_storeByte h with ⟨rfl, hcap⟩ | h
      · exact .inl ⟨le_rfl, by omega, hcap⟩
      · exact .inr h

/-- An aligned access does not reach past the windows (20_memory.md R61, R67). -/
theorem windowAccess_end {a width : Nat} (h : windowAccess a width = true) (hhi : a < 0x3000) :
    a + width ≤ 0x3000 := by
  obtain ⟨hwidth, haligned⟩ := (windowAccess_iff a width).mp h
  simp only [List.mem_cons, List.not_mem_nil, or_false] at hwidth
  rcases hwidth with rfl | rfl | rfl <;> omega

theorem State.buildFrame_wf (h : s.mem.wf = true) (dest : Byte) (seq len : Half) :
    (s.buildFrame dest seq len).mem.wf = true :=
  Memory.writeBytes_wf (Memory.writeBytes_wf (Memory.writeBytes_wf h _ _) _ _) _ _

theorem State.buildFrame_fill (s : State) (dest : Byte) (seq len : Half) :
    (s.buildFrame dest seq len).mem.fill = s.mem.fill := by
  simp [State.buildFrame]

/-- A store into the header lists no address outside TX[0 .. 12). -/
theorem State.mem_writeTx_header {off : Nat} {bs : List Byte} {c : Host.Cell} (hend : off + bs.length ≤ 12)
    (h : c ∈ (s.writeTx off bs).mem.cells) : (txBase ≤ c.1 ∧ c.1 < txBase + 12) ∨ c ∈ s.mem.cells :=
  (Memory.mem_writeBytes h).imp_left fun ⟨_, _⟩ => ⟨by omega, by omega⟩

theorem State.mem_buildFrame {dest : Byte} {seq len : Half} {c : Host.Cell}
    (h : c ∈ (s.buildFrame dest seq len).mem.cells) :
    (txBase ≤ c.1 ∧ c.1 < txBase + 12) ∨ c ∈ s.mem.cells := by
  rcases State.mem_writeTx_header (by simp) h with hcsum | h
  · exact .inl hcsum
  rcases State.mem_writeTx_header (by simp) h with haddressed | h
  · exact .inl haddressed
  exact State.mem_writeTx_header (by simp) h

/-! ### The buffer invariant (20_memory.md R61; 70_reset_and_hazards.md R251, R253) -/

theorem Moved.memOk (h : Moved s t) (hmem : s.MemOk) : t.MemOk := by
  obtain ⟨hwf, hcells, hfilled⟩ := hmem
  cases h with
  | window _ _ addr v width _ low high access =>
    refine ⟨State.storeBytes_wf hwf _ _, fun c hc => ?_, ?_⟩
    · rcases State.mem_storeBytes hc with ⟨hlo, hhi, hcap⟩ | hc
      · have hend := windowAccess_end access high
        rw [lowBytes_length] at hhi
        exact ⟨by simp only [txBase]; omega, by omega, hcap⟩
      · exact hcells c hc
    · rw [State.storeBytes_fill]
      exact hfilled
  | sentMaster | sentSlave =>
    refine ⟨State.buildFrame_wf hwf _ _ _, fun c hc => ?_, ?_⟩
    · rcases State.mem_buildFrame hc with ⟨hlo, hhi⟩ | hc
      · obtain ⟨hcap, -⟩ := bufCap_bounds s.params
        simp only [txBase] at hlo hhi ⊢
        exact ⟨hlo, by omega, by omega⟩
      · exact hcells c hc
    · rw [State.buildFrame_fill]
      exact hfilled
  | power => exact ⟨Memory.unspecified_wf _, fun c hc => absurd hc List.not_mem_nil, by simp [Memory.unspecified]⟩
  | init => exact ⟨Memory.zeroed_wf, fun c hc => absurd hc List.not_mem_nil, by simp [Memory.zeroed]⟩
  | _ => exact ⟨hwf, hcells, hfilled⟩

/-! ### The role-use invariant (10_state.md R44) -/

theorem Moved.roleUse (h : Moved s t) (huse : s.RoleUse) : t.RoleUse := by
  obtain ⟨hslave, hmaster⟩ := huse
  cases h with
  | power | init => exact ⟨fun _ => ⟨rfl, rfl, rfl, rfl, rfl⟩, fun _ => rfl⟩
  | sentMaster _ _ _ _ _ _ _ role => exact ⟨fun hr => by simp [role] at hr, hmaster⟩
  | answered _ _ _ _ _ role => exact ⟨fun hr => by simp [role] at hr, hmaster⟩
  | requested _ _ _ _ _ role => exact ⟨hslave, fun hr => by simp [role] at hr⟩
  | timedOut _ _ _ _ _ waiting =>
    refine ⟨fun hr => ?_, hmaster⟩
    obtain ⟨hidle, -⟩ := hslave hr
    simp [hidle] at waiting
  | _ => exact ⟨hslave, hmaster⟩

/-! ### The counter identities (45_statistics.md R203 (3), (5)) -/

theorem Stats.get_bump_of_ne (st : Stats) {c d : Counter} (h : c ≠ d) : (st.bump c).get d = st.get d := by
  rw [Stats.get_bump, if_neg h.symm]

theorem RxOutcome.counter_ne_txNew (o : RxOutcome) : o.counter ≠ .txNew := by cases o <;> decide

theorem RxOutcome.counter_ne_txResend (o : RxOutcome) : o.counter ≠ .txResend := by cases o <;> decide

/-- No two outcomes share a counter (30_encoding.md R97). -/
theorem RxOutcome.counter_ne {o o' : RxOutcome} (h : o ≠ o') : o.counter ≠ o'.counter := by
  revert h
  cases o <;> cases o' <;> decide

theorem Moved.countersOk (h : Moved s t) (huse : s.RoleUse) (hcount : s.CountersOk) : t.CountersOk := by
  obtain ⟨hslave, hmaster⟩ := hcount
  cases h with
  | power | init => exact ⟨fun _ => ⟨rfl, rfl⟩, fun _ => rfl⟩
  | rejected _ _ _ _ _ _ notDup =>
    have htxResend := s.stats.get_bump_of_ne s.classify.counter_ne_txResend
    have hrxDup := s.stats.get_bump_of_ne (RxOutcome.counter_ne notDup)
    refine ⟨fun hr => ?_, fun hr => hrxDup.trans (hmaster hr)⟩
    obtain ⟨hresend, hseq⟩ := hslave hr
    have herrSeq := s.stats.get_bump_of_ne (RxOutcome.counter_ne (State.classify_ne_seqErr_of_slave hr))
    exact ⟨htxResend.trans (hresend.trans hrxDup.symm), herrSeq.trans hseq⟩
  | repeated _ _ _ _ _ role =>
    refine ⟨fun hr => ?_, fun hr => by simp [role] at hr⟩
    obtain ⟨hresend, hseq⟩ := hslave role
    exact ⟨congrArg (· + 1) hresend, hseq⟩
  | timedOut _ _ _ _ _ waiting =>
    refine ⟨fun hr => ?_, hmaster⟩
    obtain ⟨hidle, -⟩ := huse.slave hr
    simp [hidle] at waiting
  | _ => exact ⟨hslave, hmaster⟩

/-! ### The sent-frame invariant (42_send.md R145, R146; 10_state.md R29, R31) -/

theorem Moved.sentOk (h : Moved s t) (hsent : s.SentOk) : t.SentOk := by
  obtain ⟨hfits, hwaiting⟩ := hsent
  cases h with
  | power | init => exact ⟨Nat.zero_le _, fun hpending => by simp at hpending⟩
  | sentMaster _ _ _ _ len _ _ _ legal =>
    obtain ⟨hmin, hmax⟩ := (legalLen_iff s.params len).mp legal
    exact ⟨hmax, fun _ => ⟨nextSeq_ne_zero s.txSeq, hmin⟩⟩
  | sentSlave _ _ _ len _ _ _ legal =>
    obtain ⟨hmin, hmax⟩ := (legalLen_iff s.params len).mp legal
    exact ⟨hmax, fun hpending => ⟨(hwaiting hpending).1, hmin⟩⟩
  | answered => exact ⟨hfits, fun hpending => by simp at hpending⟩
  | _ => exact ⟨hfits, hwaiting⟩

/-! ### Before the first INIT (60_exceptions.md R223; 70_reset_and_hazards.md R250) -/

theorem State.bootOk_of_initDone (h : t.initDone = true) : t.BootOk := fun hnot => by simp [h] at hnot

theorem Moved.bootOk (h : Moved s t) (hboot : s.BootOk) : t.BootOk := by
  cases h with
  | idle | quiet | delay | window | failed => exact hboot
  | power => exact fun _ => ⟨rfl, rfl, rfl, rfl, rfl, rfl, rfl, rfl, rfl, rfl, rfl, rfl, rfl⟩
  | init => exact State.bootOk_of_initDone rfl
  | sentMaster _ _ _ _ _ _ ready | sentSlave _ _ _ _ _ ready | rejected _ _ _ _ ready | repeated _ _ _ _ ready
  | answered _ _ _ _ ready | requested _ _ _ _ ready | timedOut _ _ _ _ ready | polled _ _ _ _ ready =>
    exact State.bootOk_of_initDone ready

/-! ### The count of SENDs on a master (45_statistics.md R203 (2), (4)) -/

theorem seqAfter_toNat (n : Nat) : (seqAfter n).toNat = if n = 0 then 0 else 1 + (n - 1) % 65535 := by
  unfold seqAfter
  split
  · rfl
  · rw [BitVec.toNat_ofNat]
    omega

/-- One SEND more takes the next number, also from 0 and past 65535. -/
theorem nextSeq_seqAfter (n : Nat) : nextSeq (seqAfter n) = seqAfter (n + 1) := by
  apply BitVec.eq_of_toNat_eq
  rw [nextSeq_toNat, seqAfter_toNat, seqAfter_toNat]
  split <;> simp <;> omega

theorem State.SendsSoFar.of_restart (hr : s.nextRestarts = true) (h : step s = .next t)
    (hmaster : t.role = .master) : t.SendsSoFar 0 := by
  rcases step_of_nextRestarts hr h with ⟨_, _, _, _, rfl⟩ | ⟨_, rfl⟩ <;> exact ⟨hmaster, rfl, rfl⟩

theorem State.SendsSoFar.sendNew {n : Nat} (h : s.SendsSoFar n) (dest : Byte) (len : Half) :
    (s.sendNew dest len).SendsSoFar (n + 1) := by
  obtain ⟨hmaster, hcount, hseq⟩ := h
  rw [State.sendNew_master hmaster]
  refine ⟨hmaster, ?_, ?_⟩
  · change s.stats.txNew + 1 = BitVec.ofNat 32 (n + 1)
    rw [hcount, BitVec.ofNat_add]
    rfl
  · change nextSeq s.txSeq = seqAfter (n + 1)
    rw [hseq, nextSeq_seqAfter]

theorem State.SendsSoFar.of_send {n : Nat} (hso : s.SendsSoFar n) (hsend : s.nextIsSend = true)
    (h : step s = .next t) (hok : t.cmdErr = .ok) : t.SendsSoFar (n + 1) := by
  obtain ⟨dest, len, hcommand⟩ := State.nextIsSend_iff.mp hsend
  obtain ⟨w, now, rest, hstep⟩ := step_of_nextCommand hcommand
  rw [hstep] at h
  obtain ⟨-, -, rfl⟩ := exec_send_ok h hok
  exact State.SendsSoFar.sendNew (s := { s with pending := rest, now := now, cmd := w }) hso dest len

/-- No step but a restart and a successful SEND moves STAT_TX_NEW or a master's TX_SEQ. -/
theorem Moved.sendsSoFar {n : Nat} (h : Moved s t) (hso : s.SendsSoFar n) (hr : s.nextRestarts = false)
    (hnot : ¬(s.nextIsSend = true ∧ t.cmdErr = .ok)) : t.SendsSoFar n := by
  obtain ⟨hmaster, hcount, hseq⟩ := hso
  cases h with
  | power _ _ kind => simp [State.nextRestarts_of_powerOn kind] at hr
  | init _ _ _ _ _ _ kind => simp [State.nextRestarts_of_init kind] at hr
  | sentMaster _ _ _ _ _ kind | sentSlave _ _ _ _ kind => exact absurd ⟨kind, rfl⟩ hnot
  | rejected => exact ⟨hmaster, (s.stats.get_bump_of_ne s.classify.counter_ne_txNew).trans hcount, hseq⟩
  | _ => exact ⟨hmaster, hcount, hseq⟩

end

/-! ### The statements -/

/-- Settles O46: by cases on the kind of step, a window write and a SEND being the two that store. -/
theorem stepKeepsTheBufferInvariant : Obligations.StepKeepsTheBufferInvariant :=
  fun _ _ hmem h => (step_moved h).memOk hmem

/-- Settles O47: a kind of step that writes a register of one role asks for that role or clears it. -/
theorem stepKeepsRoleUse : Obligations.StepKeepsRoleUse :=
  fun _ _ huse h => (step_moved h).roleUse huse

/-- Settles O48: a duplicate counts in both counters of the slave's identity, and what else counts in one of the
three is excluded by the role. -/
theorem stepKeepsTheCounterIdentities : Obligations.StepKeepsTheCounterIdentities :=
  fun _ _ huse hcount h => (step_moved h).countersOk huse hcount

/-- Settles O49: only a SEND writes TX_LEN, after its length check, and only a master's SEND starts a wait. -/
theorem stepKeepsTheSentFrameInvariant : Obligations.StepKeepsTheSentFrameInvariant :=
  fun _ _ hsent h => (step_moved h).sentOk hsent

/-- Settles O50: a command that ran needs INIT_DONE = 1, and every other kind of step leaves these registers. -/
theorem stepKeepsTheUninitializedState : Obligations.StepKeepsTheUninitializedState :=
  fun _ _ hboot h => (step_moved h).bootOk hboot

/-- Settles O51: after reset no buffer byte is listed and every register the invariants name is 0. -/
theorem resetMeetsTheInvariants : Obligations.ResetMeetsTheInvariants := by
  refine ⟨⟨rfl, fun c hc => absurd hc List.not_mem_nil, by simp [State.reset]⟩, ⟨?_, fun _ => rfl⟩,
    ⟨fun _ => ⟨rfl, rfl⟩, fun _ => rfl⟩, ⟨Nat.zero_le _, ?_⟩, ?_⟩
  · exact fun _ => ⟨rfl, rfl, rfl, rfl, rfl⟩
  · exact fun hpending => by simp [State.reset] at hpending
  · exact fun _ => ⟨rfl, rfl, rfl, rfl, rfl, rfl, rfl, rfl, rfl, rfl, rfl, rfl, rfl⟩

/-- Settles O52: a restart clears the count and the number, a successful SEND moves both by one, and nothing else
moves either. -/
theorem txSeqFollowsTheNumberOfSends : Obligations.TxSeqFollowsTheNumberOfSends :=
  fun _ _ _ hso h => ⟨fun hr hmaster => State.SendsSoFar.of_restart hr h hmaster,
    fun _ hsend => hso.of_send hsend.1 h hsend.2, fun hr hnot => (step_moved h).sendsSoFar hso hr hnot⟩

end Sys2Proof.Machine

/-! PROOFS. What changes over a step (10_state.md R22, R39 to R41; 44_timeout.md R194; 20_memory.md R76): one lemma a
register or group of registers with one column "written by", one for the buffers, the counters and the sink. -/

namespace Sys2Proof.Machine

section
variable {s t : State}

/-! ### Registers -/

theorem Moved.delayCfg_eq_or (h : Moved s t) :
    t.delayCfg = s.delayCfg ∨ s.nextIsDelayWrite = true ∨ s.nextIsPowerOn = true := by
  cases h with
  | delay _ _ _ kind => exact .inr (.inl kind)
  | power _ _ kind => exact .inr (.inr kind)
  | _ => exact .inl rfl

theorem Moved.configuration_eq_or (h : Moved s t) :
    (t.initDone = s.initDone ∧ t.role = s.role ∧ t.localAddr = s.localAddr ∧ t.peerAddr = s.peerAddr) ∨
      s.nextRestarts = true := by
  cases h with
  | power _ _ kind => exact .inr (State.nextRestarts_of_powerOn kind)
  | init _ _ _ _ _ _ kind => exact .inr (State.nextRestarts_of_init kind)
  | _ => exact .inl ⟨rfl, rfl, rfl, rfl⟩

theorem Moved.ackPending_eq_or (h : Moved s t) :
    t.ackPending = s.ackPending ∨ s.nextRestarts = true ∨
      (s.role = .master ∧ (s.nextIsSend = true ∨ s.nextIsCheckRx = true)) := by
  cases h with
  | power _ _ kind => exact .inr (.inl (State.nextRestarts_of_powerOn kind))
  | init _ _ _ _ _ _ kind => exact .inr (.inl (State.nextRestarts_of_init kind))
  | sentMaster _ _ _ _ _ kind _ role => exact .inr (.inr ⟨role, .inl kind⟩)
  | answered _ _ _ kind _ role => exact .inr (.inr ⟨role, .inr kind⟩)
  | _ => exact .inl rfl

theorem Moved.txSeq_lastDest_eq_or (h : Moved s t) :
    (t.txSeq = s.txSeq ∧ t.lastDest = s.lastDest) ∨ s.nextRestarts = true ∨
      (s.role = .master ∧ s.nextIsSend = true) := by
  cases h with
  | power _ _ kind => exact .inr (.inl (State.nextRestarts_of_powerOn kind))
  | init _ _ _ _ _ _ kind => exact .inr (.inl (State.nextRestarts_of_init kind))
  | sentMaster _ _ _ _ _ kind _ role => exact .inr (.inr ⟨role, kind⟩)
  | _ => exact .inl ⟨rfl, rfl⟩

theorem Moved.rxSeq_eq_or (h : Moved s t) :
    t.rxSeq = s.rxSeq ∨ s.nextRestarts = true ∨ (s.role = .slave ∧ s.nextIsCheckRx = true) := by
  cases h with
  | power _ _ kind => exact .inr (.inl (State.nextRestarts_of_powerOn kind))
  | init _ _ _ _ _ _ kind => exact .inr (.inl (State.nextRestarts_of_init kind))
  | requested _ _ _ kind _ role => exact .inr (.inr ⟨role, kind⟩)
  | _ => exact .inl rfl

/-- A poll that times out reloads T_SEND only where the parameter says so (44_timeout.md R192). -/
theorem Moved.tSend_eq_or (h : Moved s t) :
    t.tSend = s.tSend ∨ s.nextRestarts = true ∨ (s.role = .master ∧ s.nextIsSend = true) ∨
      (s.params.restampOnResend = true ∧ s.nextIsPollAck = true) := by
  cases h with
  | power _ _ kind => exact .inr (.inl (State.nextRestarts_of_powerOn kind))
  | init _ _ _ _ _ _ kind => exact .inr (.inl (State.nextRestarts_of_init kind))
  | sentMaster _ _ _ _ _ kind _ role => exact .inr (.inr (.inl ⟨role, kind⟩))
  | timedOut _ _ _ kind =>
    cases hrestamp : s.params.restampOnResend with
    | true => exact .inr (.inr (.inr ⟨rfl, kind⟩))
    | false => exact .inl (by simp)
  | _ => exact .inl rfl

theorem Moved.retry_eq_or (h : Moved s t) :
    t.retry = s.retry ∨ s.nextRestarts = true ∨ (s.role = .master ∧ s.nextIsCheckRx = true) ∨
      s.nextIsPollAck = true := by
  cases h with
  | power _ _ kind => exact .inr (.inl (State.nextRestarts_of_powerOn kind))
  | init _ _ _ _ _ _ kind => exact .inr (.inl (State.nextRestarts_of_init kind))
  | answered _ _ _ kind _ role => exact .inr (.inr (.inl ⟨role, kind⟩))
  | timedOut _ _ _ kind => exact .inr (.inr (.inr kind))
  | _ => exact .inl rfl

theorem Moved.txLen_eq_or (h : Moved s t) :
    t.txLen = s.txLen ∨ s.nextRestarts = true ∨ s.nextIsSend = true := by
  cases h with
  | power _ _ kind => exact .inr (.inl (State.nextRestarts_of_powerOn kind))
  | init _ _ _ _ _ _ kind => exact .inr (.inl (State.nextRestarts_of_init kind))
  | sentMaster _ _ _ _ _ kind | sentSlave _ _ _ _ kind => exact .inr (.inr kind)
  | _ => exact .inl rfl

theorem Moved.result_eq_or (h : Moved s t) :
    t.result = s.result ∨ s.nextRestarts = true ∨ s.nextIsSend = true ∨ s.nextIsCheckRx = true ∨
      s.nextIsPollAck = true := by
  cases h with
  | idle | quiet | delay | window | failed => exact .inl rfl
  | power _ _ kind => exact .inr (.inl (State.nextRestarts_of_powerOn kind))
  | init _ _ _ _ _ _ kind => exact .inr (.inl (State.nextRestarts_of_init kind))
  | sentMaster _ _ _ _ _ kind | sentSlave _ _ _ _ kind => exact .inr (.inr (.inl kind))
  | rejected _ _ _ kind | repeated _ _ _ kind | answered _ _ _ kind | requested _ _ _ kind =>
    exact .inr (.inr (.inr (.inl kind)))
  | timedOut _ _ _ kind | polled _ _ _ kind => exact .inr (.inr (.inr (.inr kind)))

theorem Moved.params_eq (h : Moved s t) : t.params = s.params := by cases h <;> rfl

/-! ### Buffers, counters and the sink -/

theorem Moved.mem_read_eq_or (h : Moved s t) (a : Nat) :
    t.mem.read a = s.mem.read a ∨ s.nextRestarts = true ∨ s.nextIsWindowWrite = true ∨
      (s.nextIsSend = true ∧ txBase ≤ a ∧ a < txBase + 12) := by
  cases h with
  | power _ _ kind => exact .inr (.inl (State.nextRestarts_of_powerOn kind))
  | init _ _ _ _ _ _ kind => exact .inr (.inl (State.nextRestarts_of_init kind))
  | window _ _ _ _ _ kind => exact .inr (.inr (.inl kind))
  | sentMaster _ _ _ _ _ kind | sentSlave _ _ _ _ kind =>
    by_cases ha : a < txBase ∨ txBase + 12 ≤ a
    · exact .inl (s.read_buildFrame_outside _ _ _ ha)
    · exact .inr (.inr (.inr ⟨kind, by omega, by omega⟩))
  | _ => exact .inl rfl

/-- The wait ends with a restart or with the reply that is awaited (44_timeout.md R194). -/
theorem Moved.ackPending_cleared (h : Moved s t) (hwait : s.ackPending = true) (hend : t.ackPending = false) :
    s.nextRestarts = true ∨
      (s.nextIsCheckRx = true ∧ s.role = .master ∧ t.result = 0 ∧ t.cmdErr = .ok ∧ t.retry = 0) := by
  cases h with
  | power _ _ kind => exact .inl (State.nextRestarts_of_powerOn kind)
  | init _ _ _ _ _ _ kind => exact .inl (State.nextRestarts_of_init kind)
  | answered _ _ _ kind _ role => exact .inr ⟨kind, role, rfl, rfl, rfl⟩
  | sentMaster => simp at hend
  | _ => exact absurd (hwait.symm.trans hend) (by decide)

/-- The next step runs a command that can raise the counter (10_state.md R39, 45_statistics.md R200). -/
def State.nextCanRaise (s : State) (c : Counter) : Prop :=
  (c = .txNew ∧ s.nextIsSend = true) ∨
  (c = .txResend ∧ (s.nextIsCheckRx = true ∨ s.nextIsPollAck = true)) ∨
  (c ≠ .txNew ∧ c ≠ .txResend ∧ s.nextIsCheckRx = true)

/-- One event moves a counter up by 1 where it is its own. -/
theorem State.get_bump_of_canRaise {c : Counter} (h : s.nextCanRaise c) (d : Counter) :
    (s.stats.bump c).get d = s.stats.get d ∨
      ((s.stats.bump c).get d = s.stats.get d + 1 ∧ s.nextCanRaise d) := by
  rw [Stats.get_bump]
  split
  next heq => exact .inr ⟨rfl, heq ▸ h⟩
  next => exact .inl rfl

theorem State.canRaise_of_checkRx (h : s.nextIsCheckRx = true) {c : Counter} (hc : c ≠ .txNew) :
    s.nextCanRaise c := by
  by_cases hresend : c = .txResend
  · exact .inr (.inl ⟨hresend, .inl h⟩)
  · exact .inr (.inr ⟨hc, hresend, h⟩)

theorem Moved.counter_eq_or (h : Moved s t) (c : Counter) :
    t.stats.get c = s.stats.get c ∨ (t.stats.get c = s.stats.get c + 1 ∧ s.nextCanRaise c) ∨
      (t.stats.get c = 0 ∧ s.nextRestarts = true) := by
  rw [← or_assoc]
  cases h with
  | idle | quiet | delay | window | failed | polled => exact .inl (.inl rfl)
  | power _ _ kind => exact .inr ⟨Stats.get_zeroed c, State.nextRestarts_of_powerOn kind⟩
  | init _ _ _ _ _ _ kind => exact .inr ⟨Stats.get_zeroed c, State.nextRestarts_of_init kind⟩
  | sentMaster _ _ _ _ _ kind | sentSlave _ _ _ _ kind =>
    exact .inl (State.get_bump_of_canRaise (.inl ⟨rfl, kind⟩) c)
  | rejected _ _ _ kind =>
    exact .inl (State.get_bump_of_canRaise (State.canRaise_of_checkRx kind (RxOutcome.counter_ne_txNew _)) c)
  | answered _ _ _ kind | requested _ _ _ kind =>
    exact .inl (State.get_bump_of_canRaise (State.canRaise_of_checkRx kind (by decide)) c)
  | repeated _ _ _ kind =>
    by_cases hresend : c = .txResend
    · subst hresend
      exact .inl (.inr ⟨rfl, State.canRaise_of_checkRx kind (by decide)⟩)
    · have hdup : ((s.stats.bump .rxDup).bump .txResend).get c = (s.stats.bump .rxDup).get c :=
        Stats.get_bump_of_ne _ (Ne.symm hresend)
      rw [hdup]
      exact .inl (State.get_bump_of_canRaise (State.canRaise_of_checkRx kind (by decide)) c)
  | timedOut _ _ _ kind => exact .inl (State.get_bump_of_canRaise (.inr (.inl ⟨rfl, .inr kind⟩)) c)

theorem Moved.spans_eq_or (h : Moved s t) :
    t.spans = s.spans ∨
      (t.spans = s.spans ++ [t.sentBytes] ∧ t.cmdErr = .ok ∧
        (s.nextIsSend = true ∨ (s.nextIsCheckRx = true ∧ s.role = .slave ∧ t.result = 1) ∨
          (s.nextIsPollAck = true ∧ s.ackPending = true ∧ t.retry = s.retry + 1))) := by
  cases h with
  | sentMaster _ _ _ _ _ kind | sentSlave _ _ _ _ kind =>
    exact .inr ⟨congrArg (s.spans ++ [·]) (s.buildFrame_slice _ _ _).symm, rfl, .inl kind⟩
  | repeated _ _ _ kind _ role => exact .inr ⟨rfl, rfl, .inr (.inl ⟨kind, role, rfl⟩)⟩
  | timedOut _ _ _ kind _ waiting => exact .inr ⟨rfl, rfl, .inr (.inr ⟨kind, waiting, rfl⟩)⟩
  | _ => exact .inl rfl

end

/-! ### The statements -/

/-- Settles O41: each clause is the lemma about its registers, read as "if it changed". -/
theorem registersAreWrittenOnlyByTheirRows : Obligations.RegistersAreWrittenOnlyByTheirRows := by
  intro s t h
  have hmoved := step_moved h
  refine ⟨fun hne => hmoved.cmd_eq_or.resolve_left ?_, hmoved.delayCfg_eq_or.resolve_left, fun hne => ?_,
    hmoved.ackPending_eq_or.resolve_left, fun hne => hmoved.txSeq_lastDest_eq_or.resolve_left ?_,
    hmoved.rxSeq_eq_or.resolve_left, hmoved.tSend_eq_or.resolve_left, hmoved.retry_eq_or.resolve_left,
    hmoved.txLen_eq_or.resolve_left, hmoved.result_eq_or.resolve_left, hmoved.params_eq⟩
  · exact not_and_or.mpr hne
  · rcases hmoved.configuration_eq_or with ⟨hdone, hrole, hlocal, hpeer⟩ | hr
    · rcases hmoved.maxDelay_eq_or_nextRestarts with hdelay | hr
      · simp [hdone, hrole, hlocal, hpeer, hdelay] at hne
      · exact hr
    · exact hr
  · exact not_and_or.mpr hne

/-- Settles O42: a window write and a SEND store where `State.read_buildFrame_outside` and the map say. -/
theorem buffersChangeOnlyByTheirWriters : Obligations.BuffersChangeOnlyByTheirWriters :=
  fun _ _ a h => ((step_moved h).mem_read_eq_or a).resolve_left

/-- Settles O43: of the kinds of step that write ACK_PENDING, a master's SEND sets it. -/
theorem onlyAReplyOrARestartEndsTheWait : Obligations.OnlyAReplyOrARestartEndsTheWait :=
  fun _ _ h => (step_moved h).ackPending_cleared

/-- Settles O44: each kind of step is no event, one event, two events of different counters, or a restart. -/
theorem countersMoveOnlyOnTheirEvents : Obligations.CountersMoveOnlyOnTheirEvents :=
  fun _ _ c h => (step_moved h).counter_eq_or c

/-- Settles O45: the frame a SEND emits is what TX then holds, and a RESEND emits what TX holds. -/
theorem stepEmitsAtMostOneSpan : Obligations.StepEmitsAtMostOneSpan :=
  fun _ _ h => (step_moved h).spans_eq_or

end Sys2Proof.Machine

/-! PROOFS. The checksum, further (40_checksum.md R113, R119): the two other accumulators, and one flipped bit, on a
byte list and in a received frame. -/

namespace Sys2Proof.Machine

/-! ### The carry fold of a sum -/

/-- The fold of 40_checksum.md R110 in closed form (`foldCarries_eq`): what the checksum is the complement of. -/
def folded (sum : Nat) : Nat := if sum = 0 then 0 else 1 + (sum - 1) % 0xFFFF

theorem csum_toNat_folded (bs : List Byte) : (csum bs).toNat = 0xFFFF - folded (sumWords bs) := csum_toNat bs

theorem folded_le (sum : Nat) : folded sum ≤ 0xFFFF := by
  unfold folded
  split <;> omega

theorem folded_of_le {sum : Nat} (h : sum ≤ 0xFFFF) : folded sum = sum := by
  unfold folded
  split <;> omega

/-- Taking out 0xFFFF leaves the fold as it is, unless nothing is left. -/
theorem folded_add_allOnes {sum : Nat} (h : sum ≠ 0) : folded (sum + 0xFFFF) = folded sum := by
  unfold folded
  rw [if_neg h, if_neg (by omega)]
  omega

theorem folded_eq_iff (a b : Nat) : folded a = folded b ↔ (a = 0 ↔ b = 0) ∧ a % 0xFFFF = b % 0xFFFF := by
  unfold folded
  split <;> split <;> omega

theorem csum_eq_iff (bs bs' : List Byte) :
    csum bs = csum bs' ↔ folded (sumWords bs) = folded (sumWords bs') := by
  have hle := folded_le (sumWords bs)
  have hle' := folded_le (sumWords bs')
  rw [BitVec.toNat_eq, csum_toNat_folded, csum_toNat_folded]
  omega

/-! ### End-around carry on every addition (40_checksum.md R113) -/

/-- One addition with end-around carry keeps the accumulator in 16 bits and the fold of what is summed. -/
theorem endAround_step {acc word rest : Nat} (hacc : acc ≤ 0xFFFF) (hword : word ≤ 0xFFFF) :
    (if acc + word > 0xFFFF then acc + word - 0xFFFF else acc + word) ≤ 0xFFFF ∧
      folded ((if acc + word > 0xFFFF then acc + word - 0xFFFF else acc + word) + rest) =
        folded (acc + word + rest) := by
  split
  next hcarry =>
    have hback : acc + word - 0xFFFF + rest + 0xFFFF = acc + word + rest := by omega
    have hne : acc + word - 0xFFFF + rest ≠ 0 := by omega
    exact ⟨by omega, by rw [← folded_add_allOnes hne, hback]⟩
  next hfits => exact ⟨by omega, rfl⟩

theorem endAroundSum_eq {acc : Nat} (hacc : acc ≤ 0xFFFF) (bs : List Byte) :
    endAroundSum acc bs = folded (acc + sumWords bs) := by
  induction bs using sumWords.induct generalizing acc with
  | case1 => simp [endAroundSum, sumWords, folded_of_le hacc]
  | case2 b =>
    obtain ⟨hle, hfold⟩ := endAround_step (rest := 0) hacc (show b.toNat ≤ 0xFFFF by have := b.isLt; omega)
    rw [Nat.add_zero, Nat.add_zero, folded_of_le hle] at hfold
    exact hfold
  | case3 lo hi rest ih =>
    have hword : (half lo hi).toNat ≤ 0xFFFF := Nat.le_of_lt_succ (half lo hi).isLt
    obtain ⟨hle, hfold⟩ := endAround_step (rest := sumWords rest) hacc hword
    rw [endAroundSum, sumWords, ih hle, hfold, Nat.add_assoc]

/-! ### Two folds of a 32-bit sum (40_checksum.md R113) -/

theorem sumWords_le (bs : List Byte) : sumWords bs ≤ (bs.length + 1) / 2 * 0xFFFF := by
  induction bs using sumWords.induct with
  | case1 => simp [sumWords]
  | case2 b =>
    have := b.isLt
    simp [sumWords]
    omega
  | case3 lo hi rest ih =>
    have := (half lo hi).isLt
    simp only [sumWords, List.length_cons]
    omega

/-- Two rounds fold every sum that a frame can have. -/
theorem fold_twice {sum : Nat} (h : sum ≤ 2050 * 0xFFFF) :
    (sum % 0x10000 + sum / 0x10000) % 0x10000 + (sum % 0x10000 + sum / 0x10000) / 0x10000 = folded sum := by
  unfold folded
  split <;> omega

/-! ### One flipped bit (40_checksum.md R119) -/

theorem xor_twoPow_xor_twoPow (b : Byte) (k : Nat) : b ^^^ BitVec.twoPow 8 k ^^^ BitVec.twoPow 8 k = b := by
  rw [BitVec.xor_assoc, BitVec.xor_self, BitVec.xor_zero]

/-- Setting a bit that is clear adds its weight. -/
theorem xor_twoPow_toNat_of_clear {b : Byte} {k : Nat} (hk : k < 8) (hclear : b.getLsbD k = false) :
    (b ^^^ BitVec.twoPow 8 k).toNat = b.toNat + 2 ^ k := by
  have hdisjoint : b &&& BitVec.twoPow 8 k = 0#8 := by simp [BitVec.and_twoPow, hclear]
  have hor : b ^^^ BitVec.twoPow 8 k = b ||| BitVec.twoPow 8 k := by
    apply BitVec.eq_of_getLsbD_eq
    intro j _
    by_cases hj : j = k
    · simp [hj, hclear]
    · simp [Ne.symm hj]
  have hweight : 2 ^ k < 2 ^ 8 := Nat.pow_lt_pow_right (by decide) hk
  rw [hor, ← BitVec.add_eq_or_of_and_eq_zero _ _ hdisjoint, BitVec.toNat_add_of_and_eq_zero hdisjoint,
    BitVec.toNat_twoPow, Nat.mod_eq_of_lt hweight]

theorem xor_twoPow_toNat (b : Byte) {k : Nat} (hk : k < 8) :
    (b ^^^ BitVec.twoPow 8 k).toNat = b.toNat + 2 ^ k ∨ b.toNat = (b ^^^ BitVec.twoPow 8 k).toNat + 2 ^ k := by
  cases hbit : b.getLsbD k with
  | false => exact .inl (xor_twoPow_toNat_of_clear hk hbit)
  | true =>
    have hclear : (b ^^^ BitVec.twoPow 8 k).getLsbD k = false := by simp [hbit, hk]
    have hset := xor_twoPow_toNat_of_clear hk hclear
    rw [xor_twoPow_xor_twoPow] at hset
    exact .inr hset

/-- The sum moves by the weight of the bit in its word, which is no multiple of 0xFFFF. -/
theorem csum_flip_ne {bs : List Byte} {i k : Nat} (h : i < bs.length) (hk : k < 8) :
    csum (bs.set i (bs[i] ^^^ BitVec.twoPow 8 k)) ≠ csum bs := by
  have hsum := sumWords_set h (bs[i] ^^^ BitVec.twoPow 8 k)
  have hflip := xor_twoPow_toNat bs[i] hk
  have hweight : 2 ^ k ≤ 2 ^ 7 := Nat.pow_le_pow_right (by decide) (by omega)
  have hpos := Nat.two_pow_pos k
  rw [Ne, csum_eq_iff, folded_eq_iff]
  split at hsum <;> omega

/-! ### One flipped bit in RX (43_receive.md R167) -/

section
variable {s : State} {i k : Nat}

/-- The same engine with one bit of an RX byte flipped. -/
def State.withRxFlip (s : State) (i k : Nat) : State :=
  { s with mem := s.mem.write (rxBase + i) (s.rx i ^^^ BitVec.twoPow 8 k) }

theorem State.withRxFlip_rx_same (s : State) (i k : Nat) :
    (s.withRxFlip i k).rx i = s.rx i ^^^ BitVec.twoPow 8 k := Memory.read_write_same _ _ _

theorem State.withRxFlip_rx_other (s : State) {i j : Nat} (k : Nat) (h : j ≠ i) :
    (s.withRxFlip i k).rx j = s.rx j := Memory.read_write_other _ _ (by omega)

/-- A slice that covers the byte is the slice before with that one byte replaced. -/
theorem State.withRxFlip_slice (s : State) (k : Nat) {off n : Nat} (hlo : off ≤ i) (hhi : i < off + n) :
    slice (s.withRxFlip i k).rx off n =
      (slice s.rx off n).set (i - off) (s.rx i ^^^ BitVec.twoPow 8 k) := by
  apply List.ext_getElem (by simp)
  intro j hj _
  rw [slice_getElem, List.getElem_set]
  split
  next heq =>
    obtain rfl : off + j = i := by omega
    exact s.withRxFlip_rx_same _ k
  next hne =>
    rw [slice_getElem]
    exact s.withRxFlip_rx_other k (by omega)

theorem State.withRxFlip_csum_ne (hk : k < 8) {n : Nat} (hlo : 8 ≤ i) (hhi : i < 8 + n) :
    csum (slice (s.withRxFlip i k).rx 8 n) ≠ csum (slice s.rx 8 n) := by
  have hin : i - 8 < (slice s.rx 8 n).length := by
    rw [slice_length]
    omega
  have hbyte : (slice s.rx 8 n)[i - 8] = s.rx i := by
    rw [slice_getElem]
    congr 1
    omega
  rw [s.withRxFlip_slice k hlo hhi, ← hbyte]
  exact csum_flip_ne hin hk

end

/-! ### The statements -/

/-- Settles O21: end-around carry keeps the fold of the running sum; 4100 bytes are 2050 words, whose sum two rounds
fold. -/
theorem otherAccumulatorsConform : Obligations.OtherAccumulatorsConform := by
  refine ⟨fun bs => ?endAround, fun bs hlen => ?twice⟩
  case endAround => rw [endAroundSum_eq (Nat.zero_le _), Nat.zero_add, csum_toNat_folded]
  case twice =>
    have hle : sumWords bs ≤ 2050 * 0xFFFF :=
      (sumWords_le bs).trans (Nat.mul_le_mul_right _ (by omega))
    refine ⟨by omega, ?_⟩
    rw [csum_toNat_folded, ← fold_twice hle]

/-- Settles O22: `csum_flip_ne`. -/
theorem oneFlippedBitChangesTheChecksum : Obligations.OneFlippedBitChangesTheChecksum :=
  fun _ _ _ h hk => csum_flip_ne h hk

/-- Settles O34: no check before the checksum reads the flipped byte, except a master's sequence check, which the
hypothesis leaves out; the stored checksum is not flipped, and the one of the covered bytes moves. -/
theorem oneFlippedBitIsCaughtAtTheReceiver : Obligations.OneFlippedBitIsCaughtAtTheReceiver := by
  intro s i k hinit hvalid hk hplace hit
  obtain ⟨⟨hpre, hstart, hdest⟩, hsrc, hseq, hlen, hcsum⟩ := hvalid
  have hcovered : 8 ≤ i ∧ i < 8 + (4 + s.rxLenField.toNat) ∧ i ≠ 10 ∧ i ≠ 11 := by omega
  have hkept : ∀ j, j ≠ i → hit.rx j = s.rx j := fun j hj => s.withRxFlip_rx_other k hj
  have hlenField : hit.rxLenField = s.rxLenField := by
    rw [State.rxLenField, hkept 11 (by omega), hkept 10 (by omega)]
    rfl
  have hcsumField : hit.rxCsumField = s.rxCsumField := by
    rw [State.rxCsumField, hkept 5 (by omega), hkept 4 (by omega)]
    rfl
  have hverdict : hit.classify = .csumErr := by
    refine (hit.classify_eq_iff .csumErr).mpr ⟨⟨?_, ?_, ?_⟩, ?_, ?_, ?_, ?_⟩
    · rw [State.rxPreamble, hkept 0 (by omega), hkept 1 (by omega), hkept 2 (by omega)]
      exact hpre
    · rw [State.rxStart, hkept 3 (by omega)]
      exact hstart
    · rw [State.rxDest, hkept 6 (by omega)]
      exact hdest
    · rw [State.rxSrc, hkept 7 (by omega)]
      exact hsrc
    · intro hmaster
      have hpayload : 12 ≤ i := by
        rcases hplace with ⟨h12, -⟩ | ⟨hslave, -⟩
        · exact h12
        · exact absurd (hmaster.symm.trans hslave) (by decide)
      rw [State.rxSeqField, hkept 9 (by omega), hkept 8 (by omega)]
      exact hseq hmaster
    · rw [State.rxLen, hlenField]
      exact hlen
    · rw [State.rxCsum, hlenField, hcsumField, hcsum]
      exact (State.withRxFlip_csum_ne hk hcovered.1 hcovered.2.1).symm
  exact exec_checkRx_rejected (s := hit) hinit hverdict (by decide) (by decide)

end Sys2Proof.Machine

/-! PROOFS. SEND and RESEND together (42_send.md R145 to R148): the number in a frame sent, the span a SEND emits and TX
then holds, and what a RESEND transmits after a host write, after a timeout and before any SEND. -/

namespace Sys2Proof.Machine

section
variable {s t : State}

/-! ### What a SEND leaves for a RESEND -/

/-- The sequence field of the frame a SEND builds (42_send.md R141, R142). -/
theorem State.sendNew_seqField (s : State) (dest : Byte) (len : Half) :
    half ((s.sendNew dest len).tx 8) ((s.sendNew dest len).tx 9) = s.sendSeq := by
  have hframe := s.sendNew_holds dest len
  rw [hframe 8 (by simp [frameBytes_length]; omega), hframe 9 (by simp [frameBytes_length]; omega)]
  exact half_le16 _

/-- A SEND emits the very bytes a RESEND after it would transmit. -/
theorem State.sendNew_spans_sentBytes (s : State) (dest : Byte) (len : Half) :
    (s.sendNew dest len).spans = s.spans ++ [(s.sendNew dest len).sentBytes] := by
  simp [State.sendNew, State.sentBytes, State.txSpan, Config.hdr]

/-- A successful SEND of a master takes the next number and puts it into its frame. -/
theorem exec_send_master_seq {dest : Byte} {len : Half} (hrole : s.role = .master)
    (h : exec (.send dest len) s = .next t) (hok : t.cmdErr = .ok) :
    half (t.tx 8) (t.tx 9) = nextSeq s.txSeq ∧ t.txSeq = nextSeq s.txSeq := by
  obtain ⟨-, -, rfl⟩ := exec_send_ok h hok
  refine ⟨?_, ?_⟩
  · rw [State.sendNew_seqField, State.sendSeq_master hrole]
  · rw [State.sendNew_master hrole]

/-! ### What a RESEND transmits -/

theorem State.resend_spans_sentBytes (s : State) : s.resend.spans = s.spans ++ [s.sentBytes] := rfl

theorem State.sentBytes_of_txLen_zero (h : s.txLen = 0) : s.sentBytes = slice s.tx 0 12 := by
  rw [State.sentBytes, h]
  rfl

/-- A window write of one byte inside the sent frame replaces that byte of what a RESEND transmits, and no other. -/
theorem State.sentBytes_storeBytes_one {i : Nat} (b : Byte) (hin : i < 12 + s.txLen.toNat)
    (hfits : s.txLen.toNat ≤ s.params.maxLen) :
    (s.storeBytes (txBase + i) [b]).sentBytes = s.sentBytes.set i b := by
  have hcap := maxLen_add_hdr s.params
  have hbounds := bufCap_bounds s.params
  have hlen : (s.storeBytes (txBase + i) [b]).txLen = s.txLen := by rw [State.storeBytes_eq_mem]
  apply List.ext_getElem
  · simp [State.sentBytes, hlen]
  intro j hj _
  rw [State.sentBytes, slice_length, hlen] at hj
  simp only [State.sentBytes, slice_getElem, List.getElem_set, Nat.zero_add, State.tx, State.read_storeBytes]
  by_cases heq : i = j
  · subst heq
    have hbuf : inBuffer s.params (txBase + i) = true := decide_eq_true (by simp only [txBase]; omega)
    rw [dif_pos ⟨by simp, hbuf⟩, if_pos rfl]
    simp
  · rw [dif_neg (by simp; omega), if_neg heq]

end

/-! ### The statements -/

/-- Settles O16: each frame carries the NEXT_SEQ of the number before it, and TX_SEQ keeps it until the next SEND. -/
theorem consecutiveSendsCarryConsecutiveNumbers : Obligations.ConsecutiveSendsCarryConsecutiveNumbers := by
  intro dest dest' len len' s t t' u hrole hsend hok hseq hrole' hsend' hok'
  obtain ⟨hfield, hnumber⟩ := exec_send_master_seq hrole hsend hok
  obtain ⟨hfield', -⟩ := exec_send_master_seq hrole' hsend' hok'
  have hnext : half (u.tx 8) (u.tx 9) = nextSeq (half (t.tx 8) (t.tx 9)) := by
    rw [hfield', hseq, hnumber, hfield]
  refine ⟨hnext, ?_⟩
  change half (u.tx 8) (u.tx 9) ≠ 0
  rw [hnext]
  exact nextSeq_ne_zero _

/-- Settles O38: the SEND leaves TX holding what it emitted, and the poll transmits what TX holds. -/
theorem resendIsVerbatim : Obligations.ResendIsVerbatim := by
  intro dest len s t n _ hrole hsend hok hlate
  obtain ⟨hinit, -, rfl⟩ := exec_send_ok hsend hok
  have hinit' : (s.sendNew dest len).initDone = true := by rw [State.sendNew_master hrole]; exact hinit
  have hwaiting : (s.sendNew dest len).ackPending = true := by rw [State.sendNew_master hrole]
  have hemitted := s.sendNew_spans_sentBytes dest len
  generalize s.sendNew dest len = t at *
  have hout : State.timedOut { t with now := n } = true := State.timedOut_iff.mpr ⟨hwaiting, hlate⟩
  refine ⟨_, t.sentBytes, exec_pollAck_timedOut hinit' hout, hemitted, ?_, rfl, rfl, rfl, rfl⟩
  change t.spans ++ [t.sentBytes] = _
  rw [hemitted, List.append_assoc]
  rfl

/-- Settles O39: the write is a window store of one byte below BUF_CAP, and a RESEND reads the buffer alone. -/
theorem resendSendsTheBufferAsItStands : Obligations.ResendSendsTheBufferAsItStands := by
  intro s i v hin hfits
  have hcap := maxLen_add_hdr s.params
  have hbounds := bufCap_bounds s.params
  have haddr : (BitVec.ofNat 16 (txBase + i)).toNat = txBase + i := by
    rw [BitVec.toNat_ofNat, Nat.mod_eq_of_lt (by simp only [txBase]; omega)]
  have hwrite := busWrite_window (addr := BitVec.ofNat 16 (txBase + i)) (width := 1)
    (by rw [haddr]; simp only [txBase]; omega) (by rw [haddr]; simp only [txBase]; omega)
    ((windowAccess_iff _ _).mpr ⟨by simp, Nat.mod_one _⟩) v s
  rw [haddr] at hwrite
  refine ⟨_, hwrite, ?_, rfl⟩
  have hspans : (s.storeBytes (txBase + i) (lowBytes v 1)).spans = s.spans := by rw [State.storeBytes_eq_mem]
  rw [State.resend_spans_sentBytes, hspans]
  exact congrArg (s.spans ++ [·]) (State.sentBytes_storeBytes_one _ hin hfits)

/-- Settles O40: with TX_LEN = 0 the span is TX[0 .. 12), which INIT leaves 0. -/
theorem resendBeforeAnySend : Obligations.ResendBeforeAnySend := by
  have header : ∀ s : State, s.txLen = 0 → s.resend.spans = s.spans ++ [slice s.tx 0 12] := by
    intro s hzero
    rw [State.resend_spans_sentBytes, State.sentBytes_of_txLen_zero hzero]
  refine ⟨header, fun role localAddr peerAddr s t r hinit hlen hkept => ?_⟩
  rw [exec_init] at hinit
  cases hinit
  have hzeros : slice r.tx 0 12 = slice (fun _ => 0) 0 12 := slice_congr fun i _ hi => by
    rw [hkept i (by omega), State.finish_tx, State.initialized_tx]
  rw [header r hlen, hzeros]
  rfl

end Sys2Proof.Machine

/-! PROOFS. The host interface (20_memory.md R62, R64, R67, R68): the register map read back, the accesses that give and
change nothing, and the frame of every access that is no command. -/

namespace Sys2Proof.Machine

/-! ### The register map -/

theorem regAt_offset (r : Reg) : Reg.at? r.offset = some r := by
  cases r with
  | stat c => cases c <;> decide
  | _ => decide

theorem Reg.offset_bounds (r : Reg) : r.offset < 0x6C ∧ r.offset ≠ 0x3C ∧ r.offset % 4 = 0 := by
  cases r with
  | stat c => cases c <;> decide
  | _ => decide

/-- An aligned 4-byte read at a register's offset returns the register (20_memory.md R62). -/
theorem State.busRead_reg (s : State) (r : Reg) : s.busRead (BitVec.ofNat 16 r.offset) 4 = s.readReg r := by
  obtain ⟨hlt, -, haligned⟩ := r.offset_bounds
  have haddr : (BitVec.ofNat 16 r.offset).toNat = r.offset := by
    rw [BitVec.toNat_ofNat, Nat.mod_eq_of_lt (by omega)]
  have htarget : r.offset < txBase := by
    simp only [txBase]
    omega
  simp [State.busRead, haddr, Target.of, htarget, regAccess, haligned, regAt_offset]

theorem State.status_eq (s : State) :
    s.status =
      (if s.initDone = true then 1 else 0) + (if s.role = .slave then 2 else 0) +
      (if s.ackPending = true then 4 else 0) +
      (match s.cmdErr with | .ok => 0 | .badop => 0x100 | .noinit => 0x200 | .badarg => 0x300) := by
  unfold State.status
  cases s.initDone <;> cases s.role <;> cases s.ackPending <;> cases s.cmdErr <;> decide

/-- A byte moved up by a whole number of bits that the word has room for keeps its value. -/
theorem shiftedByte_toNat (b : Byte) {k : Nat} (hk : k ≤ 24) :
    (b.setWidth 32 <<< k : Word).toNat = b.toNat <<< k := by
  have hb := b.isLt
  have hroom : b.toNat * 2 ^ k < 2 ^ 32 :=
    calc b.toNat * 2 ^ k < 2 ^ 8 * 2 ^ k := Nat.mul_lt_mul_of_pos_right hb (Nat.two_pow_pos k)
      _ = 2 ^ (8 + k) := (Nat.pow_add 2 8 k).symm
      _ ≤ 2 ^ 32 := Nat.pow_le_pow_right (by decide) (by omega)
  rw [BitVec.toNat_shiftLeft, BitVec.toNat_setWidth, Nat.mod_eq_of_lt (a := b.toNat) (by omega),
    Nat.mod_eq_of_lt (by rwa [Nat.shiftLeft_eq])]

/-- The three fields of PARAM0 do not overlap, so the word is their sum (20_memory.md R62). -/
theorem State.param0_toNat (s : State) :
    (s.readReg .param0).toNat =
      s.params.bufCap + 0x10000 * s.params.preambleByte.toNat + 0x1000000 * s.params.startByte.toNat := by
  obtain ⟨-, hcap⟩ := bufCap_bounds s.params
  have hpreamble := s.params.preambleByte.isLt
  have hcapField : ((BitVec.ofNat 16 s.params.bufCap).setWidth 32).toNat = s.params.bufCap := by
    rw [BitVec.toNat_setWidth, BitVec.toNat_ofNat]
    omega
  have hmiddle : s.params.preambleByte.toNat <<< 16 + s.params.bufCap < 2 ^ 24 := by
    rw [Nat.shiftLeft_eq]
    omega
  rw [State.readReg, BitVec.toNat_or, BitVec.toNat_or, shiftedByte_toNat _ (by decide),
    shiftedByte_toNat _ (by decide), hcapField, Nat.or_assoc,
    ← Nat.shiftLeft_add_eq_or_of_lt (show s.params.bufCap < 2 ^ 16 by omega),
    ← Nat.shiftLeft_add_eq_or_of_lt hmiddle, Nat.shiftLeft_eq, Nat.shiftLeft_eq]
  omega

/-! ### Accesses that give and change nothing -/

/-- In the register space only aligned 4-byte accesses at an offset of the map are supported (20_memory.md R64, R67). -/
theorem regAt_none {a width : Nat} (h : width ≠ 4 ∨ a % 4 ≠ 0 ∨ a = 0x3C ∨ 0x6C ≤ a) :
    regAccess a width = false ∨ Reg.at? a = none := by
  by_cases haccess : width = 4 ∧ a % 4 = 0
  · refine .inr ?_
    cases hat : Reg.at? a with
    | none => rfl
    | some r =>
      obtain ⟨hlt, hgap, -⟩ := r.offset_bounds
      rw [regAt_eq_some hat] at hlt hgap
      omega
  · refine .inl ?_
    simpa [regAccess] using haccess

section
variable {addr : BitVec 16} {width : Nat} (v : Word) (s : State)

theorem unsupported_register (hlow : addr.toNat < 0x1000)
    (h : width ≠ 4 ∨ addr.toNat % 4 ≠ 0 ∨ addr.toNat = 0x3C ∨ 0x6C ≤ addr.toNat) :
    s.busRead addr width = 0 ∧ busWrite addr width v s = .next s := by
  have htarget : Target.of addr.toNat = .registers := if_pos hlow
  rcases regAt_none h with haccess | hat
  · simp [State.busRead, busWrite, htarget, haccess]
  · simp [State.busRead, busWrite, htarget, hat]

theorem unsupported_window (hlow : 0x1000 ≤ addr.toNat) (hhigh : addr.toNat < 0x3000)
    (h : (width ≠ 1 ∧ width ≠ 2 ∧ width ≠ 4) ∨ addr.toNat % width ≠ 0) :
    s.busRead addr width = 0 ∧ busWrite addr width v s = .next s := by
  have haccess : windowAccess addr.toNat width = false := by
    rw [← Bool.not_eq_true, windowAccess_iff]
    rintro ⟨hwidth, haligned⟩
    simp only [List.mem_cons, List.not_mem_nil, or_false] at hwidth
    omega
  simp [State.busRead, busWrite, targetOf_window hlow hhigh, haccess]

theorem reserved_address (h : 0x3000 ≤ addr.toNat) :
    s.busRead addr width = 0 ∧ busWrite addr width v s = .next s := by
  have htarget : Target.of addr.toNat = .reserved := by
    rw [Target.of, if_neg (by simp only [txBase]; omega), if_neg (by omega)]
  simp [State.busRead, busWrite, htarget]

/-- Every register but CMD and DELAY_CFG is read-only (20_memory.md R64). -/
theorem busWrite_readOnly (hlow : addr.toNat < 0x1000) (hcmd : addr.toNat ≠ 0x000)
    (hdelay : addr.toNat ≠ 0x00C) : busWrite addr width v s = .next s := by
  rcases busWrite_cases addr width v s with ⟨rfl, -⟩ | ⟨rfl, -⟩ | ⟨hwindow, -⟩ | ⟨-, -, e⟩
  · exact absurd rfl hcmd
  · exact absurd rfl hdelay
  · omega
  · exact e

/-- A write that starts no command changes DELAY_CFG at its own address and buffer bytes among those written
(20_memory.md R68). -/
theorem busWrite_frame (hcmd : ¬(addr = 0 ∧ width = 4)) :
    ∃ t, busWrite addr width v s = .next t ∧ { t with mem := s.mem, delayCfg := s.delayCfg } = s ∧
      (t.delayCfg ≠ s.delayCfg → addr = 0x000C ∧ width = 4 ∧ t.delayCfg = v) ∧
      ∀ x, t.mem.read x ≠ s.mem.read x → addr.toNat ≤ x ∧ x < addr.toNat + width ∧
        0x1000 ≤ x ∧ x < 0x3000 ∧ x % 0x1000 < s.params.bufCap := by
  rcases busWrite_cases addr width v s with ⟨h0, h4, -⟩ | ⟨haddr, hwidth, e⟩ |
    ⟨hlow, hhigh, haccess, e⟩ | ⟨-, -, e⟩
  · exact absurd ⟨h0, h4⟩ hcmd
  · exact ⟨_, e, rfl, fun _ => ⟨haddr, hwidth, rfl⟩, fun _ hne => absurd rfl hne⟩
  · have hend := windowAccess_end haccess hhigh
    refine ⟨_, e, ?_, fun hne => absurd ?_ hne, fun x hne => ?_⟩
    · rw [State.storeBytes_eq_mem]
    · rw [State.storeBytes_eq_mem]
    · rw [State.read_storeBytes_lowBytes] at hne
      split at hne
      next hin => exact ⟨hin.1, hin.2.1, by omega, by omega, hin.2.2⟩
      next => exact absurd rfl hne
  · exact ⟨_, e, rfl, fun hne => absurd rfl hne, fun _ hne => absurd rfl hne⟩

end

/-! ### The statements -/

/-- Settles O53: each offset of the map is a register's, and the fields packed into STATUS and PARAM0 do not overlap. -/
theorem registerMapReadsBack : Obligations.RegisterMapReadsBack := by
  intro s
  have hread := s.busRead_reg
  refine ⟨hread .cmd, (hread .status).trans s.status_eq, hread .result, hread .delayCfg, ?_, ?_,
    hread .maxDelay, ?_, ?_, hread .tSend, hread .retry, ?_, ?_, ?_, ?_, hread (.stat .txNew),
    hread (.stat .txResend), hread (.stat .rxNew), hread (.stat .rxDup), hread (.stat .errPreamble),
    hread (.stat .errStart), hread (.stat .errDest), hread (.stat .errSrc), hread (.stat .errSeq),
    hread (.stat .errLen), hread (.stat .errCsum)⟩
  · exact (hread .localAddr).trans (BitVec.ofNat_toNat 32 _).symm
  · exact (hread .peerAddr).trans (BitVec.ofNat_toNat 32 _).symm
  · exact (hread .txSeq).trans (BitVec.ofNat_toNat 32 _).symm
  · exact (hread .rxSeq).trans (BitVec.ofNat_toNat 32 _).symm
  · exact (hread .lastDest).trans (BitVec.ofNat_toNat 32 _).symm
  · exact (hread .txLen).trans (BitVec.ofNat_toNat 32 _).symm
  · exact (congrArg BitVec.toNat (hread .param0)).trans s.param0_toNat
  · refine (hread .param1).trans ?_
    simp only [State.readReg, flagBit]
    split <;> rfl

/-- Settles O54: by the part of the map the address lies in. -/
theorem unsupportedAccessesReadZeroAndWriteNothing : Obligations.UnsupportedAccessesReadZeroAndWriteNothing := by
  intro s addr width v a
  refine ⟨?_, busWrite_readOnly v s⟩
  rintro (⟨hlow, h⟩ | ⟨hlow, hhigh, h⟩ | h)
  · exact unsupported_register v s hlow h
  · exact unsupported_window v s hlow hhigh h
  · exact reserved_address v s h

/-- Settles O56: a read is the record of its reply; a write that is no command has the frame above in the state that
has taken the transaction. -/
theorem onlyAWriteToCmdHasASideEffect : Obligations.OnlyAWriteToCmdHasASideEffect := by
  intro s now rest addr width
  refine ⟨fun hp => step_eq_serve hp, fun v hp hcmd => ?_⟩
  obtain ⟨t, hwrite, hframe, hdelay, hmem⟩ :=
    busWrite_frame v { s with pending := rest, now := now } hcmd
  exact ⟨t, (step_eq_serve hp).trans hwrite, hframe, hdelay, hmem⟩

end Sys2Proof.Machine

/-! PROOFS. A frame carried from one engine to another (43_receive.md R169, R175; 42_send.md R141, R142): the checks of
CHECK_RX, one by one, on an RX that holds a frame as SEND builds it. -/

namespace Sys2Proof.Machine

/-! ### An RX that holds a frame of 30_encoding.md R99 -/

section
variable {s : State} {p : Params} {dest src : Byte} {seq len : Half} {payload : List Byte}

theorem Holds.frame_byte {buf : Nat → Byte} (h : Holds buf (frameBytes p dest src seq len payload)) (i : Fin 12) :
    buf i = (frameBytes p dest src seq len payload)[i.val]'(by rw [frameBytes_length]; omega) :=
  h i _

theorem Holds.frame_payload {buf : Nat → Byte} (h : Holds buf (frameBytes p dest src seq len payload)) :
    slice buf 12 payload.length = payload := by
  apply List.ext_getElem (slice_length ..)
  intro j _ hj
  rw [slice_getElem, h (12 + j) (by rw [frameBytes_length]; omega)]
  simp only [frameBytes]
  rw [List.getElem_append_right (by simp)]
  simp

section
variable (h : Holds s.rx (frameBytes p dest src seq len payload))
include h

theorem State.rxFramed_of_frame (hpreamble : s.params.preambleByte = p.preambleByte)
    (hstart : s.params.startByte = p.startByte) (hdest : dest = s.localAddr) : s.rxFramed := by
  refine ⟨⟨?_, ?_, ?_⟩, ?_, ?_⟩
  · rw [hpreamble]; exact h.frame_byte 0
  · rw [hpreamble]; exact h.frame_byte 1
  · rw [hpreamble]; exact h.frame_byte 2
  · rw [State.rxStart, hstart]; exact h.frame_byte 3
  · rw [State.rxDest, ← hdest]; exact h.frame_byte 6

theorem State.rxSource_of_frame : s.rx 7 = src := h.frame_byte 7

theorem State.rxSeqField_of_frame : s.rxSeqField = seq := by
  have hlow : s.rx 8 = seq.extractLsb' 0 8 := h.frame_byte 8
  have hhigh : s.rx 9 = seq.extractLsb' 8 8 := h.frame_byte 9
  rw [State.rxSeqField, hlow, hhigh]
  exact half_le16 seq

theorem State.rxLenField_of_frame : s.rxLenField = len := by
  have hlow : s.rx 10 = len.extractLsb' 0 8 := h.frame_byte 10
  have hhigh : s.rx 11 = len.extractLsb' 8 8 := h.frame_byte 11
  rw [State.rxLenField, hlow, hhigh]
  exact half_le16 len

/-- The checksum a frame carries is the one of its covered bytes, where its length field is that of its payload. -/
theorem State.rxCsum_of_frame (hlen : payload.length = len.toNat) : s.rxCsum := by
  have hlow : s.rx 4 = (csum (le16 seq ++ le16 len ++ payload)).extractLsb' 0 8 := h.frame_byte 4
  have hhigh : s.rx 5 = (csum (le16 seq ++ le16 len ++ payload)).extractLsb' 8 8 := h.frame_byte 5
  have hfield : s.rxCsumField = csum (le16 seq ++ le16 len ++ payload) := by
    rw [State.rxCsumField, hlow, hhigh]
    exact half_le16 _
  have hcovered : slice s.rx 8 (4 + len.toNat) = le16 seq ++ le16 len ++ payload := by
    rw [slice_covered (h.frame_byte 8) (h.frame_byte 9) (h.frame_byte 10) (h.frame_byte 11), ← hlen,
      h.frame_payload]
  rw [State.rxCsum, hfield, State.rxLenField_of_frame h, hcovered]

end

end

/-! ### The statements -/

/-- Settles O58: the frame passes each check of a slave that is configured for this master, and carries another number
than the slave's last. -/
theorem slaveAcceptsWhatItsMasterSends : Obligations.SlaveAcceptsWhatItsMasterSends := by
  intro m m' s len _ hmaster hsend hok hinit hslave hpeer hpreamble hstart hmax hnew
  obtain ⟨-, hlegal, rfl⟩ := exec_send_ok hsend hok
  obtain ⟨hmin, -⟩ := (legalLen_iff m.params len).mp hlegal
  rw [State.sendNew_master hmaster] at hnew ⊢
  refine ⟨_, rfl, fun hframe => ?_⟩
  have hseq : s.rxSeqField = nextSeq m.txSeq := State.rxSeqField_of_frame hframe
  have hpayload := hframe.frame_payload
  rw [slice_length] at hpayload
  have hvalid : s.rxValid := by
    refine ⟨State.rxFramed_of_frame hframe hpreamble hstart rfl, ⟨fun hr => ?_, fun _ => ?_⟩, fun hr => ?_, ?_,
      State.rxCsum_of_frame hframe (slice_length ..)⟩
    · exact absurd (hslave.symm.trans hr) (by decide)
    · rw [State.rxSource_of_frame hframe, hpeer]
    · exact absurd (hslave.symm.trans hr) (by decide)
    · rw [State.rxLen, State.rxLenField_of_frame hframe]
      exact ⟨hmin, hmax⟩
  have hfresh : ¬s.rxRepeats := fun ⟨_, hrepeat⟩ => hnew (hrepeat.symm.trans hseq)
  have hverdict := (s.classify_eq_iff .newValid).mpr ⟨hvalid, hfresh⟩
  exact ⟨_, exec_checkRx_newValid_slave hinit hslave hverdict, rfl, rfl, hseq, rfl, hpayload⟩

/-- Settles O59: the reply passes every check but the source check, and that one exactly where the slave is the one
last addressed. -/
theorem masterAcceptsTheReplyItAskedFor : Obligations.MasterAcceptsTheReplyItAskedFor := by
  intro m s s' dest len _ hslave hsend hok hinit hmaster hpeer hnumber hpreamble hstart hmax
  obtain ⟨-, hlegal, rfl⟩ := exec_send_ok hsend hok
  obtain ⟨hmin, -⟩ := (legalLen_iff s.params len).mp hlegal
  rw [State.sendNew_slave hslave]
  refine ⟨_, rfl, fun hframe => ?_⟩
  have hframed := State.rxFramed_of_frame hframe hpreamble.symm hstart.symm hpeer
  have hsource : m.rx 7 = s.localAddr := State.rxSource_of_frame hframe
  refine ⟨fun hasked => ?_, fun hother => ?_⟩
  · have hvalid : m.rxValid := by
      refine ⟨hframed, ⟨fun _ => hsource.trans hasked.symm, fun hr => ?_⟩, fun _ => ?_, ?_,
        State.rxCsum_of_frame hframe (slice_length ..)⟩
      · exact absurd (hmaster.symm.trans hr) (by decide)
      · rw [State.rxSeqField_of_frame hframe, hnumber]
      · rw [State.rxLen, State.rxLenField_of_frame hframe]
        exact ⟨hmin, hmax⟩
    have hverdict := State.classify_newValid_of_master hmaster hvalid
    exact ⟨_, exec_checkRx_newValid_master hinit hmaster hverdict, rfl, rfl, rfl, rfl⟩
  · have hforeign : ¬m.rxSrc := fun hsrc => hother ((hsrc.1 hmaster).symm.trans hsource)
    exact exec_checkRx_srcErr hinit hframed hforeign

end Sys2Proof.Machine
